-- ==== Sys2Proof/Word.lean ====
section
/-! DEFINITION. The word types of the machine (spec 00 R9, 10 R21, R29, R31): bytes, 16-bit CPU addresses, 15-bit
video addresses, 14-bit PPU bus addresses, and the sparse form in which every memory of the machine is held. -/

namespace Sys2Proof

/-- A CPU register value or a memory byte (R9: "an unsigned byte 0..255"). -/
abbrev Byte := BitVec 8

/-- A CPU address (R9: "an unsigned 16-bit number"). -/
abbrev Word := BitVec 16

/-- The working video address `v` and its latched copy `t` (R31: 15 bits each). -/
abbrev VAddr := BitVec 15

/-- An address on the PPU bus (R77: "14-bit, byte addressed"). -/
abbrev PAddr := BitVec 14

/-- A sparse table: entries by rising key, an unlisted key standing for one default value. -/
abbrev Sparse (α : Type) := List (Nat × α)

/-- A memory of bytes: the listed cells by rising address; an unlisted address reads as `0`. -/
abbrev Mem := List Host.Cell

end Sys2Proof
end

