-- ==== Sys2Proof/Machine/Bits.lean ====
section
/-! DEFINITION. Bit-field and byte-order helpers (spec 00 R9, spec 20 R73). -/

namespace Sys2Proof.Machine

/-- `lo | (hi << 8)`: the 16-bit value of two bytes, little-endian (R73). -/
def wordOf (lo hi : Byte) : Word := hi ++ lo

/-- `w[7:0]` (R9). -/
def loByte (w : Word) : Byte := w.extractLsb' 0 8

/-- `w[15:8]` (R9). -/
def hiByte (w : Word) : Byte := w.extractLsb' 8 8

/-- `zext_16` of R9. -/
def zext16 (b : Byte) : Word := b.setWidth 16

/-- `sext_16` of R9: `b` if `b < 0x80`, else `b + 0xFF00`. -/
def sext16 (b : Byte) : Word := if b.toNat < 0x80 then zext16 b else zext16 b + 0xFF00#16

/-- `bool(x)` of R9 as a number. -/
def bitNat (b : Bool) : Nat := if b then 1 else 0

/-- Write bit `i` of a byte, every other bit kept. -/
def putBit (i : Nat) (b : Bool) (p : Byte) : Byte :=
  if b then p ||| (1#8 <<< i) else p &&& ~~~(1#8 <<< i)

/-- The bytes of a number, least significant first. -/
def bytesOfNat (w : Nat) : Nat → List Byte
  | 0 => []
  | k + 1 => BitVec.ofNat 8 w :: bytesOfNat (w / 256) k

end Sys2Proof.Machine
end

