-- ==== Sys2Proof/Config.lean ====
section
/-! DEFINITION. What is fixed for a machine: the implementation parameters of spec 00 R7, the cartridge of spec 00 R8,
the constants the spec fixes, and the one free value of the model (the controller oracle of spec 20 R71). The
parameters and the cartridge are data that `State` carries (R20 lists the configuration among the state, "immutable,
nobody writes it"), so a statement about every state is a statement about every parameter value. -/

namespace Sys2Proof

/-- The implementation parameters of R7, "fixed at power-on and never changes during a run". -/
structure Params where
  /-- `DECIMAL_ENABLED` (R6): `false` for this hardware. -/
  decimalEnabled : Bool
  /-- `SPRITE_LIMIT_ENABLED` (R7, R272). -/
  spriteLimitEnabled : Bool
  /-- `OVERSCAN_CROP` (R7, R281). -/
  overscanCrop : Bool
  /-- `RESET_SP` (R7, R24). -/
  resetSp : Byte
  /-- `INTERRUPT_CYCLES` (R7, R335). -/
  interruptCycles : Nat
  /-- `JMP_INDIRECT_PAGE_WRAP` (R7, R112). -/
  jmpIndirectPageWrap : Bool
  /-- `RENDER_CYCLE` (R7, R263). -/
  renderCycle : Nat
  /-- `VUPDATE_CYCLE` (R7, R263). -/
  vupdateCycle : Nat
deriving DecidableEq, Repr

/-- The defaults and suggested values of the table of R7. -/
def Params.standard : Params where
  decimalEnabled := false
  spriteLimitEnabled := true
  overscanCrop := false
  resetSp := 0xFD#8
  interruptCycles := 7
  jmpIndirectPageWrap := true
  renderCycle := 254
  vupdateCycle := 256

/-- The four mirroring modes of R301. -/
inductive Mirroring where
  | horizontal
  | vertical
  | singleLower
  | singleUpper
deriving DecidableEq, Repr

/-- The cartridge, "consumed as already-validated fields" (R8). The flags of the last row of R8 are carried by the
header and have no effect on the core, but for the four-screen flag, which the load refuses (R305). -/
structure Cartridge where
  mapperId : Nat
  prgBanks : Nat
  chrBanks : Nat
  mirroring : Mirroring
  /-- `PRG[ ]`, 16384 × `prgBanks` bytes, by offset. -/
  prg : Mem
  /-- `CHR[ ]`, 8192 × `chrBanks` bytes, by offset. -/
  chr : Mem
  batteryRam : Bool
  trainer : Bool
  fourScreen : Bool
  pal : Bool
deriving DecidableEq, Repr

/-- A cartridge with nothing in it, in the configuration the vectors of spec 95 section 0 use: mapper 0, two PRG
banks, CHR RAM, horizontal mirroring. DESIGN CHOICE (log 2). -/
def Cartridge.blank : Cartridge where
  mapperId := 0
  prgBanks := 2
  chrBanks := 0
  mirroring := .horizontal
  prg := []
  chr := []
  batteryRam := false
  trainer := false
  fourScreen := false
  pal := false

/-- `PPU_CYCLES_PER_CPU_CYCLE` (R7, R333): "exactly 3 internal PPU cycles per CPU cycle". -/
def Config.ticksPerCycle : Nat := 3

/-- `CYCLES_PER_SCANLINE` (R7, R260). -/
def Config.cyclesPerScanline : Nat := 341

/-- `SCANLINES` (R7, R260). -/
def Config.scanlines : Nat := 262

/-- FREE VALUE (log 6): what the host's read function of controller `port` answers at the `draw`-th controller read of
the run, after the bytes `handed` were written to the strobe port (R71: "an oracle draw of 8 bits that no rule
constrains"). It has no body: nothing can be proved of its value. -/
opaque Config.controllerByte (port : Nat) (handed : List Byte) (draw : Nat) : Byte

end Sys2Proof
end

