-- ==== Sys2Proof/Syntax.lean ====
section
/-! DEFINITION. The instruction set as syntax: one constructor per row of the opcode table (spec 30 R118, R119), the
operand bytes as its arguments, and three readings of an instruction that the encoder and the statements use: its
mnemonic, its operand, its opcode byte. A constructor's name is the row's mnemonic followed by its addressing mode:
`Imm` immediate, `Zp` zero-page, `Zpx`/`Zpy` zero-page-indexed, `Abs` absolute, `Abx`/`Aby` absolute-indexed, `Ind`
indirect, `Izx` indexed-indirect (X), `Izy` indirect-indexed (Y), `Acc` accumulator; the implied and relative rows and
`JSR` carry no suffix. -/

namespace Sys2Proof

/-- The 56 mnemonics (R2, R118). -/
inductive Mnemonic where
  | lda | ldx | ldy | sta | stx | sty | tax | tay
  | txa | tya | tsx | txs | adc | sbc | cmp | cpx
  | cpy | inc | inx | iny | dec | dex | dey | and
  | ora | eor | bit | asl | lsr | rol | ror | jmp
  | jsr | rts | bcc | bcs | beq | bne | bmi | bpl
  | bvc | bvs | pha | pla | php | plp | clc | sec
  | cli | sei | cld | sed | clv | nop | brk | rti
deriving DecidableEq, Repr

/-- The addressing modes with their operand bytes (R100, R103 to R115). A two-byte operand is the 16-bit value
`lo | (hi << 8)` of R100. -/
inductive Operand where
  | imp
  | acc
  | imm (d : Byte)
  | zp (d : Byte)
  | zpx (d : Byte)
  | zpy (d : Byte)
  | abs (a : Word)
  | abx (a : Word)
  | aby (a : Word)
  | ind (a : Word)
  | izx (d : Byte)
  | izy (d : Byte)
  | rel (d : Byte)
deriving DecidableEq, Repr

/-- The instructions: the 151 rows of the opcode table. -/
inductive Instr where
  | ldaImm (d : Byte)
  | ldaZp (d : Byte)
  | ldaZpx (d : Byte)
  | ldaAbs (a : Word)
  | ldaAbx (a : Word)
  | ldaAby (a : Word)
  | ldaIzx (d : Byte)
  | ldaIzy (d : Byte)
  | ldxImm (d : Byte)
  | ldxZp (d : Byte)
  | ldxZpy (d : Byte)
  | ldxAbs (a : Word)
  | ldxAby (a : Word)
  | ldyImm (d : Byte)
  | ldyZp (d : Byte)
  | ldyZpx (d : Byte)
  | ldyAbs (a : Word)
  | ldyAbx (a : Word)
  | staZp (d : Byte)
  | staZpx (d : Byte)
  | staAbs (a : Word)
  | staAbx (a : Word)
  | staAby (a : Word)
  | staIzx (d : Byte)
  | staIzy (d : Byte)
  | stxZp (d : Byte)
  | stxZpy (d : Byte)
  | stxAbs (a : Word)
  | styZp (d : Byte)
  | styZpx (d : Byte)
  | styAbs (a : Word)
  | tax
  | tay
  | txa
  | tya
  | tsx
  | txs
  | adcImm (d : Byte)
  | adcZp (d : Byte)
  | adcZpx (d : Byte)
  | adcAbs (a : Word)
  | adcAbx (a : Word)
  | adcAby (a : Word)
  | adcIzx (d : Byte)
  | adcIzy (d : Byte)
  | sbcImm (d : Byte)
  | sbcZp (d : Byte)
  | sbcZpx (d : Byte)
  | sbcAbs (a : Word)
  | sbcAbx (a : Word)
  | sbcAby (a : Word)
  | sbcIzx (d : Byte)
  | sbcIzy (d : Byte)
  | cmpImm (d : Byte)
  | cmpZp (d : Byte)
  | cmpZpx (d : Byte)
  | cmpAbs (a : Word)
  | cmpAbx (a : Word)
  | cmpAby (a : Word)
  | cmpIzx (d : Byte)
  | cmpIzy (d : Byte)
  | cpxImm (d : Byte)
  | cpxZp (d : Byte)
  | cpxAbs (a : Word)
  | cpyImm (d : Byte)
  | cpyZp (d : Byte)
  | cpyAbs (a : Word)
  | incZp (d : Byte)
  | incZpx (d : Byte)
  | incAbs (a : Word)
  | incAbx (a : Word)
  | inx
  | iny
  | decZp (d : Byte)
  | decZpx (d : Byte)
  | decAbs (a : Word)
  | decAbx (a : Word)
  | dex
  | dey
  | andImm (d : Byte)
  | andZp (d : Byte)
  | andZpx (d : Byte)
  | andAbs (a : Word)
  | andAbx (a : Word)
  | andAby (a : Word)
  | andIzx (d : Byte)
  | andIzy (d : Byte)
  | oraImm (d : Byte)
  | oraZp (d : Byte)
  | oraZpx (d : Byte)
  | oraAbs (a : Word)
  | oraAbx (a : Word)
  | oraAby (a : Word)
  | oraIzx (d : Byte)
  | oraIzy (d : Byte)
  | eorImm (d : Byte)
  | eorZp (d : Byte)
  | eorZpx (d : Byte)
  | eorAbs (a : Word)
  | eorAbx (a : Word)
  | eorAby (a : Word)
  | eorIzx (d : Byte)
  | eorIzy (d : Byte)
  | bitZp (d : Byte)
  | bitAbs (a : Word)
  | aslAcc
  | aslZp (d : Byte)
  | aslZpx (d : Byte)
  | aslAbs (a : Word)
  | aslAbx (a : Word)
  | lsrAcc
  | lsrZp (d : Byte)
  | lsrZpx (d : Byte)
  | lsrAbs (a : Word)
  | lsrAbx (a : Word)
  | rolAcc
  | rolZp (d : Byte)
  | rolZpx (d : Byte)
  | rolAbs (a : Word)
  | rolAbx (a : Word)
  | rorAcc
  | rorZp (d : Byte)
  | rorZpx (d : Byte)
  | rorAbs (a : Word)
  | rorAbx (a : Word)
  | jmpAbs (a : Word)
  | jmpInd (a : Word)
  | jsr (a : Word)
  | rts
  | bcc (d : Byte)
  | bcs (d : Byte)
  | beq (d : Byte)
  | bne (d : Byte)
  | bmi (d : Byte)
  | bpl (d : Byte)
  | bvc (d : Byte)
  | bvs (d : Byte)
  | pha
  | pla
  | php
  | plp
  | clc
  | sec
  | cli
  | sei
  | cld
  | sed
  | clv
  | nop
  | brk
  | rti
deriving DecidableEq, Repr

/-- The mnemonic of an instruction (R118). -/
def Instr.mnemonic : Instr → Mnemonic
  | .ldaImm _ => .lda
  | .ldaZp _ => .lda
  | .ldaZpx _ => .lda
  | .ldaAbs _ => .lda
  | .ldaAbx _ => .lda
  | .ldaAby _ => .lda
  | .ldaIzx _ => .lda
  | .ldaIzy _ => .lda
  | .ldxImm _ => .ldx
  | .ldxZp _ => .ldx
  | .ldxZpy _ => .ldx
  | .ldxAbs _ => .ldx
  | .ldxAby _ => .ldx
  | .ldyImm _ => .ldy
  | .ldyZp _ => .ldy
  | .ldyZpx _ => .ldy
  | .ldyAbs _ => .ldy
  | .ldyAbx _ => .ldy
  | .staZp _ => .sta
  | .staZpx _ => .sta
  | .staAbs _ => .sta
  | .staAbx _ => .sta
  | .staAby _ => .sta
  | .staIzx _ => .sta
  | .staIzy _ => .sta
  | .stxZp _ => .stx
  | .stxZpy _ => .stx
  | .stxAbs _ => .stx
  | .styZp _ => .sty
  | .styZpx _ => .sty
  | .styAbs _ => .sty
  | .tax => .tax
  | .tay => .tay
  | .txa => .txa
  | .tya => .tya
  | .tsx => .tsx
  | .txs => .txs
  | .adcImm _ => .adc
  | .adcZp _ => .adc
  | .adcZpx _ => .adc
  | .adcAbs _ => .adc
  | .adcAbx _ => .adc
  | .adcAby _ => .adc
  | .adcIzx _ => .adc
  | .adcIzy _ => .adc
  | .sbcImm _ => .sbc
  | .sbcZp _ => .sbc
  | .sbcZpx _ => .sbc
  | .sbcAbs _ => .sbc
  | .sbcAbx _ => .sbc
  | .sbcAby _ => .sbc
  | .sbcIzx _ => .sbc
  | .sbcIzy _ => .sbc
  | .cmpImm _ => .cmp
  | .cmpZp _ => .cmp
  | .cmpZpx _ => .cmp
  | .cmpAbs _ => .cmp
  | .cmpAbx _ => .cmp
  | .cmpAby _ => .cmp
  | .cmpIzx _ => .cmp
  | .cmpIzy _ => .cmp
  | .cpxImm _ => .cpx
  | .cpxZp _ => .cpx
  | .cpxAbs _ => .cpx
  | .cpyImm _ => .cpy
  | .cpyZp _ => .cpy
  | .cpyAbs _ => .cpy
  | .incZp _ => .inc
  | .incZpx _ => .inc
  | .incAbs _ => .inc
  | .incAbx _ => .inc
  | .inx => .inx
  | .iny => .iny
  | .decZp _ => .dec
  | .decZpx _ => .dec
  | .decAbs _ => .dec
  | .decAbx _ => .dec
  | .dex => .dex
  | .dey => .dey
  | .andImm _ => .and
  | .andZp _ => .and
  | .andZpx _ => .and
  | .andAbs _ => .and
  | .andAbx _ => .and
  | .andAby _ => .and
  | .andIzx _ => .and
  | .andIzy _ => .and
  | .oraImm _ => .ora
  | .oraZp _ => .ora
  | .oraZpx _ => .ora
  | .oraAbs _ => .ora
  | .oraAbx _ => .ora
  | .oraAby _ => .ora
  | .oraIzx _ => .ora
  | .oraIzy _ => .ora
  | .eorImm _ => .eor
  | .eorZp _ => .eor
  | .eorZpx _ => .eor
  | .eorAbs _ => .eor
  | .eorAbx _ => .eor
  | .eorAby _ => .eor
  | .eorIzx _ => .eor
  | .eorIzy _ => .eor
  | .bitZp _ => .bit
  | .bitAbs _ => .bit
  | .aslAcc => .asl
  | .aslZp _ => .asl
  | .aslZpx _ => .asl
  | .aslAbs _ => .asl
  | .aslAbx _ => .asl
  | .lsrAcc => .lsr
  | .lsrZp _ => .lsr
  | .lsrZpx _ => .lsr
  | .lsrAbs _ => .lsr
  | .lsrAbx _ => .lsr
  | .rolAcc => .rol
  | .rolZp _ => .rol
  | .rolZpx _ => .rol
  | .rolAbs _ => .rol
  | .rolAbx _ => .rol
  | .rorAcc => .ror
  | .rorZp _ => .ror
  | .rorZpx _ => .ror
  | .rorAbs _ => .ror
  | .rorAbx _ => .ror
  | .jmpAbs _ => .jmp
  | .jmpInd _ => .jmp
  | .jsr _ => .jsr
  | .rts => .rts
  | .bcc _ => .bcc
  | .bcs _ => .bcs
  | .beq _ => .beq
  | .bne _ => .bne
  | .bmi _ => .bmi
  | .bpl _ => .bpl
  | .bvc _ => .bvc
  | .bvs _ => .bvs
  | .pha => .pha
  | .pla => .pla
  | .php => .php
  | .plp => .plp
  | .clc => .clc
  | .sec => .sec
  | .cli => .cli
  | .sei => .sei
  | .cld => .cld
  | .sed => .sed
  | .clv => .clv
  | .nop => .nop
  | .brk => .brk
  | .rti => .rti

/-- The operand of an instruction: its addressing mode and operand bytes (R118). -/
def Instr.operand : Instr → Operand
  | .ldaImm d => .imm d
  | .ldaZp d => .zp d
  | .ldaZpx d => .zpx d
  | .ldaAbs a => .abs a
  | .ldaAbx a => .abx a
  | .ldaAby a => .aby a
  | .ldaIzx d => .izx d
  | .ldaIzy d => .izy d
  | .ldxImm d => .imm d
  | .ldxZp d => .zp d
  | .ldxZpy d => .zpy d
  | .ldxAbs a => .abs a
  | .ldxAby a => .aby a
  | .ldyImm d => .imm d
  | .ldyZp d => .zp d
  | .ldyZpx d => .zpx d
  | .ldyAbs a => .abs a
  | .ldyAbx a => .abx a
  | .staZp d => .zp d
  | .staZpx d => .zpx d
  | .staAbs a => .abs a
  | .staAbx a => .abx a
  | .staAby a => .aby a
  | .staIzx d => .izx d
  | .staIzy d => .izy d
  | .stxZp d => .zp d
  | .stxZpy d => .zpy d
  | .stxAbs a => .abs a
  | .styZp d => .zp d
  | .styZpx d => .zpx d
  | .styAbs a => .abs a
  | .tax => .imp
  | .tay => .imp
  | .txa => .imp
  | .tya => .imp
  | .tsx => .imp
  | .txs => .imp
  | .adcImm d => .imm d
  | .adcZp d => .zp d
  | .adcZpx d => .zpx d
  | .adcAbs a => .abs a
  | .adcAbx a => .abx a
  | .adcAby a => .aby a
  | .adcIzx d => .izx d
  | .adcIzy d => .izy d
  | .sbcImm d => .imm d
  | .sbcZp d => .zp d
  | .sbcZpx d => .zpx d
  | .sbcAbs a => .abs a
  | .sbcAbx a => .abx a
  | .sbcAby a => .aby a
  | .sbcIzx d => .izx d
  | .sbcIzy d => .izy d
  | .cmpImm d => .imm d
  | .cmpZp d => .zp d
  | .cmpZpx d => .zpx d
  | .cmpAbs a => .abs a
  | .cmpAbx a => .abx a
  | .cmpAby a => .aby a
  | .cmpIzx d => .izx d
  | .cmpIzy d => .izy d
  | .cpxImm d => .imm d
  | .cpxZp d => .zp d
  | .cpxAbs a => .abs a
  | .cpyImm d => .imm d
  | .cpyZp d => .zp d
  | .cpyAbs a => .abs a
  | .incZp d => .zp d
  | .incZpx d => .zpx d
  | .incAbs a => .abs a
  | .incAbx a => .abx a
  | .inx => .imp
  | .iny => .imp
  | .decZp d => .zp d
  | .decZpx d => .zpx d
  | .decAbs a => .abs a
  | .decAbx a => .abx a
  | .dex => .imp
  | .dey => .imp
  | .andImm d => .imm d
  | .andZp d => .zp d
  | .andZpx d => .zpx d
  | .andAbs a => .abs a
  | .andAbx a => .abx a
  | .andAby a => .aby a
  | .andIzx d => .izx d
  | .andIzy d => .izy d
  | .oraImm d => .imm d
  | .oraZp d => .zp d
  | .oraZpx d => .zpx d
  | .oraAbs a => .abs a
  | .oraAbx a => .abx a
  | .oraAby a => .aby a
  | .oraIzx d => .izx d
  | .oraIzy d => .izy d
  | .eorImm d => .imm d
  | .eorZp d => .zp d
  | .eorZpx d => .zpx d
  | .eorAbs a => .abs a
  | .eorAbx a => .abx a
  | .eorAby a => .aby a
  | .eorIzx d => .izx d
  | .eorIzy d => .izy d
  | .bitZp d => .zp d
  | .bitAbs a => .abs a
  | .aslAcc => .acc
  | .aslZp d => .zp d
  | .aslZpx d => .zpx d
  | .aslAbs a => .abs a
  | .aslAbx a => .abx a
  | .lsrAcc => .acc
  | .lsrZp d => .zp d
  | .lsrZpx d => .zpx d
  | .lsrAbs a => .abs a
  | .lsrAbx a => .abx a
  | .rolAcc => .acc
  | .rolZp d => .zp d
  | .rolZpx d => .zpx d
  | .rolAbs a => .abs a
  | .rolAbx a => .abx a
  | .rorAcc => .acc
  | .rorZp d => .zp d
  | .rorZpx d => .zpx d
  | .rorAbs a => .abs a
  | .rorAbx a => .abx a
  | .jmpAbs a => .abs a
  | .jmpInd a => .ind a
  | .jsr a => .abs a
  | .rts => .imp
  | .bcc d => .rel d
  | .bcs d => .rel d
  | .beq d => .rel d
  | .bne d => .rel d
  | .bmi d => .rel d
  | .bpl d => .rel d
  | .bvc d => .rel d
  | .bvs d => .rel d
  | .pha => .imp
  | .pla => .imp
  | .php => .imp
  | .plp => .imp
  | .clc => .imp
  | .sec => .imp
  | .cli => .imp
  | .sei => .imp
  | .cld => .imp
  | .sed => .imp
  | .clv => .imp
  | .nop => .imp
  | .brk => .imp
  | .rti => .imp

end Sys2Proof
end

