-- ==== Sys2Proof/Machine/State.lean ====
section
/-! DEFINITION. The state of the whole machine (spec 10 R20: "the complete state of the machine"), the reasons a step
can stop, and the state after reset. The state is plain data. The last three fields of `State` are the model's own. -/

namespace Sys2Proof.Machine

/-- The CPU registers (R21, R22, R25, R29). -/
structure Cpu where
  a : Byte
  x : Byte
  y : Byte
  sp : Byte
  pc : Word
  /-- The status register `P`: C Z I D B U V N from bit 0 up (R25). -/
  p : Byte
deriving DecidableEq, Repr

/-- The eight flags of `P` (R25). -/
inductive Flag where
  | c | z | i | d | b | u | v | n
deriving DecidableEq, Repr

/-- An entry of the composition buffer (R36): colour, opacity, and the OAM index of the sprite that owns the pixel;
`none` is the spec's owner -1, background or nobody. -/
structure Pixel where
  color : BitVec 6
  opacity : BitVec 2
  owner : Option (Fin 64)
deriving DecidableEq, Repr

/-- The cleared entry `(0, 0, -1)` (R36). -/
def Pixel.clear : Pixel := ⟨0, 0, none⟩

/-- The registers, memories and position of the PPU (R30 to R39, R41, R42). -/
structure Ppu where
  ctrl : Byte
  mask : Byte
  status : Byte
  v : VAddr
  t : VAddr
  fineX : BitVec 3
  /-- The write toggle: `false` is 0, the next scroll or address write is a first write (R32). -/
  w : Bool
  oamAddr : Byte
  /-- 256 bytes, an unlisted one reads 0. -/
  oam : Mem
  /-- 32 bytes, an unlisted one reads 0. -/
  palette : Mem
  readBuffer : Byte
  scanline : Int
  cycle : Nat
  frame : Nat
  suppressVbl : Bool
  /-- 61440 entries, entry `y * 256 + x`; an unlisted one is cleared. -/
  comp : Sparse Pixel
  /-- 61440 (cropped: 53760) colours; an unlisted one is 0. -/
  out : Sparse (BitVec 6)
deriving DecidableEq, Repr

/-- The InterruptLine: "a single pending-interrupt slot (none / IRQ / NMI / RESET)" (R40). -/
inductive Line where
  | none | irq | nmi | reset
deriving DecidableEq, Repr

/-- The fault records (R46, R350). -/
inductive Fault where
  /-- R351: raised by `step` when the opcode byte fetched at `pc` has no entry in the table. Latched in `State.fault`;
  every later step answers it. Safe: the spec stops the machine there. -/
  | unsupportedOpcode (pc : Word) (op : Byte)
  /-- R352, R311: raised by `powerOn` for a cartridge outside the covered configurations; there is then no machine,
  and no step raises it. Safe: the spec constructs no machine there. -/
  | unsupportedMapper (id : Nat)
deriving DecidableEq, Repr

/-- Why the model would have no meaning for an instruction. No arm and no meaning answers one: every instruction of the
table has its meaning. -/
inductive Refusal where
  /-- An instruction of the table that has no meaning yet; raised by an arm of `exec` only. Safe: nothing is claimed. -/
  | notModelled (mnemonic : String)
deriving DecidableEq, Repr

/-- The complete state of the machine (R20). -/
structure State where
  cpu : Cpu
  ppu : Ppu
  /-- `ntPage[0]`, 1024 bytes (R44, R300). -/
  nt0 : Mem
  /-- `ntPage[1]`, 1024 bytes (R44, R300). -/
  nt1 : Mem
  mirroring : Mirroring
  /-- CPU RAM, 2048 bytes (R65). -/
  ram : Mem
  /-- Cartridge RAM, 8192 bytes (R68). -/
  prgRam : Mem
  /-- Pattern memory, 8192 bytes (R314). -/
  chr : Mem
  /-- `PRG[ ]` and the configuration: immutable (R20, R318). -/
  cart : Cartridge
  /-- The implementation parameters: fixed at power-on (R7). -/
  params : Params
  line : Line
  stall : Nat
  cpuCycles : Nat
  fault : Option Fault
  /-- The model's own: the cycle count the instruction returned (R116), until transition (2) spends it; 0 between
  steps (log 7). -/
  cost : Nat
  /-- The model's own: the number of controller reads made, the counter of the free value (log 6). -/
  draws : Nat
  /-- The model's own: the bytes handed to the host through the strobe port, newest first (log 6). -/
  handed : List Byte
deriving DecidableEq, Repr

/-- What addressing produces (spec 30 section 2): the effective address, the `crossed` Boolean, and the state after the
bus reads of pointer bytes. -/
structure Resolved where
  addr : Word
  crossed : Bool
  after : State
deriving DecidableEq, Repr

/-- The PPU after construction (R47, R380); the contents of `oam` and `palette` are unspecified by the spec and empty
here (DESIGN CHOICE, log 3). -/
def Ppu.reset : Ppu where
  ctrl := 0
  mask := 0
  status := 0
  v := 0
  t := 0
  fineX := 0
  w := false
  oamAddr := 0
  oam := []
  palette := []
  readBuffer := 0
  scanline := 241
  cycle := 0
  frame := 0
  suppressVbl := false
  comp := []
  out := []

/-- The machine right after power-on and reset (R47, R380, R381), built from the blank cartridge (DESIGN CHOICE, log 2)
with the standard parameters (log 5) and unspecified memories that list nothing (DESIGN CHOICE, log 3). `PC` is
`Read16(0xFFFC)`, which the blank cartridge reads as 0. -/
def State.reset : State where
  cpu := { a := 0, x := 0, y := 0, sp := 0xFD, pc := 0, p := 0x22 }
  ppu := Ppu.reset
  nt0 := []
  nt1 := []
  mirroring := .horizontal
  ram := []
  prgRam := []
  chr := []
  cart := Cartridge.blank
  params := Params.standard
  line := .none
  stall := 0
  cpuCycles := 0
  fault := none
  cost := 0
  draws := 0
  handed := []

end Sys2Proof.Machine
end

