-- ==== Sys2Proof/Machine/Flags.lean ====
section
/-! DEFINITION. The flags of `P` and every flag computation of the spec, as functions of bytes: an operation takes the
operands and the old `P` and gives the result and the new `P` (spec 10 R25 to R28, spec 41 R161 to R163, spec 42). -/

namespace Sys2Proof.Machine

/-- The bit number of a flag (R25). -/
def Flag.bit : Flag → Nat
  | .c => 0
  | .z => 1
  | .i => 2
  | .d => 3
  | .b => 4
  | .u => 5
  | .v => 6
  | .n => 7

/-- A flag of `P` (R25). -/
def getFlag (f : Flag) (p : Byte) : Bool := p.getLsbD f.bit

/-- `P` with one flag written (R25). -/
def putFlag (f : Flag) (b : Bool) (p : Byte) : Byte := putBit f.bit b p

/-- `SetZN(v)` (R27): `P.Z <- bool(v == 0); P.N <- v[7]`; no other flag changes. -/
def setZN (v p : Byte) : Byte := putFlag .n (v.getLsbD 7) (putFlag .z (v == 0) p)

/-- `P | 0x20`: the Unused bit is 1 after any write of the whole of `P` (R26). -/
def withUnused (v : Byte) : Byte := v ||| 0x20

/-- The status byte `PHP` and `BRK` push: Break and Unused set (R28, R212, R222). -/
def pushedBySoftware (p : Byte) : Byte := p ||| 0x30

/-- The status byte NMI and IRQ entry push: Unused set, Break clear (R359, R360). -/
def pushedByHardware (p : Byte) : Byte := (p ||| 0x20) &&& 0xEF

/-- `AddWithCarry` in binary mode (R150): the result and the new `P`. -/
def adcBinary (a m p : Byte) : Byte × Byte :=
  let sum := a.toNat + m.toNat + bitNat (getFlag .c p)
  let r := BitVec.ofNat 8 sum
  (r, setZN r (putFlag .v (((a ^^^ r) &&& (m ^^^ r) &&& 0x80) != 0) (putFlag .c (decide (0xFF < sum)) p)))

/-- `SBC` in binary mode (R151): `AddWithCarry(m ^ 0xFF)`. -/
def sbcBinary (a m p : Byte) : Byte × Byte := adcBinary a (m ^^^ 0xFF) p

/-- `ADC` in decimal mode (R163). -/
def adcDecimal (a m p : Byte) : Byte × Byte :=
  let c := bitNat (getFlag .c p)
  let al := a.toNat % 16 + m.toNat % 16 + c
  let al := if 0x0A ≤ al then (al + 0x06) % 16 + 0x10 else al
  let s := a.toNat / 16 * 16 + m.toNat / 16 * 16 + al
  let sb := BitVec.ofNat 8 s
  let p := putFlag .z (decide ((a.toNat + m.toNat + c) % 256 = 0)) p
  let p := putFlag .n (sb.getLsbD 7) p
  let p := putFlag .v (((a ^^^ sb) &&& (m ^^^ sb) &&& 0x80) != 0) p
  let s := if 0xA0 ≤ s then s + 0x60 else s
  (BitVec.ofNat 8 s, putFlag .c (decide (0x100 ≤ s)) p)

/-- `SBC` in decimal mode (R163): flags as in binary mode, the result by nibbles; `&` on a negative integer is read in
two's complement (log 13), and `P.C` in `al` is the incoming Carry (DEDUCED, log 20). -/
def sbcDecimal (a m p : Byte) : Byte × Byte :=
  let al : Int := ((a.toNat % 16 : Nat) : Int) - ((m.toNat % 16 : Nat) : Int) + ((bitNat (getFlag .c p) : Nat) : Int) - 1
  let al := if al < 0 then (al - 6) % 16 - 16 else al
  let s : Int := ((a.toNat / 16 * 16 : Nat) : Int) - ((m.toNat / 16 * 16 : Nat) : Int) + al
  let s := if s < 0 then s - 0x60 else s
  (BitVec.ofInt 8 s, (sbcBinary a m p).2)

/-- `ADC` (R150, R163): decimal only when `DECIMAL_ENABLED` and `P.D = 1`. -/
def adc (decimalEnabled : Bool) (a m p : Byte) : Byte × Byte :=
  if decimalEnabled && getFlag .d p then adcDecimal a m p else adcBinary a m p

/-- `SBC` (R151, R163). -/
def sbc (decimalEnabled : Bool) (a m p : Byte) : Byte × Byte :=
  if decimalEnabled && getFlag .d p then sbcDecimal a m p else sbcBinary a m p

/-- `Compare(r, m)` (R162): Carry is `r >= m`, Z and N from the difference. -/
def compareFlags (r m p : Byte) : Byte := setZN (r - m) (putFlag .c (decide (m.toNat ≤ r.toNat)) p)

/-- The flags of `BIT` (R173): Z from the and, N and V from the memory operand. -/
def bitTest (a m p : Byte) : Byte :=
  putFlag .v (m.getLsbD 6) (putFlag .n (m.getLsbD 7) (putFlag .z ((a &&& m) == 0) p))

/-- `(v + 1) & 0xFF; SetZN` (R155). -/
def inc (v p : Byte) : Byte × Byte := (v + 1, setZN (v + 1) p)

/-- `(v - 1) & 0xFF; SetZN` (R158). -/
def dec (v p : Byte) : Byte × Byte := (v - 1, setZN (v - 1) p)

/-- `ASL` (R174). -/
def asl (v p : Byte) : Byte × Byte := (v <<< 1, setZN (v <<< 1) (putFlag .c (v.getLsbD 7) p))

/-- `LSR` (R175). -/
def lsr (v p : Byte) : Byte × Byte := (v >>> 1, setZN (v >>> 1) (putFlag .c (v.getLsbD 0) p))

/-- `ROL` (R176): the old Carry enters bit 0. -/
def rol (v p : Byte) : Byte × Byte :=
  let r := putBit 0 (getFlag .c p) (v <<< 1)
  (r, setZN r (putFlag .c (v.getLsbD 7) p))

/-- `ROR` (R177): the old Carry enters bit 7. -/
def ror (v p : Byte) : Byte × Byte :=
  let r := putBit 7 (getFlag .c p) (v >>> 1)
  (r, setZN r (putFlag .c (v.getLsbD 0) p))

end Sys2Proof.Machine
end

