-- ==== Sys2Proof/Machine/Memory.lean ====
section
/-! DEFINITION. The sparse tables in which memories are held: entries by strictly rising key, none of them equal to the
default `d` that an unlisted key stands for. Equal contents are equal lists. -/

namespace Sys2Proof.Machine

/-- The entry at `n`; an unlisted key reads as the default. -/
def Memory.get {α : Type} (d : α) : Sparse α → Nat → α
  | [], _ => d
  | (k, v) :: m, n => if k = n then v else Memory.get d m n

/-- The table without the key `n`. -/
def Memory.erase {α : Type} : Sparse α → Nat → Sparse α
  | [], _ => []
  | (k, v) :: m, n => if k = n then Memory.erase m n else (k, v) :: Memory.erase m n

/-- The table with `v` at `n`, before the first greater key. -/
def Memory.insert {α : Type} : Sparse α → Nat → α → Sparse α
  | [], n, v => [(n, v)]
  | (k, w) :: m, n, v => if n < k then (n, v) :: (k, w) :: m else (k, w) :: Memory.insert m n v

/-- Write `v` at `n`; writing the default unlists the key. -/
def Memory.set {α : Type} [DecidableEq α] (d : α) (m : Sparse α) (n : Nat) (v : α) : Sparse α :=
  if v = d then Memory.erase m n else Memory.insert (Memory.erase m n) n v

/-- The listed entries of `f 0, …, f (len - 1)` at the keys `lo, …, lo + len - 1`. -/
def Memory.cells {α : Type} [DecidableEq α] (d : α) (lo len : Nat) (f : Nat → α) : Sparse α :=
  (List.range len).filterMap (fun x => if f x = d then none else some (lo + x, f x))

/-- Replace the entries of the keys `lo, …, lo + len - 1` by `f 0, …, f (len - 1)`. -/
def Memory.splice {α : Type} [DecidableEq α] (d : α) (m : Sparse α) (lo len : Nat) (f : Nat → α) : Sparse α :=
  m.filter (fun c => c.1 < lo) ++ Memory.cells d lo len f ++ m.filter (fun c => lo + len ≤ c.1)

/-- The canonical form: keys strictly rising and below `bound`, no entry equal to the default. -/
abbrev Memory.wf {α : Type} (d : α) (bound : Nat) (m : Sparse α) : Prop :=
  m.Pairwise (fun a b => a.1 < b.1) ∧ ∀ c ∈ m, c.1 < bound ∧ c.2 ≠ d

end Sys2Proof.Machine
end

