-- ==== Sys2Proof/Machine/Mapper.lean ====
section
/-! DEFINITION. The cartridge's bank mapper, pass-through strategy (spec 48 R312, R313, R316). -/

namespace Sys2Proof.Machine

/-- The PRG offset of a CPU address in 0x8000..0xFFFF (R312): `(a - 0x8000) mod (16384 × PRG_BANKS)`. -/
def prgOffset (banks : Nat) (a : Word) : Nat := (a.toNat - 0x8000) % (0x4000 * banks)

/-- `MapperReadByte(a)` (R312). -/
def mapperReadByte (a : Word) (s : State) : Byte := Memory.get 0 s.cart.prg (prgOffset s.cart.prgBanks a)

/-- `MapperWriteByte(a, d)` (R313): nothing. -/
def mapperWriteByte (_a : Word) (_d : Byte) (s : State) : State := s

/-- `loadChr` (R316): the CHR bank is copied into the pattern memory. -/
def loadChr (s : State) : State := if s.cart.chrBanks = 1 then { s with chr := s.cart.chr } else s

end Sys2Proof.Machine
end

