-- ==== Sys2Proof/Machine/Nametable.lean ====
section
/-! DEFINITION. The nametable mirroring unit (spec 47 R300 to R303). -/

namespace Sys2Proof.Machine

/-- `NtPage(mode, slot)` (R301): the physical page of a logical slot 0..3; `true` is page 1. -/
def ntPage : Mirroring → Nat → Bool
  | .horizontal, slot => decide (2 ≤ slot)
  | .vertical, slot => decide (slot % 2 = 1)
  | .singleLower, _ => false
  | .singleUpper, _ => true

/-- `NtRead(o)` for `o` in 0x000..0xFFF (R302). -/
def ntRead (o : Nat) (s : State) : Byte :=
  Memory.get 0 (if ntPage s.mirroring (o / 0x400) then s.nt1 else s.nt0) (o % 0x400)

/-- `NtWrite(o, d)` (R302). -/
def ntWrite (o : Nat) (d : Byte) (s : State) : State :=
  if ntPage s.mirroring (o / 0x400) then { s with nt1 := Memory.set 0 s.nt1 (o % 0x400) d }
  else { s with nt0 := Memory.set 0 s.nt0 (o % 0x400) d }

/-- `SetMirroring(mode)` (R303): only the mapping changes, no byte is copied. No step calls it (R320). -/
def setMirroring (mode : Mirroring) (s : State) : State := { s with mirroring := mode }

end Sys2Proof.Machine
end

