-- ==== Sys2Proof/Machine/PpuBus.lean ====
section
/-! DEFINITION. The PPU bus (spec 20 R78 to R81). -/

namespace Sys2Proof.Machine

/-- `PalIndex(a)` (R79): the 32 entries repeat, and 0x10, 0x14, 0x18, 0x1C are 0x00, 0x04, 0x08, 0x0C. -/
def palIndex (a : PAddr) : Nat :=
  let i := a.toNat % 0x20
  if 0x10 ≤ i ∧ i % 4 = 0 then i % 0x10 else i

/-- `PpuMemRead(a)` (R80). No PPU-space read has a side effect. -/
def ppuMemRead (a : PAddr) (s : State) : Byte :=
  if a.toNat < 0x2000 then Memory.get 0 s.chr a.toNat
  else if a.toNat < 0x3F00 then ntRead ((a.toNat - 0x2000) % 0x1000) s
  else Memory.get 0 s.ppu.palette (palIndex a)

/-- `PpuMemWrite(a, v)` (R81): pattern memory is written only when `CHR_BANKS == 0`. -/
def ppuMemWrite (a : PAddr) (d : Byte) (s : State) : State :=
  if a.toNat < 0x2000 then
    if s.cart.chrBanks = 0 then { s with chr := Memory.set 0 s.chr a.toNat d } else s
  else if a.toNat < 0x3F00 then ntWrite ((a.toNat - 0x2000) % 0x1000) d s
  else { s with ppu := { s.ppu with palette := Memory.set 0 s.ppu.palette (palIndex a) d } }

end Sys2Proof.Machine
end

