-- ==== Sys2Proof/Machine/PpuPorts.lean ====
section
/-! DEFINITION. The eight PPU register ports (spec 45 R230 to R244). A port read gives the byte and the state after its
side effects. -/

namespace Sys2Proof.Machine

/-- `ctrl.increment` (R30): bit 2. -/
def Ppu.increment (r : Ppu) : Bool := r.ctrl.getLsbD 2

/-- `ctrl.spriteTable` (R30): bit 3. -/
def Ppu.spriteTable (r : Ppu) : Bool := r.ctrl.getLsbD 3

/-- `ctrl.bgTable` (R30): bit 4. -/
def Ppu.bgTable (r : Ppu) : Bool := r.ctrl.getLsbD 4

/-- `ctrl.spriteSize` (R30): bit 5. -/
def Ppu.spriteSize (r : Ppu) : Bool := r.ctrl.getLsbD 5

/-- `ctrl.nmiEnable` (R30): bit 7. -/
def Ppu.nmiEnable (r : Ppu) : Bool := r.ctrl.getLsbD 7

/-- `mask.showBgLeft` (R33): bit 1. -/
def Ppu.showBgLeft (r : Ppu) : Bool := r.mask.getLsbD 1

/-- `mask.showSpritesLeft` (R33): bit 2. -/
def Ppu.showSpritesLeft (r : Ppu) : Bool := r.mask.getLsbD 2

/-- `mask.showBg` (R33): bit 3. -/
def Ppu.showBg (r : Ppu) : Bool := r.mask.getLsbD 3

/-- `mask.showSprites` (R33): bit 4. -/
def Ppu.showSprites (r : Ppu) : Bool := r.mask.getLsbD 4

/-- "Rendering enabled" (R33). -/
def Ppu.rendering (r : Ppu) : Bool := r.showBg || r.showSprites

/-- `status.vblank` (R34): bit 7. -/
def Ppu.vblank (r : Ppu) : Bool := r.status.getLsbD 7

/-- `status.sprite0Hit` (R34): bit 6. -/
def Ppu.sprite0Hit (r : Ppu) : Bool := r.status.getLsbD 6

/-- `status.spriteOverflow` (R34): bit 5. -/
def Ppu.spriteOverflow (r : Ppu) : Bool := r.status.getLsbD 5

/-- Control port write (R231): `ctrl <- d`, and bits 1:0 into `t[11:10]`. -/
def Ppu.writeControl (d : Byte) (r : Ppu) : Ppu :=
  { r with ctrl := d, t := (r.t &&& 0x73FF#15) ||| ((d.extractLsb' 0 2).setWidth 15 <<< 10) }

/-- Mask port write (R232). -/
def Ppu.writeMask (d : Byte) (r : Ppu) : Ppu := { r with mask := d }

/-- Status port read (R233): the byte read. -/
def Ppu.statusByte (r : Ppu) : Byte := r.status &&& 0xE0

/-- Status port read (R233): clears `vblank` and `w`, and remembers whether the tick about to execute is (240,1). -/
def Ppu.afterStatusRead (r : Ppu) : Ppu :=
  { r with
    status := putBit 7 false r.status
    w := false
    suppressVbl := decide (r.scanline = 240 ∧ r.cycle = 1) }

/-- OAM address port write (R234). -/
def Ppu.writeOamAddr (d : Byte) (r : Ppu) : Ppu := { r with oamAddr := d }

/-- OAM data port write (R235): store and advance; also one byte of the DMA copy (R337). -/
def Ppu.writeOamData (d : Byte) (r : Ppu) : Ppu :=
  { r with oam := Memory.set 0 r.oam r.oamAddr.toNat d, oamAddr := r.oamAddr + 1 }

/-- OAM data port read (R236): `oamAddr` does not change. -/
def Ppu.oamByte (r : Ppu) : Byte := Memory.get 0 r.oam r.oamAddr.toNat

/-- Scroll port write (R237, R244): first write coarse X and fine X, second write fine Y and coarse Y. -/
def Ppu.writeScroll (d : Byte) (r : Ppu) : Ppu :=
  if r.w then
    { r with
      t := (r.t &&& 0x0C1F#15) ||| ((d.extractLsb' 0 3).setWidth 15 <<< 12) ||| ((d.extractLsb' 3 5).setWidth 15 <<< 5)
      w := false }
  else
    { r with
      t := (r.t &&& 0x7FE0#15) ||| (d.extractLsb' 3 5).setWidth 15
      fineX := d.extractLsb' 0 3
      w := true }

/-- Address port write (R238, R244): first write the high six bits with `t[14] <- 0`, second write the low byte and
`v <- t`. -/
def Ppu.writeAddress (d : Byte) (r : Ppu) : Ppu :=
  if r.w then
    let t := (r.t &&& 0x7F00#15) ||| d.setWidth 15
    { r with t := t, v := t, w := false }
  else
    { r with t := (r.t &&& 0x00FF#15) ||| ((d.extractLsb' 0 6).setWidth 15 <<< 8), w := true }

/-- `VramIncrement()` (R241). -/
def Ppu.vramIncrement (r : Ppu) : Ppu := { r with v := r.v + (if r.increment then 32 else 1) }

/-- The bus address of the data port: `v & 0x3FFF` (R239, R240). -/
def Ppu.dataAddress (r : Ppu) : PAddr := r.v.setWidth 14

/-- Data port read (R239): the previous buffered byte, or the palette byte at once. -/
def readData (s : State) : Byte × State :=
  let a := s.ppu.dataAddress
  if a.toNat < 0x3F00 then
    (s.ppu.readBuffer, { s with ppu := { s.ppu with readBuffer := ppuMemRead a s }.vramIncrement })
  else
    (ppuMemRead a s, { s with ppu := { s.ppu with readBuffer := ppuMemRead (a - 0x1000) s }.vramIncrement })

/-- Data port write (R240). -/
def writeData (d : Byte) (s : State) : State :=
  let s := ppuMemWrite s.ppu.dataAddress d s
  { s with ppu := s.ppu.vramIncrement }

/-- `PpuPortRead(p)` (R230, R242). -/
def ppuPortRead (p : Nat) (s : State) : Byte × State :=
  if p = 2 then (s.ppu.statusByte, { s with ppu := s.ppu.afterStatusRead })
  else if p = 4 then (s.ppu.oamByte, s)
  else if p = 7 then readData s
  else (0, s)

/-- `PpuPortWrite(p, d)` (R230, R242). -/
def ppuPortWrite (p : Nat) (d : Byte) (s : State) : State :=
  if p = 0 then { s with ppu := s.ppu.writeControl d }
  else if p = 1 then { s with ppu := s.ppu.writeMask d }
  else if p = 3 then { s with ppu := s.ppu.writeOamAddr d }
  else if p = 4 then { s with ppu := s.ppu.writeOamData d }
  else if p = 5 then { s with ppu := s.ppu.writeScroll d }
  else if p = 6 then { s with ppu := s.ppu.writeAddress d }
  else if p = 7 then writeData d s
  else s

end Sys2Proof.Machine
end

