-- ==== Sys2Proof/Machine/Ops.lean ====
section
/-! DEFINITION. The named operations over registers, the CPU bus and the stack; requesting and taking an interrupt,
returning from one, and the CPU reset (spec 10 R21 to R28, spec 20 R61 to R75, spec 49 R336 to R338, spec 60 R356,
R359, spec 70 R381). -/

namespace Sys2Proof.Machine

/-! ### Registers -/

/-- `A <- v` (R21). -/
def State.setA (v : Byte) (s : State) : State := { s with cpu := { s.cpu with a := v } }

/-- `X <- v` (R21). -/
def State.setX (v : Byte) (s : State) : State := { s with cpu := { s.cpu with x := v } }

/-- `Y <- v` (R21). -/
def State.setY (v : Byte) (s : State) : State := { s with cpu := { s.cpu with y := v } }

/-- `SP <- v` (R22). -/
def State.setSP (v : Byte) (s : State) : State := { s with cpu := { s.cpu with sp := v } }

/-- `PC <- v` (R29). -/
def State.setPC (v : Word) (s : State) : State := { s with cpu := { s.cpu with pc := v } }

/-- `P <- v`, all eight bits as given (R25). -/
def State.setP (v : Byte) (s : State) : State := { s with cpu := { s.cpu with p := v } }

/-- A flag of the machine's `P` (R25). -/
def State.flag (f : Flag) (s : State) : Bool := getFlag f s.cpu.p

/-- Write one flag (R25). -/
def State.setFlag (f : Flag) (b : Bool) (s : State) : State := s.setP (putFlag f b s.cpu.p)

/-- `SetZN(v)` on the machine's `P` (R27). -/
def State.setZN (v : Byte) (s : State) : State := s.setP (Machine.setZN v s.cpu.p)

/-- The cycle count the instruction returns (R116, R117; log 7). -/
def State.charge (n : Nat) (s : State) : State := { s with cost := n }

/-! ### The CPU bus -/

/-- `ControllerRead(k)` (R71): an oracle draw; the only state that changes is the model's own draw counter (log 6). -/
def controllerRead (port : Nat) (s : State) : Byte × State :=
  (Config.controllerByte port s.handed s.draws, { s with draws := s.draws + 1 })

/-- `ControllerWrite(v)` (R71): the byte is handed to the host; no core state changes (log 6). -/
def controllerWrite (v : Byte) (s : State) : State := { s with handed := v :: s.handed }

/-- `MemRead(a, 1)` (R61): the byte and the state after the side effects of the region (R64). -/
def memRead (a : Word) (s : State) : Byte × State :=
  if a.toNat < 0x2000 then (Memory.get 0 s.ram (a.toNat % 0x800), s)
  else if a.toNat < 0x4000 then ppuPortRead (a.toNat % 8) s
  else if a.toNat = 0x4016 then controllerRead 0 s
  else if a.toNat = 0x4017 then controllerRead 1 s
  else if a.toNat < 0x6000 then (0, s)
  else if a.toNat < 0x8000 then (Memory.get 0 s.prgRam (a.toNat - 0x6000), s)
  else (mapperReadByte a s, s)

/-- One byte of the DMA copy (R337): read byte `i` of page `d`, store it through the OAM address. -/
def dmaByte (d : Byte) (i : Nat) (s : State) : State :=
  let r := memRead (wordOf (BitVec.ofNat 8 i) d) s
  { r.2 with ppu := r.2.ppu.writeOamData r.1 }

/-- The first `k` bytes of the DMA copy (R337), in order. -/
def dmaCopy (d : Byte) : Nat → State → State
  | 0, s => s
  | k + 1, s => dmaByte d k (dmaCopy d k s)

/-- The stall of a DMA (R338): 513 CPU cycles, one more when `cpuCycles` is odd. -/
def dmaStall (cpuCycles : Nat) : Nat := 513 + cpuCycles % 2

/-- `OamDma(d)` (R337, R338): 256 bytes, then the stall. -/
def oamDma (d : Byte) (s : State) : State :=
  let s := dmaCopy d 256 s
  { s with stall := s.stall + dmaStall s.cpuCycles }

/-- `MemWrite(a, 1, v)` (R62). -/
def memWrite (a : Word) (v : Byte) (s : State) : State :=
  if a.toNat < 0x2000 then { s with ram := Memory.set 0 s.ram (a.toNat % 0x800) v }
  else if a.toNat < 0x4000 then ppuPortWrite (a.toNat % 8) v s
  else if a.toNat = 0x4014 then oamDma v s
  else if a.toNat = 0x4016 then controllerWrite v s
  else if a.toNat < 0x6000 then s
  else if a.toNat < 0x8000 then { s with prgRam := Memory.set 0 s.prgRam (a.toNat - 0x6000) v }
  else mapperWriteByte a v s

/-- `Read16(a)` (R75): low byte first, then `(a + 1) & 0xFFFF`. -/
def read16 (a : Word) (s : State) : Word × State :=
  let lo := memRead a s
  let hi := memRead (a + 1) lo.2
  (wordOf lo.1 hi.1, hi.2)

/-! ### Storage seen without side effects -/

/-- The storage cell behind a CPU address: RAM, cartridge RAM or PRG, after mirroring (R65, R68, R312); `none` where the
address is a port, a stub or unmapped. -/
inductive StorageCell where
  | ram (n : Nat)
  | prgRam (n : Nat)
  | prg (n : Nat)
deriving DecidableEq, Repr

/-- The storage cell a CPU address names (R63). -/
def storageCell (a : Word) (s : State) : Option StorageCell :=
  if a.toNat < 0x2000 then some (.ram (a.toNat % 0x800))
  else if a.toNat < 0x6000 then none
  else if a.toNat < 0x8000 then some (.prgRam (a.toNat - 0x6000))
  else some (.prg (prgOffset s.cart.prgBanks a))

/-- The byte in a storage cell. -/
def readCell (s : State) : StorageCell → Byte
  | .ram n => Memory.get 0 s.ram n
  | .prgRam n => Memory.get 0 s.prgRam n
  | .prg n => Memory.get 0 s.cart.prg n

/-- One byte of CPU memory, looked at without the side effects of a bus read: the byte of the storage cell behind the
address, 0 where there is none. -/
def peek (a : Word) (s : State) : Byte :=
  match storageCell a s with
  | some c => readCell s c
  | none => 0

/-! ### The stack -/

/-- The address of the stack slot: `0x0100 | SP` (R22). -/
def stackAddr (sp : Byte) : Word := wordOf sp 0x01

/-- `Push(v)` (R23): write the slot, then `SP - 1`. -/
def push (v : Byte) (s : State) : State :=
  let s := memWrite (stackAddr s.cpu.sp) v s
  s.setSP (s.cpu.sp - 1)

/-- `Pull()` (R23): `SP + 1`, then read the slot. -/
def pull (s : State) : Byte × State :=
  let s := s.setSP (s.cpu.sp + 1)
  memRead (stackAddr s.cpu.sp) s

/-- Push a 16-bit value, high byte first (R73). -/
def pushWord (w : Word) (s : State) : State := push (loByte w) (push (hiByte w) s)

/-- Pull a 16-bit value, low byte first (R73). -/
def pullWord (s : State) : Word × State :=
  let lo := pull s
  let hi := pull lo.2
  (wordOf lo.1 hi.1, hi.2)

/-! ### Interrupts -/

/-- The priority of the InterruptLine's values: none 0 < IRQ 1 < NMI 2 < RESET 3 (R356). -/
def Line.priority : Line → Nat
  | .none => 0
  | .irq => 1
  | .nmi => 2
  | .reset => 3

/-- `RequestInterrupt(kind)` (R356): a request replaces the slot only if of higher priority. -/
def requestInterrupt (kind : Line) (s : State) : State :=
  if s.line.priority < kind.priority then { s with line := kind } else s

/-- The vectors of R354: NMI, RESET, IRQ and `BRK`. -/
def nmiVector : Word := 0xFFFA

/-- The reset vector (R354). -/
def resetVector : Word := 0xFFFC

/-- The vector of IRQ and `BRK` (R354). -/
def irqVector : Word := 0xFFFE

/-- Entering a handler, the one operation NMI, IRQ and `BRK` share (R359, R222): push the return address high byte
first, push a status byte, clear Decimal, set InterruptDisable where the kind does, load `PC` from the vector. -/
def enterHandler (ret : Word) (status : Byte) (setI : Bool) (vector : Word) (s : State) : State :=
  let s := push status (pushWord ret s)
  let s := s.setFlag .d false
  let s := if setI then s.setFlag .i true else s
  let r := read16 vector s
  r.2.setPC r.1

/-- `CpuInterrupt(NMI)` (R359): InterruptDisable is left as it was. -/
def enterNmi (s : State) : State :=
  enterHandler s.cpu.pc (pushedByHardware s.cpu.p) false nmiVector s

/-- `CpuInterrupt(IRQ)` (R359): not taken while `P.I == 1`; sets InterruptDisable. -/
def enterIrq (s : State) : State :=
  if s.flag .i then s else enterHandler s.cpu.pc (pushedByHardware s.cpu.p) true irqVector s

/-- Return from an interrupt (R223, R365): pull the status byte, then `PC` low, then `PC` high. -/
def returnFromInterrupt (s : State) : State :=
  let st := pull s
  let r := pullWord (st.2.setP (withUnused st.1))
  r.2.setPC r.1

/-- `CpuReset()` (R381): the CPU registers only, and two bus reads. -/
def cpuReset (s : State) : State :=
  let s := { s with cpu := { s.cpu with a := 0, x := 0, y := 0, sp := s.params.resetSp, p := 0x22 } }
  let r := read16 resetVector s
  r.2.setPC r.1

end Sys2Proof.Machine
end

