-- ==== Sys2Proof/Machine/Operands.lean ====
section
/-! DEFINITION. Addressing (spec 30 R103 to R115) and the four operand classes of R124. The operand bytes have been
fetched and `PC` is the address of the next instruction when these run. -/

namespace Sys2Proof.Machine

/-- `(base & 0xFF00) != (ea & 0xFF00)` (R110, R111, R114, R190). -/
def pageDiffers (a b : Word) : Bool := hiByte a != hiByte b

/-- An address with no bus read and no crossing. -/
def plainAddr (a : Word) (s : State) : Resolved := ⟨a, false, s⟩

/-- A 16-bit base plus an index (R110, R111). -/
def indexedAddr (base : Word) (index : Byte) (s : State) : Resolved :=
  let ea := base + zext16 index
  ⟨ea, pageDiffers base ea, s⟩

/-- A 16-bit pointer read from the zero page, wrapping in it (R113, R114): low byte at `z`, high byte at
`(z + 1) & 0xFF`. -/
def zeroPagePointer (z : Byte) (s : State) : Word × State :=
  let lo := memRead (zext16 z) s
  let hi := memRead (zext16 (z + 1)) lo.2
  (wordOf lo.1 hi.1, hi.2)

/-- The address of the high byte of a `JMP (ind)` pointer (R112). -/
def indirectHigh (wrap : Bool) (ptr : Word) : Word :=
  if wrap then wordOf (loByte ptr + 1) (hiByte ptr) else ptr + 1

/-- The effective address of an operand (R103 to R115). The implied, accumulator and immediate modes have no address to
compute here: an implied or accumulator operand has none (R103, R104), and an immediate operand is the fetched byte
(R105), one before `PC`. -/
def resolve : Operand → State → Resolved
  | .imp, s => plainAddr s.cpu.pc s
  | .acc, s => plainAddr s.cpu.pc s
  | .imm _, s => plainAddr (s.cpu.pc - 1) s
  | .zp d, s => plainAddr (zext16 d) s
  | .zpx d, s => plainAddr (zext16 (d + s.cpu.x)) s
  | .zpy d, s => plainAddr (zext16 (d + s.cpu.y)) s
  | .abs a, s => plainAddr a s
  | .abx a, s => indexedAddr a s.cpu.x s
  | .aby a, s => indexedAddr a s.cpu.y s
  | .ind p, s =>
    let lo := memRead p s
    let hi := memRead (indirectHigh s.params.jmpIndirectPageWrap p) lo.2
    ⟨wordOf lo.1 hi.1, false, hi.2⟩
  | .izx d, s =>
    let p := zeroPagePointer (d + s.cpu.x) s
    ⟨p.1, false, p.2⟩
  | .izy d, s =>
    let p := zeroPagePointer d s
    indexedAddr p.1 s.cpu.y p.2
  | .rel d, s => plainAddr (s.cpu.pc + sext16 d) s

/-- The base cost and, when the row has the `+` mark and the address crossed a page, one more (R116, R117). -/
def costOf (base : Nat) (penalty crossed : Bool) : Nat := base + bitNat (penalty && crossed)

/-- The operand byte of a read (R105, R124): an immediate operand is the byte already fetched from the instruction, its
one bus read (log 9); in the accumulator mode it is `A` (R104); otherwise one `MemRead(ea, 1)`. -/
def readOperand (o : Operand) (s : State) : Byte × State :=
  match o with
  | .imm d => (d, s)
  | .acc => (s.cpu.a, s)
  | o =>
    let r := resolve o s
    memRead r.addr r.after

/-- The read class (R124): one operand byte, then the operation. -/
def readClass (op : Byte → State → State) (o : Operand) (base : Nat) (penalty : Bool) (s : State) : State :=
  let m := readOperand o s
  (op m.1 m.2).charge (costOf base penalty (resolve o s).crossed)

/-- The write class (R124): one `MemWrite(ea, 1, v)`. -/
def writeClass (v : Byte) (o : Operand) (base : Nat) (s : State) : State :=
  let r := resolve o s
  (memWrite r.addr v r.after).charge base

/-- The read-modify-write class (R76, R124): one read of `ea`, the flags, one write of `ea`; in the accumulator mode
operand and destination are `A` (R104). -/
def modifyClass (op : Byte → Byte → Byte × Byte) (o : Operand) (base : Nat) (s : State) : State :=
  match o with
  | .acc =>
    let r := op s.cpu.a s.cpu.p
    ((s.setP r.2).setA r.1).charge base
  | o =>
    let e := resolve o s
    let m := memRead e.addr e.after
    let r := op m.1 m.2.cpu.p
    (memWrite e.addr r.1 (m.2.setP r.2)).charge base

end Sys2Proof.Machine
end

