-- ==== Sys2Proof/Machine/Arith.lean ====
section
/-! DEFINITION. Arithmetic, compare, increment and decrement instructions (spec 41 R150 to R163). -/

namespace Sys2Proof.Machine

/-- `ADC` of an operand byte (R150, R163). -/
def addOp (m : Byte) (s : State) : State :=
  let r := adc s.params.decimalEnabled s.cpu.a m s.cpu.p
  (s.setP r.2).setA r.1

/-- `SBC` of an operand byte (R151, R163). -/
def subOp (m : Byte) (s : State) : State :=
  let r := sbc s.params.decimalEnabled s.cpu.a m s.cpu.p
  (s.setP r.2).setA r.1

/-- `Compare(A, m)` (R152, R162). -/
def compareA (m : Byte) (s : State) : State := s.setP (compareFlags s.cpu.a m s.cpu.p)

/-- `Compare(X, m)` (R153, R162). -/
def compareX (m : Byte) (s : State) : State := s.setP (compareFlags s.cpu.x m s.cpu.p)

/-- `Compare(Y, m)` (R154, R162). -/
def compareY (m : Byte) (s : State) : State := s.setP (compareFlags s.cpu.y m s.cpu.p)

/-- `ADC #$nn` (R150, R105, 2 cycles). -/
def execAdcImm (d : Byte) (s : State) : Host.Outcome State Fault Refusal := .next (readClass addOp (.imm d) 2 false s)

/-- `ADC $nn` (R150, R106, 3 cycles). -/
def execAdcZp (d : Byte) (s : State) : Host.Outcome State Fault Refusal := .next (readClass addOp (.zp d) 3 false s)

/-- `ADC $nn,X` (R150, R107, 4 cycles). -/
def execAdcZpx (d : Byte) (s : State) : Host.Outcome State Fault Refusal := .next (readClass addOp (.zpx d) 4 false s)

/-- `ADC $nnnn` (R150, R109, 4 cycles). -/
def execAdcAbs (a : Word) (s : State) : Host.Outcome State Fault Refusal := .next (readClass addOp (.abs a) 4 false s)

/-- `ADC $nnnn,X` (R150, R110, 4+ cycles). -/
def execAdcAbx (a : Word) (s : State) : Host.Outcome State Fault Refusal := .next (readClass addOp (.abx a) 4 true s)

/-- `ADC $nnnn,Y` (R150, R111, 4+ cycles). -/
def execAdcAby (a : Word) (s : State) : Host.Outcome State Fault Refusal := .next (readClass addOp (.aby a) 4 true s)

/-- `ADC ($nn,X)` (R150, R113, 6 cycles). -/
def execAdcIzx (d : Byte) (s : State) : Host.Outcome State Fault Refusal := .next (readClass addOp (.izx d) 6 false s)

/-- `ADC ($nn),Y` (R150, R114, 5+ cycles). -/
def execAdcIzy (d : Byte) (s : State) : Host.Outcome State Fault Refusal := .next (readClass addOp (.izy d) 5 true s)

/-- `SBC #$nn` (R151, R105, 2 cycles). -/
def execSbcImm (d : Byte) (s : State) : Host.Outcome State Fault Refusal := .next (readClass subOp (.imm d) 2 false s)

/-- `SBC $nn` (R151, R106, 3 cycles). -/
def execSbcZp (d : Byte) (s : State) : Host.Outcome State Fault Refusal := .next (readClass subOp (.zp d) 3 false s)

/-- `SBC $nn,X` (R151, R107, 4 cycles). -/
def execSbcZpx (d : Byte) (s : State) : Host.Outcome State Fault Refusal := .next (readClass subOp (.zpx d) 4 false s)

/-- `SBC $nnnn` (R151, R109, 4 cycles). -/
def execSbcAbs (a : Word) (s : State) : Host.Outcome State Fault Refusal := .next (readClass subOp (.abs a) 4 false s)

/-- `SBC $nnnn,X` (R151, R110, 4+ cycles). -/
def execSbcAbx (a : Word) (s : State) : Host.Outcome State Fault Refusal := .next (readClass subOp (.abx a) 4 true s)

/-- `SBC $nnnn,Y` (R151, R111, 4+ cycles). -/
def execSbcAby (a : Word) (s : State) : Host.Outcome State Fault Refusal := .next (readClass subOp (.aby a) 4 true s)

/-- `SBC ($nn,X)` (R151, R113, 6 cycles). -/
def execSbcIzx (d : Byte) (s : State) : Host.Outcome State Fault Refusal := .next (readClass subOp (.izx d) 6 false s)

/-- `SBC ($nn),Y` (R151, R114, 5+ cycles). -/
def execSbcIzy (d : Byte) (s : State) : Host.Outcome State Fault Refusal := .next (readClass subOp (.izy d) 5 true s)

/-- `CMP #$nn` (R152, R105, 2 cycles). -/
def execCmpImm (d : Byte) (s : State) : Host.Outcome State Fault Refusal :=
  .next (readClass compareA (.imm d) 2 false s)

/-- `CMP $nn` (R152, R106, 3 cycles). -/
def execCmpZp (d : Byte) (s : State) : Host.Outcome State Fault Refusal :=
  .next (readClass compareA (.zp d) 3 false s)

/-- `CMP $nn,X` (R152, R107, 4 cycles). -/
def execCmpZpx (d : Byte) (s : State) : Host.Outcome State Fault Refusal :=
  .next (readClass compareA (.zpx d) 4 false s)

/-- `CMP $nnnn` (R152, R109, 4 cycles). -/
def execCmpAbs (a : Word) (s : State) : Host.Outcome State Fault Refusal :=
  .next (readClass compareA (.abs a) 4 false s)

/-- `CMP $nnnn,X` (R152, R110, 4+ cycles). -/
def execCmpAbx (a : Word) (s : State) : Host.Outcome State Fault Refusal :=
  .next (readClass compareA (.abx a) 4 true s)

/-- `CMP $nnnn,Y` (R152, R111, 4+ cycles). -/
def execCmpAby (a : Word) (s : State) : Host.Outcome State Fault Refusal :=
  .next (readClass compareA (.aby a) 4 true s)

/-- `CMP ($nn,X)` (R152, R113, 6 cycles). -/
def execCmpIzx (d : Byte) (s : State) : Host.Outcome State Fault Refusal :=
  .next (readClass compareA (.izx d) 6 false s)

/-- `CMP ($nn),Y` (R152, R114, 5+ cycles). -/
def execCmpIzy (d : Byte) (s : State) : Host.Outcome State Fault Refusal :=
  .next (readClass compareA (.izy d) 5 true s)

/-- `CPX #$nn` (R153, R105, 2 cycles). -/
def execCpxImm (d : Byte) (s : State) : Host.Outcome State Fault Refusal :=
  .next (readClass compareX (.imm d) 2 false s)

/-- `CPX $nn` (R153, R106, 3 cycles). -/
def execCpxZp (d : Byte) (s : State) : Host.Outcome State Fault Refusal :=
  .next (readClass compareX (.zp d) 3 false s)

/-- `CPX $nnnn` (R153, R109, 4 cycles). -/
def execCpxAbs (a : Word) (s : State) : Host.Outcome State Fault Refusal :=
  .next (readClass compareX (.abs a) 4 false s)

/-- `CPY #$nn` (R154, R105, 2 cycles). -/
def execCpyImm (d : Byte) (s : State) : Host.Outcome State Fault Refusal :=
  .next (readClass compareY (.imm d) 2 false s)

/-- `CPY $nn` (R154, R106, 3 cycles). -/
def execCpyZp (d : Byte) (s : State) : Host.Outcome State Fault Refusal :=
  .next (readClass compareY (.zp d) 3 false s)

/-- `CPY $nnnn` (R154, R109, 4 cycles). -/
def execCpyAbs (a : Word) (s : State) : Host.Outcome State Fault Refusal :=
  .next (readClass compareY (.abs a) 4 false s)

/-- `INC $nn` (R155, R106, 5 cycles). -/
def execIncZp (d : Byte) (s : State) : Host.Outcome State Fault Refusal := .next (modifyClass inc (.zp d) 5 s)

/-- `INC $nn,X` (R155, R107, 6 cycles). -/
def execIncZpx (d : Byte) (s : State) : Host.Outcome State Fault Refusal := .next (modifyClass inc (.zpx d) 6 s)

/-- `INC $nnnn` (R155, R109, 6 cycles). -/
def execIncAbs (a : Word) (s : State) : Host.Outcome State Fault Refusal := .next (modifyClass inc (.abs a) 6 s)

/-- `INC $nnnn,X` (R155, R110, 7 cycles). -/
def execIncAbx (a : Word) (s : State) : Host.Outcome State Fault Refusal := .next (modifyClass inc (.abx a) 7 s)

/-- `INX` (R156, 2 cycles). -/
def execInx (s : State) : Host.Outcome State Fault Refusal :=
  .next (((s.setX (s.cpu.x + 1)).setZN (s.cpu.x + 1)).charge 2)

/-- `INY` (R157, 2 cycles). -/
def execIny (s : State) : Host.Outcome State Fault Refusal :=
  .next (((s.setY (s.cpu.y + 1)).setZN (s.cpu.y + 1)).charge 2)

/-- `DEC $nn` (R158, R106, 5 cycles). -/
def execDecZp (d : Byte) (s : State) : Host.Outcome State Fault Refusal := .next (modifyClass dec (.zp d) 5 s)

/-- `DEC $nn,X` (R158, R107, 6 cycles). -/
def execDecZpx (d : Byte) (s : State) : Host.Outcome State Fault Refusal := .next (modifyClass dec (.zpx d) 6 s)

/-- `DEC $nnnn` (R158, R109, 6 cycles). -/
def execDecAbs (a : Word) (s : State) : Host.Outcome State Fault Refusal := .next (modifyClass dec (.abs a) 6 s)

/-- `DEC $nnnn,X` (R158, R110, 7 cycles). -/
def execDecAbx (a : Word) (s : State) : Host.Outcome State Fault Refusal := .next (modifyClass dec (.abx a) 7 s)

/-- `DEX` (R159, 2 cycles). -/
def execDex (s : State) : Host.Outcome State Fault Refusal :=
  .next (((s.setX (s.cpu.x - 1)).setZN (s.cpu.x - 1)).charge 2)

/-- `DEY` (R160, 2 cycles). -/
def execDey (s : State) : Host.Outcome State Fault Refusal :=
  .next (((s.setY (s.cpu.y - 1)).setZN (s.cpu.y - 1)).charge 2)

end Sys2Proof.Machine
end

