-- ==== Sys2Proof/Machine/Control.lean ====
section
/-! DEFINITION. Jumps, subroutine calls and branches (spec 43 R190 to R201). -/

namespace Sys2Proof.Machine

/-- The common branch rule (R190): base cost 2; taken, one more and one more again when the target is in another page
than the next instruction. -/
def branch (taken : Bool) (d : Byte) (s : State) : State :=
  let ea := (resolve (.rel d) s).addr
  if taken then (s.setPC ea).charge (2 + (1 + bitNat (pageDiffers s.cpu.pc ea))) else s.charge 2

/-- `PC <- ea` (R191). -/
def jump (o : Operand) (base : Nat) (s : State) : State :=
  let r := resolve o s
  (r.after.setPC r.addr).charge base

/-- `JSR` (R192): push the address of the last byte of the instruction, then jump. -/
def call (a : Word) (base : Nat) (s : State) : State :=
  ((pushWord (s.cpu.pc - 1) s).setPC a).charge base

/-- `RTS` (R193): pull an address and resume one after it. -/
def returnFromCall (base : Nat) (s : State) : State :=
  let r := pullWord s
  (r.2.setPC (r.1 + 1)).charge base

/-- `JMP $nnnn` (R191, R109, 3 cycles). -/
def execJmpAbs (a : Word) (s : State) : Host.Outcome State Fault Refusal := .next (jump (.abs a) 3 s)

/-- `JMP ($nnnn)` (R191, R112, 5 cycles). -/
def execJmpInd (a : Word) (s : State) : Host.Outcome State Fault Refusal := .next (jump (.ind a) 5 s)

/-- `JSR $nnnn` (R192, R109, 6 cycles). -/
def execJsr (a : Word) (s : State) : Host.Outcome State Fault Refusal := .next (call a 6 s)

/-- `RTS` (R193, 6 cycles). -/
def execRts (s : State) : Host.Outcome State Fault Refusal := .next (returnFromCall 6 s)

/-- `BCC label` (R194, R115). -/
def execBcc (d : Byte) (s : State) : Host.Outcome State Fault Refusal := .next (branch (!s.flag .c) d s)

/-- `BCS label` (R195, R115). -/
def execBcs (d : Byte) (s : State) : Host.Outcome State Fault Refusal := .next (branch (s.flag .c) d s)

/-- `BEQ label` (R196, R115). -/
def execBeq (d : Byte) (s : State) : Host.Outcome State Fault Refusal := .next (branch (s.flag .z) d s)

/-- `BNE label` (R197, R115). -/
def execBne (d : Byte) (s : State) : Host.Outcome State Fault Refusal := .next (branch (!s.flag .z) d s)

/-- `BMI label` (R198, R115). -/
def execBmi (d : Byte) (s : State) : Host.Outcome State Fault Refusal := .next (branch (s.flag .n) d s)

/-- `BPL label` (R199, R115). -/
def execBpl (d : Byte) (s : State) : Host.Outcome State Fault Refusal := .next (branch (!s.flag .n) d s)

/-- `BVC label` (R200, R115). -/
def execBvc (d : Byte) (s : State) : Host.Outcome State Fault Refusal := .next (branch (!s.flag .v) d s)

/-- `BVS label` (R201, R115). -/
def execBvs (d : Byte) (s : State) : Host.Outcome State Fault Refusal := .next (branch (s.flag .v) d s)

end Sys2Proof.Machine
end

