-- ==== Sys2Proof/Machine/LoadStore.lean ====
section
/-! DEFINITION. Load, store and register-transfer instructions (spec 40 R130 to R141). -/

namespace Sys2Proof.Machine

/-- `A <- v; SetZN(A)` (R130, R138, R139). -/
def loadA (v : Byte) (s : State) : State := (s.setA v).setZN v

/-- `X <- v; SetZN(X)` (R131, R136, R140). -/
def loadX (v : Byte) (s : State) : State := (s.setX v).setZN v

/-- `Y <- v; SetZN(Y)` (R132, R137). -/
def loadY (v : Byte) (s : State) : State := (s.setY v).setZN v

/-- `LDA #$nn` (R130, R105, 2 cycles). -/
def execLdaImm (d : Byte) (s : State) : Host.Outcome State Fault Refusal := .next (readClass loadA (.imm d) 2 false s)

/-- `LDA $nn` (R130, R106, 3 cycles). -/
def execLdaZp (d : Byte) (s : State) : Host.Outcome State Fault Refusal := .next (readClass loadA (.zp d) 3 false s)

/-- `LDA $nn,X` (R130, R107, 4 cycles). -/
def execLdaZpx (d : Byte) (s : State) : Host.Outcome State Fault Refusal := .next (readClass loadA (.zpx d) 4 false s)

/-- `LDA $nnnn` (R130, R109, 4 cycles). -/
def execLdaAbs (a : Word) (s : State) : Host.Outcome State Fault Refusal := .next (readClass loadA (.abs a) 4 false s)

/-- `LDA $nnnn,X` (R130, R110, 4+ cycles). -/
def execLdaAbx (a : Word) (s : State) : Host.Outcome State Fault Refusal := .next (readClass loadA (.abx a) 4 true s)

/-- `LDA $nnnn,Y` (R130, R111, 4+ cycles). -/
def execLdaAby (a : Word) (s : State) : Host.Outcome State Fault Refusal := .next (readClass loadA (.aby a) 4 true s)

/-- `LDA ($nn,X)` (R130, R113, 6 cycles). -/
def execLdaIzx (d : Byte) (s : State) : Host.Outcome State Fault Refusal := .next (readClass loadA (.izx d) 6 false s)

/-- `LDA ($nn),Y` (R130, R114, 5+ cycles). -/
def execLdaIzy (d : Byte) (s : State) : Host.Outcome State Fault Refusal := .next (readClass loadA (.izy d) 5 true s)

/-- `LDX #$nn` (R131, R105, 2 cycles). -/
def execLdxImm (d : Byte) (s : State) : Host.Outcome State Fault Refusal := .next (readClass loadX (.imm d) 2 false s)

/-- `LDX $nn` (R131, R106, 3 cycles). -/
def execLdxZp (d : Byte) (s : State) : Host.Outcome State Fault Refusal := .next (readClass loadX (.zp d) 3 false s)

/-- `LDX $nn,Y` (R131, R108, 4 cycles). -/
def execLdxZpy (d : Byte) (s : State) : Host.Outcome State Fault Refusal := .next (readClass loadX (.zpy d) 4 false s)

/-- `LDX $nnnn` (R131, R109, 4 cycles). -/
def execLdxAbs (a : Word) (s : State) : Host.Outcome State Fault Refusal := .next (readClass loadX (.abs a) 4 false s)

/-- `LDX $nnnn,Y` (R131, R111, 4+ cycles). -/
def execLdxAby (a : Word) (s : State) : Host.Outcome State Fault Refusal := .next (readClass loadX (.aby a) 4 true s)

/-- `LDY #$nn` (R132, R105, 2 cycles). -/
def execLdyImm (d : Byte) (s : State) : Host.Outcome State Fault Refusal := .next (readClass loadY (.imm d) 2 false s)

/-- `LDY $nn` (R132, R106, 3 cycles). -/
def execLdyZp (d : Byte) (s : State) : Host.Outcome State Fault Refusal := .next (readClass loadY (.zp d) 3 false s)

/-- `LDY $nn,X` (R132, R107, 4 cycles). -/
def execLdyZpx (d : Byte) (s : State) : Host.Outcome State Fault Refusal := .next (readClass loadY (.zpx d) 4 false s)

/-- `LDY $nnnn` (R132, R109, 4 cycles). -/
def execLdyAbs (a : Word) (s : State) : Host.Outcome State Fault Refusal := .next (readClass loadY (.abs a) 4 false s)

/-- `LDY $nnnn,X` (R132, R110, 4+ cycles). -/
def execLdyAbx (a : Word) (s : State) : Host.Outcome State Fault Refusal := .next (readClass loadY (.abx a) 4 true s)

/-- `STA $nn` (R133, R106, 3 cycles). -/
def execStaZp (d : Byte) (s : State) : Host.Outcome State Fault Refusal := .next (writeClass s.cpu.a (.zp d) 3 s)

/-- `STA $nn,X` (R133, R107, 4 cycles). -/
def execStaZpx (d : Byte) (s : State) : Host.Outcome State Fault Refusal := .next (writeClass s.cpu.a (.zpx d) 4 s)

/-- `STA $nnnn` (R133, R109, 4 cycles). -/
def execStaAbs (a : Word) (s : State) : Host.Outcome State Fault Refusal := .next (writeClass s.cpu.a (.abs a) 4 s)

/-- `STA $nnnn,X` (R133, R110, 5 cycles). -/
def execStaAbx (a : Word) (s : State) : Host.Outcome State Fault Refusal := .next (writeClass s.cpu.a (.abx a) 5 s)

/-- `STA $nnnn,Y` (R133, R111, 5 cycles). -/
def execStaAby (a : Word) (s : State) : Host.Outcome State Fault Refusal := .next (writeClass s.cpu.a (.aby a) 5 s)

/-- `STA ($nn,X)` (R133, R113, 6 cycles). -/
def execStaIzx (d : Byte) (s : State) : Host.Outcome State Fault Refusal := .next (writeClass s.cpu.a (.izx d) 6 s)

/-- `STA ($nn),Y` (R133, R114, 6 cycles). -/
def execStaIzy (d : Byte) (s : State) : Host.Outcome State Fault Refusal := .next (writeClass s.cpu.a (.izy d) 6 s)

/-- `STX $nn` (R134, R106, 3 cycles). -/
def execStxZp (d : Byte) (s : State) : Host.Outcome State Fault Refusal := .next (writeClass s.cpu.x (.zp d) 3 s)

/-- `STX $nn,Y` (R134, R108, 4 cycles). -/
def execStxZpy (d : Byte) (s : State) : Host.Outcome State Fault Refusal := .next (writeClass s.cpu.x (.zpy d) 4 s)

/-- `STX $nnnn` (R134, R109, 4 cycles). -/
def execStxAbs (a : Word) (s : State) : Host.Outcome State Fault Refusal := .next (writeClass s.cpu.x (.abs a) 4 s)

/-- `STY $nn` (R135, R106, 3 cycles). -/
def execStyZp (d : Byte) (s : State) : Host.Outcome State Fault Refusal := .next (writeClass s.cpu.y (.zp d) 3 s)

/-- `STY $nn,X` (R135, R107, 4 cycles). -/
def execStyZpx (d : Byte) (s : State) : Host.Outcome State Fault Refusal := .next (writeClass s.cpu.y (.zpx d) 4 s)

/-- `STY $nnnn` (R135, R109, 4 cycles). -/
def execStyAbs (a : Word) (s : State) : Host.Outcome State Fault Refusal := .next (writeClass s.cpu.y (.abs a) 4 s)

/-- `TAX` (R136, 2 cycles). -/
def execTax (s : State) : Host.Outcome State Fault Refusal := .next ((loadX s.cpu.a s).charge 2)

/-- `TAY` (R137, 2 cycles). -/
def execTay (s : State) : Host.Outcome State Fault Refusal := .next ((loadY s.cpu.a s).charge 2)

/-- `TXA` (R138, 2 cycles). -/
def execTxa (s : State) : Host.Outcome State Fault Refusal := .next ((loadA s.cpu.x s).charge 2)

/-- `TYA` (R139, 2 cycles). -/
def execTya (s : State) : Host.Outcome State Fault Refusal := .next ((loadA s.cpu.y s).charge 2)

/-- `TSX` (R140, 2 cycles). -/
def execTsx (s : State) : Host.Outcome State Fault Refusal := .next ((loadX s.cpu.sp s).charge 2)

/-- `TXS` (R141, 2 cycles). -/
def execTxs (s : State) : Host.Outcome State Fault Refusal := .next ((s.setSP s.cpu.x).charge 2)

end Sys2Proof.Machine
end

