-- ==== Sys2Proof/Machine/Logic.lean ====
section
/-! DEFINITION. Logic, bit-test, shift and rotate instructions (spec 42 R170 to R177). -/

namespace Sys2Proof.Machine

/-- `A <- A & m; SetZN(A)` (R170). -/
def andOp (m : Byte) (s : State) : State := (s.setA (s.cpu.a &&& m)).setZN (s.cpu.a &&& m)

/-- `A <- A | m; SetZN(A)` (R171). -/
def orOp (m : Byte) (s : State) : State := (s.setA (s.cpu.a ||| m)).setZN (s.cpu.a ||| m)

/-- `A <- A ^ m; SetZN(A)` (R172). -/
def xorOp (m : Byte) (s : State) : State := (s.setA (s.cpu.a ^^^ m)).setZN (s.cpu.a ^^^ m)

/-- `BIT` of an operand byte (R173). -/
def bitOp (m : Byte) (s : State) : State := s.setP (bitTest s.cpu.a m s.cpu.p)

/-- `AND #$nn` (R170, R105, 2 cycles). -/
def execAndImm (d : Byte) (s : State) : Host.Outcome State Fault Refusal := .next (readClass andOp (.imm d) 2 false s)

/-- `AND $nn` (R170, R106, 3 cycles). -/
def execAndZp (d : Byte) (s : State) : Host.Outcome State Fault Refusal := .next (readClass andOp (.zp d) 3 false s)

/-- `AND $nn,X` (R170, R107, 4 cycles). -/
def execAndZpx (d : Byte) (s : State) : Host.Outcome State Fault Refusal := .next (readClass andOp (.zpx d) 4 false s)

/-- `AND $nnnn` (R170, R109, 4 cycles). -/
def execAndAbs (a : Word) (s : State) : Host.Outcome State Fault Refusal := .next (readClass andOp (.abs a) 4 false s)

/-- `AND $nnnn,X` (R170, R110, 4+ cycles). -/
def execAndAbx (a : Word) (s : State) : Host.Outcome State Fault Refusal := .next (readClass andOp (.abx a) 4 true s)

/-- `AND $nnnn,Y` (R170, R111, 4+ cycles). -/
def execAndAby (a : Word) (s : State) : Host.Outcome State Fault Refusal := .next (readClass andOp (.aby a) 4 true s)

/-- `AND ($nn,X)` (R170, R113, 6 cycles). -/
def execAndIzx (d : Byte) (s : State) : Host.Outcome State Fault Refusal := .next (readClass andOp (.izx d) 6 false s)

/-- `AND ($nn),Y` (R170, R114, 5+ cycles). -/
def execAndIzy (d : Byte) (s : State) : Host.Outcome State Fault Refusal := .next (readClass andOp (.izy d) 5 true s)

/-- `ORA #$nn` (R171, R105, 2 cycles). -/
def execOraImm (d : Byte) (s : State) : Host.Outcome State Fault Refusal := .next (readClass orOp (.imm d) 2 false s)

/-- `ORA $nn` (R171, R106, 3 cycles). -/
def execOraZp (d : Byte) (s : State) : Host.Outcome State Fault Refusal := .next (readClass orOp (.zp d) 3 false s)

/-- `ORA $nn,X` (R171, R107, 4 cycles). -/
def execOraZpx (d : Byte) (s : State) : Host.Outcome State Fault Refusal := .next (readClass orOp (.zpx d) 4 false s)

/-- `ORA $nnnn` (R171, R109, 4 cycles). -/
def execOraAbs (a : Word) (s : State) : Host.Outcome State Fault Refusal := .next (readClass orOp (.abs a) 4 false s)

/-- `ORA $nnnn,X` (R171, R110, 4+ cycles). -/
def execOraAbx (a : Word) (s : State) : Host.Outcome State Fault Refusal := .next (readClass orOp (.abx a) 4 true s)

/-- `ORA $nnnn,Y` (R171, R111, 4+ cycles). -/
def execOraAby (a : Word) (s : State) : Host.Outcome State Fault Refusal := .next (readClass orOp (.aby a) 4 true s)

/-- `ORA ($nn,X)` (R171, R113, 6 cycles). -/
def execOraIzx (d : Byte) (s : State) : Host.Outcome State Fault Refusal := .next (readClass orOp (.izx d) 6 false s)

/-- `ORA ($nn),Y` (R171, R114, 5+ cycles). -/
def execOraIzy (d : Byte) (s : State) : Host.Outcome State Fault Refusal := .next (readClass orOp (.izy d) 5 true s)

/-- `EOR #$nn` (R172, R105, 2 cycles). -/
def execEorImm (d : Byte) (s : State) : Host.Outcome State Fault Refusal := .next (readClass xorOp (.imm d) 2 false s)

/-- `EOR $nn` (R172, R106, 3 cycles). -/
def execEorZp (d : Byte) (s : State) : Host.Outcome State Fault Refusal := .next (readClass xorOp (.zp d) 3 false s)

/-- `EOR $nn,X` (R172, R107, 4 cycles). -/
def execEorZpx (d : Byte) (s : State) : Host.Outcome State Fault Refusal := .next (readClass xorOp (.zpx d) 4 false s)

/-- `EOR $nnnn` (R172, R109, 4 cycles). -/
def execEorAbs (a : Word) (s : State) : Host.Outcome State Fault Refusal := .next (readClass xorOp (.abs a) 4 false s)

/-- `EOR $nnnn,X` (R172, R110, 4+ cycles). -/
def execEorAbx (a : Word) (s : State) : Host.Outcome State Fault Refusal := .next (readClass xorOp (.abx a) 4 true s)

/-- `EOR $nnnn,Y` (R172, R111, 4+ cycles). -/
def execEorAby (a : Word) (s : State) : Host.Outcome State Fault Refusal := .next (readClass xorOp (.aby a) 4 true s)

/-- `EOR ($nn,X)` (R172, R113, 6 cycles). -/
def execEorIzx (d : Byte) (s : State) : Host.Outcome State Fault Refusal := .next (readClass xorOp (.izx d) 6 false s)

/-- `EOR ($nn),Y` (R172, R114, 5+ cycles). -/
def execEorIzy (d : Byte) (s : State) : Host.Outcome State Fault Refusal := .next (readClass xorOp (.izy d) 5 true s)

/-- `BIT $nn` (R173, R106, 3 cycles). -/
def execBitZp (d : Byte) (s : State) : Host.Outcome State Fault Refusal := .next (readClass bitOp (.zp d) 3 false s)

/-- `BIT $nnnn` (R173, R109, 4 cycles). -/
def execBitAbs (a : Word) (s : State) : Host.Outcome State Fault Refusal := .next (readClass bitOp (.abs a) 4 false s)

/-- `ASL A` (R174, R104, 2 cycles). -/
def execAslAcc (s : State) : Host.Outcome State Fault Refusal := .next (modifyClass asl .acc 2 s)

/-- `ASL $nn` (R174, R106, 5 cycles). -/
def execAslZp (d : Byte) (s : State) : Host.Outcome State Fault Refusal := .next (modifyClass asl (.zp d) 5 s)

/-- `ASL $nn,X` (R174, R107, 6 cycles). -/
def execAslZpx (d : Byte) (s : State) : Host.Outcome State Fault Refusal := .next (modifyClass asl (.zpx d) 6 s)

/-- `ASL $nnnn` (R174, R109, 6 cycles). -/
def execAslAbs (a : Word) (s : State) : Host.Outcome State Fault Refusal := .next (modifyClass asl (.abs a) 6 s)

/-- `ASL $nnnn,X` (R174, R110, 7 cycles). -/
def execAslAbx (a : Word) (s : State) : Host.Outcome State Fault Refusal := .next (modifyClass asl (.abx a) 7 s)

/-- `LSR A` (R175, R104, 2 cycles). -/
def execLsrAcc (s : State) : Host.Outcome State Fault Refusal := .next (modifyClass lsr .acc 2 s)

/-- `LSR $nn` (R175, R106, 5 cycles). -/
def execLsrZp (d : Byte) (s : State) : Host.Outcome State Fault Refusal := .next (modifyClass lsr (.zp d) 5 s)

/-- `LSR $nn,X` (R175, R107, 6 cycles). -/
def execLsrZpx (d : Byte) (s : State) : Host.Outcome State Fault Refusal := .next (modifyClass lsr (.zpx d) 6 s)

/-- `LSR $nnnn` (R175, R109, 6 cycles). -/
def execLsrAbs (a : Word) (s : State) : Host.Outcome State Fault Refusal := .next (modifyClass lsr (.abs a) 6 s)

/-- `LSR $nnnn,X` (R175, R110, 7 cycles). -/
def execLsrAbx (a : Word) (s : State) : Host.Outcome State Fault Refusal := .next (modifyClass lsr (.abx a) 7 s)

/-- `ROL A` (R176, R104, 2 cycles). -/
def execRolAcc (s : State) : Host.Outcome State Fault Refusal := .next (modifyClass rol .acc 2 s)

/-- `ROL $nn` (R176, R106, 5 cycles). -/
def execRolZp (d : Byte) (s : State) : Host.Outcome State Fault Refusal := .next (modifyClass rol (.zp d) 5 s)

/-- `ROL $nn,X` (R176, R107, 6 cycles). -/
def execRolZpx (d : Byte) (s : State) : Host.Outcome State Fault Refusal := .next (modifyClass rol (.zpx d) 6 s)

/-- `ROL $nnnn` (R176, R109, 6 cycles). -/
def execRolAbs (a : Word) (s : State) : Host.Outcome State Fault Refusal := .next (modifyClass rol (.abs a) 6 s)

/-- `ROL $nnnn,X` (R176, R110, 7 cycles). -/
def execRolAbx (a : Word) (s : State) : Host.Outcome State Fault Refusal := .next (modifyClass rol (.abx a) 7 s)

/-- `ROR A` (R177, R104, 2 cycles). -/
def execRorAcc (s : State) : Host.Outcome State Fault Refusal := .next (modifyClass ror .acc 2 s)

/-- `ROR $nn` (R177, R106, 5 cycles). -/
def execRorZp (d : Byte) (s : State) : Host.Outcome State Fault Refusal := .next (modifyClass ror (.zp d) 5 s)

/-- `ROR $nn,X` (R177, R107, 6 cycles). -/
def execRorZpx (d : Byte) (s : State) : Host.Outcome State Fault Refusal := .next (modifyClass ror (.zpx d) 6 s)

/-- `ROR $nnnn` (R177, R109, 6 cycles). -/
def execRorAbs (a : Word) (s : State) : Host.Outcome State Fault Refusal := .next (modifyClass ror (.abs a) 6 s)

/-- `ROR $nnnn,X` (R177, R110, 7 cycles). -/
def execRorAbx (a : Word) (s : State) : Host.Outcome State Fault Refusal := .next (modifyClass ror (.abx a) 7 s)

end Sys2Proof.Machine
end

