-- ==== Sys2Proof/Machine/System.lean ====
section
/-! DEFINITION. Stack, flag and system instructions (spec 44 R210 to R223). -/

namespace Sys2Proof.Machine

/-- `PHA` (R210, 3 cycles). -/
def execPha (s : State) : Host.Outcome State Fault Refusal := .next ((push s.cpu.a s).charge 3)

/-- `PLA` (R211, 4 cycles). -/
def execPla (s : State) : Host.Outcome State Fault Refusal :=
  let m := pull s
  .next ((loadA m.1 m.2).charge 4)

/-- `PHP` (R212, 3 cycles). -/
def execPhp (s : State) : Host.Outcome State Fault Refusal := .next ((push (pushedBySoftware s.cpu.p) s).charge 3)

/-- `PLP` (R213, 4 cycles). -/
def execPlp (s : State) : Host.Outcome State Fault Refusal :=
  let m := pull s
  .next ((m.2.setP (withUnused m.1)).charge 4)

/-- `CLC` (R214, 2 cycles). -/
def execClc (s : State) : Host.Outcome State Fault Refusal := .next ((s.setFlag .c false).charge 2)

/-- `SEC` (R215, 2 cycles). -/
def execSec (s : State) : Host.Outcome State Fault Refusal := .next ((s.setFlag .c true).charge 2)

/-- `CLI` (R216, 2 cycles). -/
def execCli (s : State) : Host.Outcome State Fault Refusal := .next ((s.setFlag .i false).charge 2)

/-- `SEI` (R217, 2 cycles). -/
def execSei (s : State) : Host.Outcome State Fault Refusal := .next ((s.setFlag .i true).charge 2)

/-- `CLD` (R218, 2 cycles). -/
def execCld (s : State) : Host.Outcome State Fault Refusal := .next ((s.setFlag .d false).charge 2)

/-- `SED` (R219, 2 cycles). -/
def execSed (s : State) : Host.Outcome State Fault Refusal := .next ((s.setFlag .d true).charge 2)

/-- `CLV` (R220, 2 cycles). -/
def execClv (s : State) : Host.Outcome State Fault Refusal := .next ((s.setFlag .v false).charge 2)

/-- `NOP` (R221, 2 cycles). Nothing happens; `PC` has advanced. -/
def execNop (s : State) : Host.Outcome State Fault Refusal := .next (s.charge 2)

/-- `BRK` (R222, 7 cycles). `PC` is `pc0 + 1` here, so the return address `pc0 + 2` is `PC + 1`; the byte after the opcode is not fetched. -/
def execBrk (s : State) : Host.Outcome State Fault Refusal :=
  .next ((enterHandler (s.cpu.pc + 1) (pushedBySoftware s.cpu.p) true irqVector s).charge 7)

/-- `RTI` (R223, 6 cycles). -/
def execRti (s : State) : Host.Outcome State Fault Refusal := .next ((returnFromInterrupt s).charge 6)

end Sys2Proof.Machine
end

