-- ==== Sys2Proof/Machine/Dispatch.lean ====
section
/-! DEFINITION. One arm per instruction: each calls the instruction's own meaning. -/

namespace Sys2Proof.Machine

def exec (i : Instr) (s : State) : Host.Outcome State Fault Refusal :=
  match i with
  | .ldaImm d => Sys2Proof.Machine.execLdaImm d s
  | .ldaZp d => Sys2Proof.Machine.execLdaZp d s
  | .ldaZpx d => Sys2Proof.Machine.execLdaZpx d s
  | .ldaAbs a => Sys2Proof.Machine.execLdaAbs a s
  | .ldaAbx a => Sys2Proof.Machine.execLdaAbx a s
  | .ldaAby a => Sys2Proof.Machine.execLdaAby a s
  | .ldaIzx d => Sys2Proof.Machine.execLdaIzx d s
  | .ldaIzy d => Sys2Proof.Machine.execLdaIzy d s
  | .ldxImm d => Sys2Proof.Machine.execLdxImm d s
  | .ldxZp d => Sys2Proof.Machine.execLdxZp d s
  | .ldxZpy d => Sys2Proof.Machine.execLdxZpy d s
  | .ldxAbs a => Sys2Proof.Machine.execLdxAbs a s
  | .ldxAby a => Sys2Proof.Machine.execLdxAby a s
  | .ldyImm d => Sys2Proof.Machine.execLdyImm d s
  | .ldyZp d => Sys2Proof.Machine.execLdyZp d s
  | .ldyZpx d => Sys2Proof.Machine.execLdyZpx d s
  | .ldyAbs a => Sys2Proof.Machine.execLdyAbs a s
  | .ldyAbx a => Sys2Proof.Machine.execLdyAbx a s
  | .staZp d => Sys2Proof.Machine.execStaZp d s
  | .staZpx d => Sys2Proof.Machine.execStaZpx d s
  | .staAbs a => Sys2Proof.Machine.execStaAbs a s
  | .staAbx a => Sys2Proof.Machine.execStaAbx a s
  | .staAby a => Sys2Proof.Machine.execStaAby a s
  | .staIzx d => Sys2Proof.Machine.execStaIzx d s
  | .staIzy d => Sys2Proof.Machine.execStaIzy d s
  | .stxZp d => Sys2Proof.Machine.execStxZp d s
  | .stxZpy d => Sys2Proof.Machine.execStxZpy d s
  | .stxAbs a => Sys2Proof.Machine.execStxAbs a s
  | .styZp d => Sys2Proof.Machine.execStyZp d s
  | .styZpx d => Sys2Proof.Machine.execStyZpx d s
  | .styAbs a => Sys2Proof.Machine.execStyAbs a s
  | .tax => Sys2Proof.Machine.execTax s
  | .tay => Sys2Proof.Machine.execTay s
  | .txa => Sys2Proof.Machine.execTxa s
  | .tya => Sys2Proof.Machine.execTya s
  | .tsx => Sys2Proof.Machine.execTsx s
  | .txs => Sys2Proof.Machine.execTxs s
  | .adcImm d => Sys2Proof.Machine.execAdcImm d s
  | .adcZp d => Sys2Proof.Machine.execAdcZp d s
  | .adcZpx d => Sys2Proof.Machine.execAdcZpx d s
  | .adcAbs a => Sys2Proof.Machine.execAdcAbs a s
  | .adcAbx a => Sys2Proof.Machine.execAdcAbx a s
  | .adcAby a => Sys2Proof.Machine.execAdcAby a s
  | .adcIzx d => Sys2Proof.Machine.execAdcIzx d s
  | .adcIzy d => Sys2Proof.Machine.execAdcIzy d s
  | .sbcImm d => Sys2Proof.Machine.execSbcImm d s
  | .sbcZp d => Sys2Proof.Machine.execSbcZp d s
  | .sbcZpx d => Sys2Proof.Machine.execSbcZpx d s
  | .sbcAbs a => Sys2Proof.Machine.execSbcAbs a s
  | .sbcAbx a => Sys2Proof.Machine.execSbcAbx a s
  | .sbcAby a => Sys2Proof.Machine.execSbcAby a s
  | .sbcIzx d => Sys2Proof.Machine.execSbcIzx d s
  | .sbcIzy d => Sys2Proof.Machine.execSbcIzy d s
  | .cmpImm d => Sys2Proof.Machine.execCmpImm d s
  | .cmpZp d => Sys2Proof.Machine.execCmpZp d s
  | .cmpZpx d => Sys2Proof.Machine.execCmpZpx d s
  | .cmpAbs a => Sys2Proof.Machine.execCmpAbs a s
  | .cmpAbx a => Sys2Proof.Machine.execCmpAbx a s
  | .cmpAby a => Sys2Proof.Machine.execCmpAby a s
  | .cmpIzx d => Sys2Proof.Machine.execCmpIzx d s
  | .cmpIzy d => Sys2Proof.Machine.execCmpIzy d s
  | .cpxImm d => Sys2Proof.Machine.execCpxImm d s
  | .cpxZp d => Sys2Proof.Machine.execCpxZp d s
  | .cpxAbs a => Sys2Proof.Machine.execCpxAbs a s
  | .cpyImm d => Sys2Proof.Machine.execCpyImm d s
  | .cpyZp d => Sys2Proof.Machine.execCpyZp d s
  | .cpyAbs a => Sys2Proof.Machine.execCpyAbs a s
  | .incZp d => Sys2Proof.Machine.execIncZp d s
  | .incZpx d => Sys2Proof.Machine.execIncZpx d s
  | .incAbs a => Sys2Proof.Machine.execIncAbs a s
  | .incAbx a => Sys2Proof.Machine.execIncAbx a s
  | .inx => Sys2Proof.Machine.execInx s
  | .iny => Sys2Proof.Machine.execIny s
  | .decZp d => Sys2Proof.Machine.execDecZp d s
  | .decZpx d => Sys2Proof.Machine.execDecZpx d s
  | .decAbs a => Sys2Proof.Machine.execDecAbs a s
  | .decAbx a => Sys2Proof.Machine.execDecAbx a s
  | .dex => Sys2Proof.Machine.execDex s
  | .dey => Sys2Proof.Machine.execDey s
  | .andImm d => Sys2Proof.Machine.execAndImm d s
  | .andZp d => Sys2Proof.Machine.execAndZp d s
  | .andZpx d => Sys2Proof.Machine.execAndZpx d s
  | .andAbs a => Sys2Proof.Machine.execAndAbs a s
  | .andAbx a => Sys2Proof.Machine.execAndAbx a s
  | .andAby a => Sys2Proof.Machine.execAndAby a s
  | .andIzx d => Sys2Proof.Machine.execAndIzx d s
  | .andIzy d => Sys2Proof.Machine.execAndIzy d s
  | .oraImm d => Sys2Proof.Machine.execOraImm d s
  | .oraZp d => Sys2Proof.Machine.execOraZp d s
  | .oraZpx d => Sys2Proof.Machine.execOraZpx d s
  | .oraAbs a => Sys2Proof.Machine.execOraAbs a s
  | .oraAbx a => Sys2Proof.Machine.execOraAbx a s
  | .oraAby a => Sys2Proof.Machine.execOraAby a s
  | .oraIzx d => Sys2Proof.Machine.execOraIzx d s
  | .oraIzy d => Sys2Proof.Machine.execOraIzy d s
  | .eorImm d => Sys2Proof.Machine.execEorImm d s
  | .eorZp d => Sys2Proof.Machine.execEorZp d s
  | .eorZpx d => Sys2Proof.Machine.execEorZpx d s
  | .eorAbs a => Sys2Proof.Machine.execEorAbs a s
  | .eorAbx a => Sys2Proof.Machine.execEorAbx a s
  | .eorAby a => Sys2Proof.Machine.execEorAby a s
  | .eorIzx d => Sys2Proof.Machine.execEorIzx d s
  | .eorIzy d => Sys2Proof.Machine.execEorIzy d s
  | .bitZp d => Sys2Proof.Machine.execBitZp d s
  | .bitAbs a => Sys2Proof.Machine.execBitAbs a s
  | .aslAcc => Sys2Proof.Machine.execAslAcc s
  | .aslZp d => Sys2Proof.Machine.execAslZp d s
  | .aslZpx d => Sys2Proof.Machine.execAslZpx d s
  | .aslAbs a => Sys2Proof.Machine.execAslAbs a s
  | .aslAbx a => Sys2Proof.Machine.execAslAbx a s
  | .lsrAcc => Sys2Proof.Machine.execLsrAcc s
  | .lsrZp d => Sys2Proof.Machine.execLsrZp d s
  | .lsrZpx d => Sys2Proof.Machine.execLsrZpx d s
  | .lsrAbs a => Sys2Proof.Machine.execLsrAbs a s
  | .lsrAbx a => Sys2Proof.Machine.execLsrAbx a s
  | .rolAcc => Sys2Proof.Machine.execRolAcc s
  | .rolZp d => Sys2Proof.Machine.execRolZp d s
  | .rolZpx d => Sys2Proof.Machine.execRolZpx d s
  | .rolAbs a => Sys2Proof.Machine.execRolAbs a s
  | .rolAbx a => Sys2Proof.Machine.execRolAbx a s
  | .rorAcc => Sys2Proof.Machine.execRorAcc s
  | .rorZp d => Sys2Proof.Machine.execRorZp d s
  | .rorZpx d => Sys2Proof.Machine.execRorZpx d s
  | .rorAbs a => Sys2Proof.Machine.execRorAbs a s
  | .rorAbx a => Sys2Proof.Machine.execRorAbx a s
  | .jmpAbs a => Sys2Proof.Machine.execJmpAbs a s
  | .jmpInd a => Sys2Proof.Machine.execJmpInd a s
  | .jsr a => Sys2Proof.Machine.execJsr a s
  | .rts => Sys2Proof.Machine.execRts s
  | .bcc d => Sys2Proof.Machine.execBcc d s
  | .bcs d => Sys2Proof.Machine.execBcs d s
  | .beq d => Sys2Proof.Machine.execBeq d s
  | .bne d => Sys2Proof.Machine.execBne d s
  | .bmi d => Sys2Proof.Machine.execBmi d s
  | .bpl d => Sys2Proof.Machine.execBpl d s
  | .bvc d => Sys2Proof.Machine.execBvc d s
  | .bvs d => Sys2Proof.Machine.execBvs d s
  | .pha => Sys2Proof.Machine.execPha s
  | .pla => Sys2Proof.Machine.execPla s
  | .php => Sys2Proof.Machine.execPhp s
  | .plp => Sys2Proof.Machine.execPlp s
  | .clc => Sys2Proof.Machine.execClc s
  | .sec => Sys2Proof.Machine.execSec s
  | .cli => Sys2Proof.Machine.execCli s
  | .sei => Sys2Proof.Machine.execSei s
  | .cld => Sys2Proof.Machine.execCld s
  | .sed => Sys2Proof.Machine.execSed s
  | .clv => Sys2Proof.Machine.execClv s
  | .nop => Sys2Proof.Machine.execNop s
  | .brk => Sys2Proof.Machine.execBrk s
  | .rti => Sys2Proof.Machine.execRti s

end Sys2Proof.Machine
end

