-- ==== Sys2Proof/Machine/Place.lean ====
section
/-! DEFINITION. Placing bytes in the machine's storage from outside, as a loader would (log 10): used to put an
instruction where the next fetch reads it. -/

namespace Sys2Proof.Machine

/-- Store a byte in a storage cell. -/
def placeCell (c : StorageCell) (v : Byte) (s : State) : State :=
  match c with
  | .ram n => { s with ram := Memory.set 0 s.ram n v }
  | .prgRam n => { s with prgRam := Memory.set 0 s.prgRam n v }
  | .prg n => { s with cart := { s.cart with prg := Memory.set 0 s.cart.prg n v } }

/-- Store a byte in the storage behind a CPU address, if there is any; PRG included. -/
def place (a : Word) (v : Byte) (s : State) : State :=
  match storageCell a s with
  | some c => placeCell c v s
  | none => s

/-- Store bytes at ascending addresses. -/
def placeAll : Word → List Byte → State → State
  | _, [], s => s
  | a, v :: vs, s => placeAll (a + 1) vs (place a v s)

/-- Whether the `k` addresses from `a` on all lie in storage. -/
def allStorage (s : State) : Word → Nat → Bool
  | _, 0 => true
  | a, k + 1 => (storageCell a s).isSome && allStorage s (a + 1) k

/-- The state with the instruction bytes `bs` where the next step fetches: at `PC`, or, when `PC` does not point into
storage that can hold them, at 0x0200 in RAM with `PC` moved there (log 10); a latched fault is cleared, since a machine
with one executes nothing. -/
def placeAtFetch (bs : List Byte) (s : State) : State :=
  let s := { s with fault := none }
  if allStorage s s.cpu.pc bs.length then placeAll s.cpu.pc bs s
  else placeAll 0x0200 bs (s.setPC 0x0200)

end Sys2Proof.Machine
end

