-- ==== Sys2Proof/WellFormed.lean ====
section
/-! DEFINITION. Well-formedness. For an instruction there is nothing to check beyond its type: every value of every
operand byte is legal (spec 30 R121), and the operand bytes are bytes by their types. What can be ill-formed is the
cartridge a machine is built from (spec 48 R311, spec 47 R305). -/

namespace Sys2Proof

/-- R121: "Operand bytes are never reserved: every value of d8, lo, hi is legal", and the type admits only bytes. -/
def Instr.wellFormed (_ : Instr) : Bool := true

/-- R311, the registry: identifier 0, the pass-through strategy, is the only entry. -/
def Cartridge.mapperRegistered (c : Cartridge) : Bool := c.mapperId == 0

/-- R311, R8: `PRG_BANKS` is 1 or 2. -/
def Cartridge.prgBanksLegal (c : Cartridge) : Bool := c.prgBanks == 1 || c.prgBanks == 2

/-- R311, R8: `CHR_BANKS` is 0 or 1. -/
def Cartridge.chrBanksLegal (c : Cartridge) : Bool := c.chrBanks == 0 || c.chrBanks == 1

/-- The configurations the spec covers (R311, R305). -/
def Cartridge.wellFormed (c : Cartridge) : Bool :=
  c.mapperRegistered && c.prgBanksLegal && c.chrBanksLegal && !c.fourScreen

end Sys2Proof
end

