-- ==== Sys2Proof/Decode.lean ====
section
/-! DEFINITION. Decoding and encoding (spec 30 R100, R102, R118 to R121). The opcode map is a list of rows, one per row
of the table of R118, in pieces by the high nibble of the opcode; decoding looks the opcode byte up and reads the
operand bytes its format asks for; it is total on any bytes and rejects by name. The encoder is written from the lists
of R119. -/

namespace Sys2Proof

/-- The three formats of R100, each with the instruction its bytes stand for. -/
inductive Format where
  | f1 (i : Instr)
  | f2 (i : Byte → Instr)
  | f3 (i : Word → Instr)

/-- One defined cell of the map of R118: the opcode byte, the base cycles, the `+` mark, the instruction. -/
structure OpRow where
  opcode : Byte
  cycles : Nat
  pagePenalty : Bool
  format : Format

/-- Why bytes are no instruction. -/
inductive DecodeError where
  /-- R120: the opcode byte has no entry in the table. -/
  | undefinedOpcode (op : Byte)
  /-- The bytes end before the instruction does (only for a decoder given a list of bytes; a fetch never runs out). -/
  | truncated
deriving DecidableEq, Repr

/-- Row 0x of the table of R118. -/
def opRows0 : List OpRow := [
  ⟨0x00, 7, false, .f1 .brk⟩,
  ⟨0x01, 6, false, .f2 .oraIzx⟩,
  ⟨0x05, 3, false, .f2 .oraZp⟩,
  ⟨0x06, 5, false, .f2 .aslZp⟩,
  ⟨0x08, 3, false, .f1 .php⟩,
  ⟨0x09, 2, false, .f2 .oraImm⟩,
  ⟨0x0A, 2, false, .f1 .aslAcc⟩,
  ⟨0x0D, 4, false, .f3 .oraAbs⟩,
  ⟨0x0E, 6, false, .f3 .aslAbs⟩]

/-- Row 1x of the table of R118. -/
def opRows1 : List OpRow := [
  ⟨0x10, 2, false, .f2 .bpl⟩,
  ⟨0x11, 5, true, .f2 .oraIzy⟩,
  ⟨0x15, 4, false, .f2 .oraZpx⟩,
  ⟨0x16, 6, false, .f2 .aslZpx⟩,
  ⟨0x18, 2, false, .f1 .clc⟩,
  ⟨0x19, 4, true, .f3 .oraAby⟩,
  ⟨0x1D, 4, true, .f3 .oraAbx⟩,
  ⟨0x1E, 7, false, .f3 .aslAbx⟩]

/-- Row 2x of the table of R118. -/
def opRows2 : List OpRow := [
  ⟨0x20, 6, false, .f3 .jsr⟩,
  ⟨0x21, 6, false, .f2 .andIzx⟩,
  ⟨0x24, 3, false, .f2 .bitZp⟩,
  ⟨0x25, 3, false, .f2 .andZp⟩,
  ⟨0x26, 5, false, .f2 .rolZp⟩,
  ⟨0x28, 4, false, .f1 .plp⟩,
  ⟨0x29, 2, false, .f2 .andImm⟩,
  ⟨0x2A, 2, false, .f1 .rolAcc⟩,
  ⟨0x2C, 4, false, .f3 .bitAbs⟩,
  ⟨0x2D, 4, false, .f3 .andAbs⟩,
  ⟨0x2E, 6, false, .f3 .rolAbs⟩]

/-- Row 3x of the table of R118. -/
def opRows3 : List OpRow := [
  ⟨0x30, 2, false, .f2 .bmi⟩,
  ⟨0x31, 5, true, .f2 .andIzy⟩,
  ⟨0x35, 4, false, .f2 .andZpx⟩,
  ⟨0x36, 6, false, .f2 .rolZpx⟩,
  ⟨0x38, 2, false, .f1 .sec⟩,
  ⟨0x39, 4, true, .f3 .andAby⟩,
  ⟨0x3D, 4, true, .f3 .andAbx⟩,
  ⟨0x3E, 7, false, .f3 .rolAbx⟩]

/-- Row 4x of the table of R118. -/
def opRows4 : List OpRow := [
  ⟨0x40, 6, false, .f1 .rti⟩,
  ⟨0x41, 6, false, .f2 .eorIzx⟩,
  ⟨0x45, 3, false, .f2 .eorZp⟩,
  ⟨0x46, 5, false, .f2 .lsrZp⟩,
  ⟨0x48, 3, false, .f1 .pha⟩,
  ⟨0x49, 2, false, .f2 .eorImm⟩,
  ⟨0x4A, 2, false, .f1 .lsrAcc⟩,
  ⟨0x4C, 3, false, .f3 .jmpAbs⟩,
  ⟨0x4D, 4, false, .f3 .eorAbs⟩,
  ⟨0x4E, 6, false, .f3 .lsrAbs⟩]

/-- Row 5x of the table of R118. -/
def opRows5 : List OpRow := [
  ⟨0x50, 2, false, .f2 .bvc⟩,
  ⟨0x51, 5, true, .f2 .eorIzy⟩,
  ⟨0x55, 4, false, .f2 .eorZpx⟩,
  ⟨0x56, 6, false, .f2 .lsrZpx⟩,
  ⟨0x58, 2, false, .f1 .cli⟩,
  ⟨0x59, 4, true, .f3 .eorAby⟩,
  ⟨0x5D, 4, true, .f3 .eorAbx⟩,
  ⟨0x5E, 7, false, .f3 .lsrAbx⟩]

/-- Row 6x of the table of R118. -/
def opRows6 : List OpRow := [
  ⟨0x60, 6, false, .f1 .rts⟩,
  ⟨0x61, 6, false, .f2 .adcIzx⟩,
  ⟨0x65, 3, false, .f2 .adcZp⟩,
  ⟨0x66, 5, false, .f2 .rorZp⟩,
  ⟨0x68, 4, false, .f1 .pla⟩,
  ⟨0x69, 2, false, .f2 .adcImm⟩,
  ⟨0x6A, 2, false, .f1 .rorAcc⟩,
  ⟨0x6C, 5, false, .f3 .jmpInd⟩,
  ⟨0x6D, 4, false, .f3 .adcAbs⟩,
  ⟨0x6E, 6, false, .f3 .rorAbs⟩]

/-- Row 7x of the table of R118. -/
def opRows7 : List OpRow := [
  ⟨0x70, 2, false, .f2 .bvs⟩,
  ⟨0x71, 5, true, .f2 .adcIzy⟩,
  ⟨0x75, 4, false, .f2 .adcZpx⟩,
  ⟨0x76, 6, false, .f2 .rorZpx⟩,
  ⟨0x78, 2, false, .f1 .sei⟩,
  ⟨0x79, 4, true, .f3 .adcAby⟩,
  ⟨0x7D, 4, true, .f3 .adcAbx⟩,
  ⟨0x7E, 7, false, .f3 .rorAbx⟩]

/-- Row 8x of the table of R118. -/
def opRows8 : List OpRow := [
  ⟨0x81, 6, false, .f2 .staIzx⟩,
  ⟨0x84, 3, false, .f2 .styZp⟩,
  ⟨0x85, 3, false, .f2 .staZp⟩,
  ⟨0x86, 3, false, .f2 .stxZp⟩,
  ⟨0x88, 2, false, .f1 .dey⟩,
  ⟨0x8A, 2, false, .f1 .txa⟩,
  ⟨0x8C, 4, false, .f3 .styAbs⟩,
  ⟨0x8D, 4, false, .f3 .staAbs⟩,
  ⟨0x8E, 4, false, .f3 .stxAbs⟩]

/-- Row 9x of the table of R118. -/
def opRows9 : List OpRow := [
  ⟨0x90, 2, false, .f2 .bcc⟩,
  ⟨0x91, 6, false, .f2 .staIzy⟩,
  ⟨0x94, 4, false, .f2 .styZpx⟩,
  ⟨0x95, 4, false, .f2 .staZpx⟩,
  ⟨0x96, 4, false, .f2 .stxZpy⟩,
  ⟨0x98, 2, false, .f1 .tya⟩,
  ⟨0x99, 5, false, .f3 .staAby⟩,
  ⟨0x9A, 2, false, .f1 .txs⟩,
  ⟨0x9D, 5, false, .f3 .staAbx⟩]

/-- Row Ax of the table of R118. -/
def opRowsA : List OpRow := [
  ⟨0xA0, 2, false, .f2 .ldyImm⟩,
  ⟨0xA1, 6, false, .f2 .ldaIzx⟩,
  ⟨0xA2, 2, false, .f2 .ldxImm⟩,
  ⟨0xA4, 3, false, .f2 .ldyZp⟩,
  ⟨0xA5, 3, false, .f2 .ldaZp⟩,
  ⟨0xA6, 3, false, .f2 .ldxZp⟩,
  ⟨0xA8, 2, false, .f1 .tay⟩,
  ⟨0xA9, 2, false, .f2 .ldaImm⟩,
  ⟨0xAA, 2, false, .f1 .tax⟩,
  ⟨0xAC, 4, false, .f3 .ldyAbs⟩,
  ⟨0xAD, 4, false, .f3 .ldaAbs⟩,
  ⟨0xAE, 4, false, .f3 .ldxAbs⟩]

/-- Row Bx of the table of R118. -/
def opRowsB : List OpRow := [
  ⟨0xB0, 2, false, .f2 .bcs⟩,
  ⟨0xB1, 5, true, .f2 .ldaIzy⟩,
  ⟨0xB4, 4, false, .f2 .ldyZpx⟩,
  ⟨0xB5, 4, false, .f2 .ldaZpx⟩,
  ⟨0xB6, 4, false, .f2 .ldxZpy⟩,
  ⟨0xB8, 2, false, .f1 .clv⟩,
  ⟨0xB9, 4, true, .f3 .ldaAby⟩,
  ⟨0xBA, 2, false, .f1 .tsx⟩,
  ⟨0xBC, 4, true, .f3 .ldyAbx⟩,
  ⟨0xBD, 4, true, .f3 .ldaAbx⟩,
  ⟨0xBE, 4, true, .f3 .ldxAby⟩]

/-- Row Cx of the table of R118. -/
def opRowsC : List OpRow := [
  ⟨0xC0, 2, false, .f2 .cpyImm⟩,
  ⟨0xC1, 6, false, .f2 .cmpIzx⟩,
  ⟨0xC4, 3, false, .f2 .cpyZp⟩,
  ⟨0xC5, 3, false, .f2 .cmpZp⟩,
  ⟨0xC6, 5, false, .f2 .decZp⟩,
  ⟨0xC8, 2, false, .f1 .iny⟩,
  ⟨0xC9, 2, false, .f2 .cmpImm⟩,
  ⟨0xCA, 2, false, .f1 .dex⟩,
  ⟨0xCC, 4, false, .f3 .cpyAbs⟩,
  ⟨0xCD, 4, false, .f3 .cmpAbs⟩,
  ⟨0xCE, 6, false, .f3 .decAbs⟩]

/-- Row Dx of the table of R118. -/
def opRowsD : List OpRow := [
  ⟨0xD0, 2, false, .f2 .bne⟩,
  ⟨0xD1, 5, true, .f2 .cmpIzy⟩,
  ⟨0xD5, 4, false, .f2 .cmpZpx⟩,
  ⟨0xD6, 6, false, .f2 .decZpx⟩,
  ⟨0xD8, 2, false, .f1 .cld⟩,
  ⟨0xD9, 4, true, .f3 .cmpAby⟩,
  ⟨0xDD, 4, true, .f3 .cmpAbx⟩,
  ⟨0xDE, 7, false, .f3 .decAbx⟩]

/-- Row Ex of the table of R118. -/
def opRowsE : List OpRow := [
  ⟨0xE0, 2, false, .f2 .cpxImm⟩,
  ⟨0xE1, 6, false, .f2 .sbcIzx⟩,
  ⟨0xE4, 3, false, .f2 .cpxZp⟩,
  ⟨0xE5, 3, false, .f2 .sbcZp⟩,
  ⟨0xE6, 5, false, .f2 .incZp⟩,
  ⟨0xE8, 2, false, .f1 .inx⟩,
  ⟨0xE9, 2, false, .f2 .sbcImm⟩,
  ⟨0xEA, 2, false, .f1 .nop⟩,
  ⟨0xEC, 4, false, .f3 .cpxAbs⟩,
  ⟨0xED, 4, false, .f3 .sbcAbs⟩,
  ⟨0xEE, 6, false, .f3 .incAbs⟩]

/-- Row Fx of the table of R118. -/
def opRowsF : List OpRow := [
  ⟨0xF0, 2, false, .f2 .beq⟩,
  ⟨0xF1, 5, true, .f2 .sbcIzy⟩,
  ⟨0xF5, 4, false, .f2 .sbcZpx⟩,
  ⟨0xF6, 6, false, .f2 .incZpx⟩,
  ⟨0xF8, 2, false, .f1 .sed⟩,
  ⟨0xF9, 4, true, .f3 .sbcAby⟩,
  ⟨0xFD, 4, true, .f3 .sbcAbx⟩,
  ⟨0xFE, 7, false, .f3 .incAbx⟩]

/-- The opcode map (R118): 151 rows. -/
def opTable : List OpRow :=
  opRows0 ++ opRows1 ++ opRows2 ++ opRows3 ++ opRows4 ++ opRows5 ++ opRows6 ++ opRows7 ++
  opRows8 ++ opRows9 ++ opRowsA ++ opRowsB ++ opRowsC ++ opRowsD ++ opRowsE ++ opRowsF

/-- The row of an opcode byte (R102); `none` for the 105 undefined bytes (R120). -/
def opRow (op : Byte) : Option OpRow := opTable.find? (fun r => r.opcode == op)

/-- The length of a format in bytes (R100). -/
def Format.length : Format → Nat
  | .f1 _ => 1
  | .f2 _ => 2
  | .f3 _ => 3

/-- The instruction a format makes of the bytes after the opcode, with the bytes left over (R100, R102). -/
def Format.read : Format → List Byte → Except DecodeError (Instr × List Byte)
  | .f1 i, rest => .ok (i, rest)
  | .f2 i, d :: rest => .ok (i d, rest)
  | .f3 i, lo :: hi :: rest => .ok (i (Machine.wordOf lo hi), rest)
  | _, _ => .error .truncated

/-- Decode the instruction at the head of a list of bytes (R102): the instruction and the bytes after it. -/
def decode : List Byte → Except DecodeError (Instr × List Byte)
  | [] => .error .truncated
  | op :: rest =>
    match opRow op with
    | none => .error (.undefinedOpcode op)
    | some r => r.format.read rest

/-- The instruction the decoder reads from the bits `w` of a table row of `nbits` bits, laid out in memory order, the
first byte lowest, with every bit above `nbits` zero up to the longest instruction (three bytes). -/
def decodeTableWord (nbits w : Nat) : Option Instr :=
  match decode (Machine.bytesOfNat (w % 2 ^ nbits) 3) with
  | .ok (i, _) => some i
  | .error _ => none

/-- The opcode byte of an instruction (R119). -/
def Instr.opcode : Instr → Byte
  | .ldaImm _ => 0xA9
  | .ldaZp _ => 0xA5
  | .ldaZpx _ => 0xB5
  | .ldaAbs _ => 0xAD
  | .ldaAbx _ => 0xBD
  | .ldaAby _ => 0xB9
  | .ldaIzx _ => 0xA1
  | .ldaIzy _ => 0xB1
  | .ldxImm _ => 0xA2
  | .ldxZp _ => 0xA6
  | .ldxZpy _ => 0xB6
  | .ldxAbs _ => 0xAE
  | .ldxAby _ => 0xBE
  | .ldyImm _ => 0xA0
  | .ldyZp _ => 0xA4
  | .ldyZpx _ => 0xB4
  | .ldyAbs _ => 0xAC
  | .ldyAbx _ => 0xBC
  | .staZp _ => 0x85
  | .staZpx _ => 0x95
  | .staAbs _ => 0x8D
  | .staAbx _ => 0x9D
  | .staAby _ => 0x99
  | .staIzx _ => 0x81
  | .staIzy _ => 0x91
  | .stxZp _ => 0x86
  | .stxZpy _ => 0x96
  | .stxAbs _ => 0x8E
  | .styZp _ => 0x84
  | .styZpx _ => 0x94
  | .styAbs _ => 0x8C
  | .tax => 0xAA
  | .tay => 0xA8
  | .txa => 0x8A
  | .tya => 0x98
  | .tsx => 0xBA
  | .txs => 0x9A
  | .adcImm _ => 0x69
  | .adcZp _ => 0x65
  | .adcZpx _ => 0x75
  | .adcAbs _ => 0x6D
  | .adcAbx _ => 0x7D
  | .adcAby _ => 0x79
  | .adcIzx _ => 0x61
  | .adcIzy _ => 0x71
  | .sbcImm _ => 0xE9
  | .sbcZp _ => 0xE5
  | .sbcZpx _ => 0xF5
  | .sbcAbs _ => 0xED
  | .sbcAbx _ => 0xFD
  | .sbcAby _ => 0xF9
  | .sbcIzx _ => 0xE1
  | .sbcIzy _ => 0xF1
  | .cmpImm _ => 0xC9
  | .cmpZp _ => 0xC5
  | .cmpZpx _ => 0xD5
  | .cmpAbs _ => 0xCD
  | .cmpAbx _ => 0xDD
  | .cmpAby _ => 0xD9
  | .cmpIzx _ => 0xC1
  | .cmpIzy _ => 0xD1
  | .cpxImm _ => 0xE0
  | .cpxZp _ => 0xE4
  | .cpxAbs _ => 0xEC
  | .cpyImm _ => 0xC0
  | .cpyZp _ => 0xC4
  | .cpyAbs _ => 0xCC
  | .incZp _ => 0xE6
  | .incZpx _ => 0xF6
  | .incAbs _ => 0xEE
  | .incAbx _ => 0xFE
  | .inx => 0xE8
  | .iny => 0xC8
  | .decZp _ => 0xC6
  | .decZpx _ => 0xD6
  | .decAbs _ => 0xCE
  | .decAbx _ => 0xDE
  | .dex => 0xCA
  | .dey => 0x88
  | .andImm _ => 0x29
  | .andZp _ => 0x25
  | .andZpx _ => 0x35
  | .andAbs _ => 0x2D
  | .andAbx _ => 0x3D
  | .andAby _ => 0x39
  | .andIzx _ => 0x21
  | .andIzy _ => 0x31
  | .oraImm _ => 0x09
  | .oraZp _ => 0x05
  | .oraZpx _ => 0x15
  | .oraAbs _ => 0x0D
  | .oraAbx _ => 0x1D
  | .oraAby _ => 0x19
  | .oraIzx _ => 0x01
  | .oraIzy _ => 0x11
  | .eorImm _ => 0x49
  | .eorZp _ => 0x45
  | .eorZpx _ => 0x55
  | .eorAbs _ => 0x4D
  | .eorAbx _ => 0x5D
  | .eorAby _ => 0x59
  | .eorIzx _ => 0x41
  | .eorIzy _ => 0x51
  | .bitZp _ => 0x24
  | .bitAbs _ => 0x2C
  | .aslAcc => 0x0A
  | .aslZp _ => 0x06
  | .aslZpx _ => 0x16
  | .aslAbs _ => 0x0E
  | .aslAbx _ => 0x1E
  | .lsrAcc => 0x4A
  | .lsrZp _ => 0x46
  | .lsrZpx _ => 0x56
  | .lsrAbs _ => 0x4E
  | .lsrAbx _ => 0x5E
  | .rolAcc => 0x2A
  | .rolZp _ => 0x26
  | .rolZpx _ => 0x36
  | .rolAbs _ => 0x2E
  | .rolAbx _ => 0x3E
  | .rorAcc => 0x6A
  | .rorZp _ => 0x66
  | .rorZpx _ => 0x76
  | .rorAbs _ => 0x6E
  | .rorAbx _ => 0x7E
  | .jmpAbs _ => 0x4C
  | .jmpInd _ => 0x6C
  | .jsr _ => 0x20
  | .rts => 0x60
  | .bcc _ => 0x90
  | .bcs _ => 0xB0
  | .beq _ => 0xF0
  | .bne _ => 0xD0
  | .bmi _ => 0x30
  | .bpl _ => 0x10
  | .bvc _ => 0x50
  | .bvs _ => 0x70
  | .pha => 0x48
  | .pla => 0x68
  | .php => 0x08
  | .plp => 0x28
  | .clc => 0x18
  | .sec => 0x38
  | .cli => 0x58
  | .sei => 0x78
  | .cld => 0xD8
  | .sed => 0xF8
  | .clv => 0xB8
  | .nop => 0xEA
  | .brk => 0x00
  | .rti => 0x40

/-- The operand bytes of an operand, in memory order (R100, R73). -/
def Operand.bytes : Operand → List Byte
  | .imp => []
  | .acc => []
  | .imm d => [d]
  | .zp d => [d]
  | .zpx d => [d]
  | .zpy d => [d]
  | .abs a => [Machine.loByte a, Machine.hiByte a]
  | .abx a => [Machine.loByte a, Machine.hiByte a]
  | .aby a => [Machine.loByte a, Machine.hiByte a]
  | .ind a => [Machine.loByte a, Machine.hiByte a]
  | .izx d => [d]
  | .izy d => [d]
  | .rel d => [d]

/-- The bytes of an instruction, in memory order (R100, R119). -/
def encode (i : Instr) : List Byte := i.opcode :: i.operand.bytes

/-- The length of an instruction in bytes (R100: 1, 2 or 3). -/
def Instr.length (i : Instr) : Nat := (encode i).length

/-- The base cycle cost of an instruction, from its row of the table (R117, R118). -/
def Instr.baseCycles (i : Instr) : Nat :=
  match opRow i.opcode with
  | some r => r.cycles
  | none => 0

/-- The `+` mark of an instruction's row (R117, R118). -/
def Instr.pagePenalty (i : Instr) : Bool :=
  match opRow i.opcode with
  | some r => r.pagePenalty
  | none => false

end Sys2Proof
end

