-- ==== Sys2Proof/Machine/PpuEngine.lean ====
section
/-! DEFINITION. The PPU scanline and cycle state machine (spec 46 R260 to R288): tile fetch, background row, sprite
evaluation and compositing, the events bound to positions, one tick. -/

namespace Sys2Proof.Machine

/-! ### The fields of a video address (R31) -/

/-- Coarse X: `a[4:0]`. -/
def coarseX (a : VAddr) : BitVec 5 := a.extractLsb' 0 5

/-- Coarse Y: `a[9:5]`. -/
def coarseY (a : VAddr) : BitVec 5 := a.extractLsb' 5 5

/-- Fine Y: `a[14:12]`. -/
def fineY (a : VAddr) : BitVec 3 := a.extractLsb' 12 3

/-- `a` with coarse Y replaced. -/
def withCoarseY (y : BitVec 5) (a : VAddr) : VAddr := (a &&& 0x7C1F#15) ||| (y.setWidth 15 <<< 5)

/-- `a` with fine Y replaced. -/
def withFineY (y : BitVec 3) (a : VAddr) : VAddr := (a &&& 0x0FFF#15) ||| (y.setWidth 15 <<< 12)

/-- `IncCoarseX(a)` (R277): the equality is on the whole 5-bit field. -/
def incCoarseX (a : VAddr) : VAddr := if coarseX a = 0x1F then a ^^^ 0x041F#15 else a + 1

/-- The vertical half of `VUpdate` (R276): the next pixel row. -/
def incFineY (v : VAddr) : VAddr :=
  if fineY v ≠ 7 then withFineY (fineY v + 1) v
  else
    let v := withFineY 0 v
    if coarseY v = 29 then withCoarseY 0 (v ^^^ 0x0800#15)
    else if coarseY v = 31 then withCoarseY 0 v
    else withCoarseY (coarseY v + 1) v

/-- The horizontal half of `VUpdate` (R276): `v <- (v & 0x7BE0) | (t & 0x041F)`. -/
def reloadHorizontal (t v : VAddr) : VAddr := (v &&& 0x7BE0#15) ||| (t &&& 0x041F#15)

/-! ### Background -/

/-- The address of an attribute byte (R266). -/
def attrAddr (a : VAddr) : PAddr :=
  0x23C0#14 ||| (a.setWidth 14 &&& 0x0C00#14) ||| ((a >>> 4).setWidth 14 &&& 0x38#14) ||| ((a >>> 2).setWidth 14 &&& 0x07#14)

/-- The quadrant shift 0, 2, 4 or 6 (R266). -/
def attrShift (a : VAddr) : Nat := (((a >>> 4) &&& 4) ||| (a &&& 2)).toNat

/-- `AttrGroup(a)` (R266). -/
def attrGroup (a : VAddr) (s : State) : BitVec 2 :=
  (ppuMemRead (attrAddr a) s >>> attrShift a).extractLsb' 0 2

/-- A fetched tile row: the low and high bit-planes and the palette group (R264). -/
structure TileRow where
  lo : Byte
  hi : Byte
  group : BitVec 2
deriving DecidableEq, Repr

/-- The pattern address of a background tile (R264): `(tile << 4) | background_pattern_select | fine_Y`. -/
def bgPatternAddr (tile : Byte) (table : Bool) (fine : BitVec 3) : PAddr :=
  (tile.setWidth 14 <<< 4) ||| ((BitVec.ofBool table).setWidth 14 <<< 12) ||| fine.setWidth 14

/-- `FetchTile(a)` (R264). -/
def fetchTile (a : VAddr) (s : State) : TileRow :=
  let tile := ppuMemRead (0x2000#14 ||| (a.setWidth 14 &&& 0x0FFF#14)) s
  let pa := bgPatternAddr tile s.ppu.bgTable (fineY a)
  ⟨ppuMemRead pa s, ppuMemRead (pa + 8) s, attrGroup a s⟩

/-- The tiles of a row from `a` on (R265): each next address is `IncCoarseX` of the one before. -/
def fetchTiles (s : State) : Nat → VAddr → List TileRow
  | 0, _ => []
  | k + 1, a => fetchTile a s :: fetchTiles s k (incCoarseX a)

/-- The two-bit pattern value of bit `bit` of two bit-planes: `lo[bit] | (hi[bit] << 1)` (R265, R274). -/
def patternValue (lo hi : Byte) (bit : Nat) : BitVec 2 :=
  BitVec.ofNat 2 (bitNat (lo.getLsbD bit) + 2 * bitNat (hi.getLsbD bit))

/-- The colour of a palette entry: the byte `& 0x3F` (R38, R267). -/
def paletteColor (i : Nat) (s : State) : BitVec 6 := (Memory.get 0 s.ppu.palette i).extractLsb' 0 6

/-- `BgColour(g, px)` (R267): a transparent pixel shows `palette[0]` whatever its group. -/
def bgColor (g px : BitVec 2) (s : State) : BitVec 6 :=
  if px = 0 then paletteColor 0 s else paletteColor (4 * g.toNat + px.toNat) s

/-- The pattern value and palette group of screen pixel `x` of a row, before the left-column flag (R265). -/
def bgPattern (tiles : List TileRow) (fine : BitVec 3) (x : Nat) : BitVec 2 × BitVec 2 :=
  let j := x + fine.toNat
  let t := tiles.getD (j / 8) ⟨0, 0, 0⟩
  (patternValue t.lo t.hi (7 - j % 8), t.group)

/-- The composition entry of background pixel `x` (R265, R267, R268). -/
def bgPixel (tiles : List TileRow) (x : Nat) (s : State) : Pixel :=
  let p := bgPattern tiles s.ppu.fineX x
  let px := if x < 8 ∧ s.ppu.showBgLeft = false then 0 else p.1
  ⟨bgColor p.2 px s, px, none⟩

/-- `RenderBackgroundRow(y)` (R265): every entry of row `y` is overwritten; `v` is not written. -/
def renderBackgroundRow (y : Nat) (s : State) : State :=
  let tiles := fetchTiles s 33 s.ppu.v
  { s with
    ppu := { s.ppu with comp := Memory.splice Pixel.clear s.ppu.comp (y * 256) 256 (fun x => bgPixel tiles x s) } }

/-! ### Sprites -/

/-- The byte `oam[4 i + k]` of sprite `i` (R35). -/
def oamField (i : Fin 64) (k : Nat) (s : State) : Byte := Memory.get 0 s.ppu.oam (4 * i.val + k)

/-- The sprite height: 8 or 16 (R270). -/
def spriteHeight (s : State) : Nat := if s.ppu.spriteSize then 16 else 8

/-- `InRange(i, y, h)` (R271): `oam[4i] + 1 <= y <= oam[4i] + h` on naturals. -/
def inRange (i : Fin 64) (y h : Nat) (s : State) : Bool :=
  decide ((oamField i 0 s).toNat + 1 ≤ y ∧ y ≤ (oamField i 0 s).toNat + h)

/-- The pattern address of a sprite row (R273): `r` is the row within the sprite. -/
def spriteRowAddr (h r : Nat) (table : Bool) (tile attr : Byte) : PAddr :=
  let r := if attr.getLsbD 7 then h - 1 - r else r
  if h = 8 then BitVec.ofNat 14 (bitNat table * 0x1000 + tile.toNat * 16 + r)
  else
    let tt := tile.toNat / 2 * 2 + (if 8 ≤ r then 1 else 0)
    BitVec.ofNat 14 (tile.toNat % 2 * 0x1000 + tt * 16 + r % 8)

/-- One pixel of `CompositeSprite` (R274, R275): column `c` of sprite `i` on row `y`. -/
def spritePixel (i : Fin 64) (y : Nat) (lo hi attr x0 : Byte) (c : Nat) (s : State) : State :=
  let x := x0.toNat + c
  let px := patternValue lo hi (if attr.getLsbD 6 then c else 7 - c)
  if 255 < x then s
  else if px = 0 then s
  else if x < 8 ∧ s.ppu.showSpritesLeft = false then s
  else
    let e := Memory.get Pixel.clear s.ppu.comp (y * 256 + x)
    let s :=
      if i = 0 ∧ e.owner = none ∧ e.opacity ≠ 0 then { s with ppu := { s.ppu with status := putBit 6 true s.ppu.status } }
      else s
    if e.owner ≠ none then s
    else if e.opacity ≠ 0 ∧ attr.getLsbD 5 = true then s
    else
      let color := paletteColor (0x10 + 4 * (attr.extractLsb' 0 2).toNat + px.toNat) s
      { s with ppu := { s.ppu with comp := Memory.set Pixel.clear s.ppu.comp (y * 256 + x) ⟨color, px, some i⟩ } }

/-- The first `k` columns of `CompositeSprite` (R274), left to right. -/
def spriteColumns (i : Fin 64) (y : Nat) (lo hi attr x0 : Byte) : Nat → State → State
  | 0, s => s
  | k + 1, s => spritePixel i y lo hi attr x0 k (spriteColumns i y lo hi attr x0 k s)

/-- `CompositeSprite(i, y, h)` (R273, R274). -/
def compositeSprite (i : Fin 64) (y h : Nat) (s : State) : State :=
  let attr := oamField i 2 s
  let pa := spriteRowAddr h (y - ((oamField i 0 s).toNat + 1)) s.ppu.spriteTable (oamField i 1 s) attr
  spriteColumns i y (ppuMemRead pa s) (ppuMemRead (pa + 8) s) attr (oamField i 3 s) 8 s

/-- The loop of `EvaluateSprites` (R270, R272) over the OAM indexes still to look at, with the sprites selected so far;
a ninth in-range sprite sets the overflow flag and ends the loop when the limit is enabled. -/
def evaluateFrom (y h : Nat) : List (Fin 64) → Nat → State → State
  | [], _, s => s
  | i :: is, count, s =>
    if inRange i y h s = false then evaluateFrom y h is count s
    else if s.params.spriteLimitEnabled = true ∧ count = 8 then
      { s with ppu := { s.ppu with status := putBit 5 true s.ppu.status } }
    else evaluateFrom y h is (count + 1) (compositeSprite i y h s)

/-- `EvaluateSprites(y)` (R270), in OAM order. -/
def evaluateSprites (y : Nat) (s : State) : State :=
  evaluateFrom y (spriteHeight s) (List.finRange 64) 0 s

/-! ### The events (R262) -/

/-- The event of cycle `RENDER_CYCLE` of visible scanline `y` (R263, R286). -/
def renderRow (y : Nat) (s : State) : State :=
  let s := if s.ppu.showBg then renderBackgroundRow y s else s
  if s.ppu.showSprites then evaluateSprites y s else s

/-- `VUpdate()` (R276). -/
def vUpdate (s : State) : State :=
  { s with ppu := { s.ppu with v := reloadHorizontal s.ppu.t (incFineY s.ppu.v) } }

/-- The events of visible scanline `y` at the stored cycle (R263). -/
def visibleEvents (y : Nat) (s : State) : State :=
  let s := if s.ppu.cycle = s.params.renderCycle then renderRow y s else s
  if s.ppu.cycle = s.params.vupdateCycle ∧ s.ppu.rendering = true then vUpdate s else s

/-- Where entry `p` of the composition buffer goes in a cropped output buffer (R281); `none` if it is cropped away. -/
def cropIndex (p : Nat) : Option Nat :=
  if 8 ≤ p % 256 ∧ p % 256 ≤ 247 ∧ 8 ≤ p / 256 ∧ p / 256 ≤ 231 then some ((p / 256 - 8) * 240 + (p % 256 - 8)) else none

/-- The output buffer of a drain (R280, R281): the colours of the composition entries that are not 0, which is what an
unlisted entry of the output reads as. -/
def drainedOut (crop : Bool) (comp : Sparse Pixel) : Sparse (BitVec 6) :=
  comp.filterMap fun c =>
    if c.2.color = 0 then none
    else if crop then (cropIndex c.1).map (fun q => (q, c.2.color))
    else some (c.1, c.2.color)

/-- `Drain()` (R280, R281). -/
def drain (s : State) : State :=
  { s with ppu := { s.ppu with out := drainedOut s.params.overscanCrop s.ppu.comp, comp := [] } }

/-- The flag and request part of the tick at (240,1) (R278, R279). -/
def startVblank (s : State) : State :=
  let s :=
    if s.ppu.suppressVbl then s
    else
      let s := { s with ppu := { s.ppu with status := putBit 7 true s.ppu.status } }
      if s.ppu.nmiEnable then requestInterrupt .nmi s else s
  { s with ppu := { s.ppu with suppressVbl := false } }

/-- The tick at (260,1) (R282). -/
def endVblank (s : State) : State :=
  { s with ppu := { s.ppu with status := putBit 7 false s.ppu.status } }

/-- The tick at (-1,1) (R284). -/
def clearSpriteFlags (s : State) : State :=
  { s with ppu := { s.ppu with status := putBit 5 false (putBit 6 false s.ppu.status) } }

/-- The tick at (-1,304) (R284): all 15 bits are copied. -/
def reloadScroll (s : State) : State :=
  if s.ppu.rendering then { s with ppu := { s.ppu with v := s.ppu.t } } else s

/-- `Events(scanline, cycle)` (R262): every pair not listed has no event. -/
def ppuEvents (s : State) : State :=
  if 0 ≤ s.ppu.scanline ∧ s.ppu.scanline ≤ 239 then visibleEvents s.ppu.scanline.toNat s
  else if s.ppu.scanline = 240 ∧ s.ppu.cycle = 1 then drain (startVblank s)
  else if s.ppu.scanline = 260 ∧ s.ppu.cycle = 1 then endVblank s
  else if s.ppu.scanline = -1 ∧ s.ppu.cycle = 1 then clearSpriteFlags s
  else if s.ppu.scanline = -1 ∧ s.ppu.cycle = 304 then reloadScroll s
  else s

/-- The advance of the position (R261, R283). -/
def Ppu.advance (r : Ppu) : Ppu :=
  if r.cycle + 1 = Config.cyclesPerScanline then
    if r.scanline = 260 then { r with cycle := 0, scanline := -1, frame := r.frame + 1 }
    else { r with cycle := 0, scanline := r.scanline + 1 }
  else { r with cycle := r.cycle + 1 }

/-- `PpuTick()` (R261): the events of the stored pair, then the advance. -/
def ppuTick (s : State) : State :=
  let s := ppuEvents s
  { s with ppu := s.ppu.advance }

/-- `k` ticks, one after another (R333). -/
def ppuTicks : Nat → State → State
  | 0, s => s
  | k + 1, s => ppuTicks k (ppuTick s)

end Sys2Proof.Machine
end

