-- ==== Sys2Proof/Machine/Sync.lean ====
section
/-! DEFINITION. The cycle synchronizer around the instruction: fetching it, turning its cycles into PPU ticks, the
dispatch check, latching the fault (spec 30 R101, R102, R116, spec 49 R331 to R339, spec 60 R351). -/

namespace Sys2Proof.Machine

/-- `Fetch8()` (R101). -/
def fetch8 (s : State) : Byte × State :=
  let r := memRead s.cpu.pc s
  (r.1, r.2.setPC (r.2.cpu.pc + 1))

/-- `k` bytes by `Fetch8()`, in ascending address order (R73, R101). -/
def fetchBytes : Nat → State → List Byte × State
  | 0, s => ([], s)
  | k + 1, s =>
    let b := fetch8 s
    let r := fetchBytes k b.2
    (b.1 :: r.1, r.2)

/-- The fetch and decode part of `CpuStep` (R102, R116): the instruction, and the state with `PC` past its last byte;
or, for an opcode byte with no entry, that byte and the state after its bus read, `PC` still at it. -/
def fetch (s : State) : Except Byte Instr × State :=
  let op := memRead s.cpu.pc s
  match opRow op.1 with
  | none => (.error op.1, op.2)
  | some row =>
    let r := fetchBytes (row.format.length - 1) (op.2.setPC (op.2.cpu.pc + 1))
    match row.format.read r.1 with
    | .ok i => (.ok i.1, r.2)
    | .error _ => (.error op.1, op.2)

/-- The latched fault of an undefined opcode (R351): nothing else changes. -/
def latchFault (pc : Word) (op : Byte) (s : State) : State := { s with fault := some (.unsupportedOpcode pc op) }

/-- `DispatchCheck()` (R334, R335): at most one request is taken, RESET, NMI, or IRQ with `P.I` clear; a masked IRQ
stays in the slot. -/
def dispatchCheck (s : State) : State :=
  match s.line with
  | .none => s
  | .reset => { cpuReset s with line := .none }
  | .nmi =>
    let s := enterNmi s
    { s with line := .none, stall := s.stall + s.params.interruptCycles }
  | .irq =>
    if s.flag .i then s
    else
      let s := enterIrq s
      { s with line := .none, stall := s.stall + s.params.interruptCycles }

/-- Transition (2) up to the ticks (R331, R333): `n <- cost + stall; stall <- 0`, `cpuCycles` grows by `n`, and the PPU
executes `3 n` ticks. -/
def spendCycles (s : State) : State :=
  let n := s.cost + s.stall
  ppuTicks (Config.ticksPerCycle * n) { s with cost := 0, stall := 0, cpuCycles := s.cpuCycles + n }

/-- What `SyncStep` does after the instruction (R331): the ticks, then the dispatch check. The per-instruction hook
changes no state (R339; log 15). -/
def afterInstruction (s : State) : State := dispatchCheck (spendCycles s)

end Sys2Proof.Machine
end

