-- ==== Sys2Proof/Machine/Step.lean ====
section
/-! DEFINITION. One step of the whole machine, `SyncStep` (spec 49 R331), and placing an instruction where the next step
fetches it. -/

namespace Sys2Proof.Machine

/-- `SyncStep()` (R331, R351, R46): a machine with a latched fault takes no step and answers it; an undefined opcode
latches its fault and nothing after it in the step happens (log 1); otherwise the fetched instruction is executed and
the synchronizer spends its cycles and looks at the InterruptLine. -/
def step (s : State) : Host.Outcome State Fault Refusal :=
  match s.fault with
  | some f => .fault f
  | none =>
    let r := fetch s
    match r.1 with
    | .error op => .next (latchFault s.cpu.pc op r.2)
    | .ok i =>
      match exec i r.2 with
      | .next t => .next (afterInstruction t)
      | .fault f => .fault f
      | .refused e => .refused e

/-- The state whose very next step fetches and runs the instruction with the bits `w`, numbered as the opcode table
numbers them, every bit above `nbits` zero (log 10). -/
def State.withFetchWord (s : State) (nbits w : Nat) : State := placeAtFetch (bytesOfNat (w % 2 ^ nbits) 3) s

end Sys2Proof.Machine
end

