-- ==== Sys2Proof/Machine/HostCalls.lean ====
section
/-! DEFINITION. The entry points the host may call between steps (spec 49 R340, spec 70 R382, R396). `stepOneInstruction`
is `step`; `loadChr` is in the mapper. No step calls these: the host does, between two steps (log 8). -/

namespace Sys2Proof.Machine

/-- A host call (R340); `reset` carries the kind, and `Line.none` requests nothing. -/
inductive HostCall where
  | reset (kind : Line)
  | cpuRead (addr : Word)
  | cpuWrite (addr : Word) (value : Byte)
  | ppuRead (port : BitVec 3)
  | ppuWrite (port : BitVec 3) (value : Byte)
  | oamDmaWrite (value : Byte)
deriving DecidableEq, Repr

/-- What a host call answers (0 where it answers nothing) and the state after it (R340): "the same operation a CPU
instruction would perform, with the same side effects" (R396). -/
def hostCall (c : HostCall) (s : State) : Byte × State :=
  match c with
  | .reset kind => (0, requestInterrupt kind s)
  | .cpuRead a => memRead a s
  | .cpuWrite a v => (0, memWrite a v s)
  | .ppuRead p => ppuPortRead p.toNat s
  | .ppuWrite p v => (0, ppuPortWrite p.toNat v s)
  | .oamDmaWrite v => (0, oamDma v s)

end Sys2Proof.Machine
end

