-- ==== Sys2Proof/Machine/PowerOn.lean ====
section
/-! DEFINITION. Construction of the machine (spec 70 R380, spec 48 R311, R316, R320, spec 60 R352). -/

namespace Sys2Proof.Machine

/-- The memories the spec leaves unspecified at power-on (R45, R384): they are part of the launch state, any bytes. -/
structure LaunchMemory where
  ram : Mem
  prgRam : Mem
  nt0 : Mem
  nt1 : Mem
  palette : Mem
  oam : Mem
  /-- The pattern memory when it is CHR RAM. -/
  chrRam : Mem
deriving DecidableEq, Repr

/-- Launch memories that list nothing: every byte reads 0 (DESIGN CHOICE, log 3). -/
def LaunchMemory.blank : LaunchMemory := ⟨[], [], [], [], [], [], []⟩

/-- The state `PowerOn` builds before `loadChr` and `CpuReset` (R380). -/
def constructed (params : Params) (c : Cartridge) (m : LaunchMemory) : State :=
  { State.reset with
    ppu := { Ppu.reset with palette := m.palette, oam := m.oam }
    nt0 := m.nt0
    nt1 := m.nt1
    mirroring := c.mirroring
    ram := m.ram
    prgRam := m.prgRam
    chr := m.chrRam
    cart := c
    params := params }

/-- `PowerOn(cartridge, params)` (R380): a cartridge outside the covered configurations constructs no machine and gives
its mapper identifier as the diagnostic (R311, R352); otherwise the CHR bank is copied and the CPU reset is applied. -/
def powerOn (params : Params) (c : Cartridge) (m : LaunchMemory) : Except Fault State :=
  if c.wellFormed then .ok (cpuReset (loadChr (constructed params c m))) else .error (.unsupportedMapper c.mapperId)

end Sys2Proof.Machine
end

