-- ==== Sys2Proof/Safety.lean ====
section
/-! DEFINITION. What claims are stated in: the invariant of the machine, the count of ticks, what an instruction may
write, and short names for the flag laws of the spec. -/

namespace Sys2Proof.Machine

/-! ### Flags, by the numbers of the spec -/

/-- `p'` is `p` after `SetZN(v)` (R27): `P.Z` is `bool(v == 0)`, `P.N` is `v[7]`, "no other flag changes". -/
def ZNOf (v p p' : Byte) : Prop :=
  getFlag .z p' = decide (v = 0) ∧ getFlag .n p' = decide (128 ≤ v.toNat) ∧
    ∀ f, f ≠ .z → f ≠ .n → getFlag f p' = getFlag f p

/-- `p'` is `p` after an operation that writes Carry with `c`, and Zero and Negative from the byte `v`. -/
def CZNOf (c : Bool) (v p p' : Byte) : Prop :=
  getFlag .c p' = c ∧ getFlag .z p' = decide (v = 0) ∧ getFlag .n p' = decide (128 ≤ v.toNat) ∧
    ∀ f, f ≠ .c → f ≠ .z → f ≠ .n → getFlag f p' = getFlag f p

/-- `p'` is `p` with the flag `f` equal to `b` and every other flag kept. -/
def FlagSetTo (f : Flag) (b : Bool) (p p' : Byte) : Prop :=
  getFlag f p' = b ∧ ∀ g, g ≠ f → getFlag g p' = getFlag g p

/-! ### Cycles, by the numbers of the spec -/

/-- The base cycles of the read-class instructions by mode, as R130 to R132, R150 to R154 and R170 to R173 list them:
"2, 3, 4, 4, 4+, 4+, 6, 5+"; the other modes have no such instruction. -/
def readCycles : Operand → Nat
  | .imm _ => 2
  | .zp _ => 3
  | .zpx _ => 4
  | .zpy _ => 4
  | .abs _ => 4
  | .abx _ => 4
  | .aby _ => 4
  | .izx _ => 6
  | .izy _ => 5
  | _ => 0

/-- Which modes of the read class carry the `+` mark (R117). -/
def readPenalty : Operand → Bool
  | .abx _ => true
  | .aby _ => true
  | .izy _ => true
  | _ => false

/-- What a read-class instruction with this operand costs at this state (R117). -/
def readCost (o : Operand) (s : State) : Nat :=
  readCycles o + if readPenalty o = true ∧ (resolve o s).crossed = true then 1 else 0

/-- The cycles of the stores by mode, as R133 to R135 list them: "3, 4, 4, 5, 5, 6, 6, never a page-crossing penalty". -/
def writeCycles : Operand → Nat
  | .zp _ => 3
  | .zpx _ => 4
  | .zpy _ => 4
  | .abs _ => 4
  | .abx _ => 5
  | .aby _ => 5
  | .izx _ => 6
  | .izy _ => 6
  | _ => 0

/-- The cycles of the read-modify-write instructions by mode, as R155, R158 and R174 to R177 list them: accumulator 2,
then "5, 6, 6, 7 (no page penalty)". -/
def modifyCycles : Operand → Nat
  | .acc => 2
  | .zp _ => 5
  | .zpx _ => 6
  | .abs _ => 6
  | .abx _ => 7
  | _ => 0

/-- The operand `d` of a branch as the signed offset -128 to 127 (R115), added to `PC` and reduced modulo 65536. -/
def branchTarget (d : Byte) (s : State) : Word := BitVec.ofInt 16 ((s.cpu.pc.toNat : Int) + d.toInt)

/-- The common branch rule (R190): where a branch with the operand `d` leads, its cost in the machine's `cost`. -/
def branched (taken : Bool) (d : Byte) (s : State) : State :=
  if taken then
    { s with
      cpu := { s.cpu with pc := branchTarget d s }
      cost := 2 + 1 + if s.cpu.pc.toNat / 256 ≠ (branchTarget d s).toNat / 256 then 1 else 0 }
  else { s with cost := 2 }

/-- The 105 undefined opcode bytes, as R120 lists them: every low nibble 3, 7, B or F, then the listed ones. -/
def undefinedOpcode (op : Byte) : Bool :=
  op.toNat % 16 == 3 || op.toNat % 16 == 7 || op.toNat % 16 == 0xB || op.toNat % 16 == 0xF ||
    op ∈ [0x02#8, 0x12, 0x22, 0x32, 0x42, 0x52, 0x62, 0x72, 0x92, 0xB2, 0xD2, 0xF2] ||
    op ∈ [0x04#8, 0x14, 0x34, 0x44, 0x54, 0x64, 0x74, 0xD4, 0xF4] ||
    op ∈ [0x0C#8, 0x1C, 0x3C, 0x5C, 0x7C, 0xDC, 0xFC] ||
    op ∈ [0x1A#8, 0x3A, 0x5A, 0x7A, 0xDA, 0xFA] ||
    op ∈ [0x80#8, 0x82, 0x89, 0xC2, 0xE2] ||
    op ∈ [0x9C#8, 0x9E]

/-! ### Memory -/

/-- Every byte of CPU memory reads the same in `t` as in `s`. -/
def MemoryKept (s t : State) : Prop := ∀ a, peek a t = peek a s

/-- Every byte of CPU memory outside the storage cell that the address `ea` names reads the same in `t` as in `s`. -/
def MemoryKeptBut (ea : Word) (s t : State) : Prop :=
  ∀ a, storageCell a s ≠ storageCell ea s → peek a t = peek a s

/-- What no instruction, port access or DMA writes (R20 "who writes", R332, R87): the PPU's position, frame counter and
picture buffers, the mirroring, the cartridge and the parameters, the InterruptLine, `cpuCycles` and `fault`. -/
structure OutsideKept (s t : State) : Prop where
  scanline : t.ppu.scanline = s.ppu.scanline
  cycle : t.ppu.cycle = s.ppu.cycle
  frame : t.ppu.frame = s.ppu.frame
  comp : t.ppu.comp = s.ppu.comp
  out : t.ppu.out = s.ppu.out
  mirroring : t.mirroring = s.mirroring
  cart : t.cart = s.cart
  params : t.params = s.params
  line : t.line = s.line
  cpuCycles : t.cpuCycles = s.cpuCycles
  fault : t.fault = s.fault

/-! ### The invariant -/

/-- Every memory is in canonical form, with no cell outside its size (R20's sizes; log 3). -/
structure MemoriesOk (s : State) : Prop where
  ram : Memory.wf 0 2048 s.ram
  prgRam : Memory.wf 0 8192 s.prgRam
  chr : Memory.wf 0 8192 s.chr
  nt0 : Memory.wf 0 1024 s.nt0
  nt1 : Memory.wf 0 1024 s.nt1
  oam : Memory.wf 0 256 s.ppu.oam
  palette : Memory.wf 0 32 s.ppu.palette
  comp : Memory.wf Pixel.clear 61440 s.ppu.comp
  out : Memory.wf 0 61440 s.ppu.out

/-- The PPU is at a legal position (R41): scanline -1..260, cycle 0..340. -/
structure PositionOk (s : State) : Prop where
  low : -1 ≤ s.ppu.scanline
  high : s.ppu.scanline ≤ 260
  cycle : s.ppu.cycle ≤ 340

/-- The invariant of the machine between steps: canonical memories, a legal position, the Unused flag 1 (R26), the low
five status bits 0 (R34), and no cycle cost left over (log 7). -/
structure State.Inv (s : State) : Prop where
  memories : MemoriesOk s
  position : PositionOk s
  unused : getFlag .u s.cpu.p = true
  statusLow : s.ppu.status &&& 0x1F = 0
  cost : s.cost = 0

/-! ### Counting ticks -/

/-- The number of a position within a frame, counted from (-1,0) (R260). -/
def framePosition (r : Ppu) : Int := (r.scanline + 1) * 341 + r.cycle

/-- How many ticks the position and the frame counter stand for, counted from position (-1,0) of frame 0; a frame is
89342 ticks (R260). -/
def tickNumber (s : State) : Int := s.ppu.frame * 89342 + framePosition s.ppu

/-- The step from `s` to `t` ran exactly three ticks per CPU cycle it charged (R333, R341). -/
def ThreePerCycle (s t : State) : Prop :=
  s.cpuCycles ≤ t.cpuCycles ∧ tickNumber t = tickNumber s + 3 * ((t.cpuCycles : Int) - s.cpuCycles)

end Sys2Proof.Machine
end

