-- ==== Sys2Proof/Certificates/Slice0/Obligations.lean ====
section
/-! DEFINITION. The statements for the provers, one `def … : Prop` each, formalising the numbered rules of spec/. The
cited rules are named in each docstring. Two names of the model occur throughout: `readOperand` (the operand byte, with
the state after reading it) and `resolve` (the effective address); O9 and O10 say what they are. -/

open Sys2Proof Sys2Proof.Machine

/-! ### Encoding -/

/-- The words of the example column of R122, one for each of the thirteen addressing modes, decode to the instructions
they stand for. -/
def Obligations.DecodeOfSpecWords : Prop :=
  decode [0x18] = .ok (.clc, []) ∧
  decode [0x0A] = .ok (.aslAcc, []) ∧
  decode [0xA9, 0x05] = .ok (.ldaImm 0x05, []) ∧
  decode [0xA5, 0x10] = .ok (.ldaZp 0x10, []) ∧
  decode [0xB5, 0x10] = .ok (.ldaZpx 0x10, []) ∧
  decode [0xB6, 0x10] = .ok (.ldxZpy 0x10, []) ∧
  decode [0xAD, 0x34, 0x12] = .ok (.ldaAbs 0x1234, []) ∧
  decode [0xBD, 0x34, 0x12] = .ok (.ldaAbx 0x1234, []) ∧
  decode [0xB9, 0x34, 0x12] = .ok (.ldaAby 0x1234, []) ∧
  decode [0x6C, 0x34, 0x12] = .ok (.jmpInd 0x1234, []) ∧
  decode [0xA1, 0x10] = .ok (.ldaIzx 0x10, []) ∧
  decode [0xB1, 0x10] = .ok (.ldaIzy 0x10, []) ∧
  decode [0xD0, 0xFB] = .ok (.bne 0xFB, [])

/-- Decoding the encoding of any instruction, whatever bytes follow it, gives that instruction back with the bytes that
follow (R100, R102, R118, R119). -/
def Obligations.DecodeOfEncode : Prop :=
  ∀ (i : Instr) (rest : List Byte), i.wellFormed = true → decode (encode i ++ rest) = .ok (i, rest)

/-- Whatever decodes was the encoding of the instruction it decodes to: each word has one meaning. -/
def Obligations.EncodeOfDecode : Prop :=
  ∀ (bs rest : List Byte) (i : Instr), decode bs = .ok (i, rest) → bs = encode i ++ rest

/-- R120, R121: an opcode byte is refused by name exactly when it is one of the 105 listed ones, whatever follows it;
every other opcode byte with two operand bytes after it, of any values, decodes. -/
def Obligations.UndefinedOpcodesRefused : Prop :=
  ∀ (op b1 b2 : Byte), (undefinedOpcode op = true → decode [op, b1, b2] = .error (.undefinedOpcode op)) ∧
    (undefinedOpcode op = false → ∃ i rest, decode [op, b1, b2] = .ok (i, rest))

/-! ### Memory -/

/-- R65: `ram` is 2048 bytes in four images; a write is read back at every image of its cell and nowhere else, and
neither a read nor a write has a side effect. -/
def Obligations.RamMirrored : Prop :=
  ∀ (a b : Word) (v : Byte) (s : State), a.toNat < 0x2000 → b.toNat < 0x2000 →
    (memRead a s).2 = s ∧
    memWrite a v s = { s with ram := (memWrite a v s).ram } ∧
    (a.toNat % 2048 = b.toNat % 2048 →
      (memRead b s).1 = (memRead a s).1 ∧ memRead b (memWrite a v s) = (v, memWrite a v s)) ∧
    (a.toNat % 2048 ≠ b.toNat % 2048 → (memRead b (memWrite a v s)).1 = (memRead b s).1)

/-- R70: reads of the stubbed and unmapped addresses give 0 and change nothing; writes there change nothing. -/
def Obligations.StubbedAddresses : Prop :=
  ∀ (a : Word) (v : Byte) (s : State),
    (0x4000 ≤ a.toNat ∧ a.toNat ≤ 0x4015 ∨ 0x4018 ≤ a.toNat ∧ a.toNat ≤ 0x5FFF → memRead a s = (0, s)) ∧
    (0x4000 ≤ a.toNat ∧ a.toNat ≤ 0x4013 ∨ a.toNat = 0x4015 ∨ a.toNat = 0x4017 ∨ 0x4018 ≤ a.toNat ∧ a.toNat ≤ 0x5FFF →
      memWrite a v s = s)

/-- R68, R312, R313: cartridge RAM holds what is written and changes nothing else; the PRG windows read the banks, the
single bank in both windows, without side effect; a store to PRG changes no state. -/
def Obligations.CartridgeMemory : Prop :=
  ∀ (a b : Word) (v : Byte) (s : State),
    (0x6000 ≤ a.toNat → a.toNat < 0x8000 → 0x6000 ≤ b.toNat → b.toNat < 0x8000 →
      (memRead a s).2 = s ∧
      memWrite a v s = { s with prgRam := (memWrite a v s).prgRam } ∧
      (memRead b (memWrite a v s)).1 = if a = b then v else (memRead b s).1) ∧
    (0x8000 ≤ a.toNat →
      memRead a s = (Memory.get 0 s.cart.prg ((a.toNat - 0x8000) % (16384 * s.cart.prgBanks)), s) ∧
      memWrite a v s = s) ∧
    (s.cart.prgBanks = 1 → 0x8000 ≤ a.toNat → a.toNat < 0xC000 → memRead (a + 0x4000) s = memRead a s) ∧
    (s.cart.prgBanks = 2 → 0x8000 ≤ a.toNat → memRead a s = (Memory.get 0 s.cart.prg (a.toNat - 0x8000), s))

/-- R64, R71: a read changes nothing except at the status port, the data port (and their mirrors) and the two controller
ports, and there only what the table of R64 lists; a store to 0x4016 hands its byte to the host and changes nothing else.
The draw counter and the list of handed bytes are the model's own (log 6). Where an address names storage, a read gives
the byte that `peek` gives, and two addresses name the same cell exactly when they are images of one another (R65, R68,
R312): the frames of the other statements speak of memory through these two. -/
def Obligations.ReadSideEffects : Prop :=
  ∀ (a : Word) (v : Byte) (s : State),
    (0x2000 ≤ a.toNat ∧ a.toNat < 0x4000 ∧ a.toNat % 8 = 2 →
      (memRead a s).2 = { s with ppu := { s.ppu with
        status := (memRead a s).2.ppu.status, w := false, suppressVbl := (memRead a s).2.ppu.suppressVbl } }) ∧
    (0x2000 ≤ a.toNat ∧ a.toNat < 0x4000 ∧ a.toNat % 8 = 7 →
      (memRead a s).2 = { s with ppu := { s.ppu with
        readBuffer := (memRead a s).2.ppu.readBuffer, v := (memRead a s).2.ppu.v } }) ∧
    (a.toNat = 0x4016 ∨ a.toNat = 0x4017 → (memRead a s).2 = { s with draws := s.draws + 1 }) ∧
    (¬ (0x2000 ≤ a.toNat ∧ a.toNat < 0x4000 ∧ (a.toNat % 8 = 2 ∨ a.toNat % 8 = 7)) → a.toNat ≠ 0x4016 →
      a.toNat ≠ 0x4017 → (memRead a s).2 = s) ∧
    memWrite 0x4016 v s = { s with handed := v :: s.handed } ∧
    (storageCell a s = none ↔ 0x2000 ≤ a.toNat ∧ a.toNat < 0x6000) ∧
    (storageCell a s ≠ none → memRead a s = (peek a s, s) ∧ ∀ b, storageCell b s = storageCell a s ↔
      (a.toNat < 0x2000 ∧ b.toNat < 0x2000 ∧ b.toNat % 2048 = a.toNat % 2048) ∨
      (0x6000 ≤ a.toNat ∧ a.toNat < 0x8000 ∧ b = a) ∨
      (0x8000 ≤ a.toNat ∧ 0x8000 ≤ b.toNat ∧
        (b.toNat - 0x8000) % (16384 * s.cart.prgBanks) = (a.toNat - 0x8000) % (16384 * s.cart.prgBanks)))

/-! ### Addressing -/

/-- R106 to R111 and R115: the effective addresses of the modes that read no pointer, in natural numbers; `crossed` is
set by the two absolute-indexed modes alone, and nothing is changed. R104, R105, R130: the operand byte of an instruction
that reads is the byte of the instruction in the immediate mode (fetched with it, log 9), `A` in the accumulator mode, and
one bus read of the effective address, after the pointer reads if there are any, in every memory mode. -/
def Obligations.DirectAddressing : Prop :=
  ∀ (d : Byte) (a : Word) (s : State),
    ((resolve (.zp d) s).addr.toNat = d.toNat ∧ (resolve (.zp d) s).crossed = false ∧ (resolve (.zp d) s).after = s) ∧
    ((resolve (.zpx d) s).addr.toNat = (d.toNat + s.cpu.x.toNat) % 256 ∧ (resolve (.zpx d) s).crossed = false ∧
      (resolve (.zpx d) s).after = s) ∧
    ((resolve (.zpy d) s).addr.toNat = (d.toNat + s.cpu.y.toNat) % 256 ∧ (resolve (.zpy d) s).crossed = false ∧
      (resolve (.zpy d) s).after = s) ∧
    ((resolve (.abs a) s).addr = a ∧ (resolve (.abs a) s).crossed = false ∧ (resolve (.abs a) s).after = s) ∧
    ((resolve (.abx a) s).addr.toNat = (a.toNat + s.cpu.x.toNat) % 65536 ∧
      (resolve (.abx a) s).crossed = decide (a.toNat / 256 ≠ (a.toNat + s.cpu.x.toNat) % 65536 / 256) ∧
      (resolve (.abx a) s).after = s) ∧
    ((resolve (.aby a) s).addr.toNat = (a.toNat + s.cpu.y.toNat) % 65536 ∧
      (resolve (.aby a) s).crossed = decide (a.toNat / 256 ≠ (a.toNat + s.cpu.y.toNat) % 65536 / 256) ∧
      (resolve (.aby a) s).after = s) ∧
    (((resolve (.rel d) s).addr.toNat : Int) =
        ((s.cpu.pc.toNat : Int) + (if d.toNat < 128 then (d.toNat : Int) else (d.toNat : Int) - 256)) % 65536 ∧
      (resolve (.rel d) s).crossed = false ∧ (resolve (.rel d) s).after = s) ∧
    readOperand (.imm d) s = (d, s) ∧ readOperand .acc s = (s.cpu.a, s) ∧
    (∀ o, o ∈ [Operand.zp d, .zpx d, .zpy d, .abs a, .abx a, .aby a, .izx d, .izy d] →
      readOperand o s = memRead (resolve o s).addr (resolve o s).after)

/-- R112, R113, R114: the pointers of the indirect modes. The zero-page pointers wrap in the zero page and are read
without side effect; the pointer of `JMP (ind)` is read low byte first, its high byte from the start of the same page
when `JMP_INDIRECT_PAGE_WRAP`, and the two settings agree unless the pointer ends in 0xFF. -/
def Obligations.PointerAddressing : Prop :=
  ∀ (d : Byte) (p : Word) (s : State),
    ((resolve (.izx d) s).addr =
        wordOf (peek (BitVec.ofNat 16 ((d.toNat + s.cpu.x.toNat) % 256)) s)
          (peek (BitVec.ofNat 16 ((d.toNat + s.cpu.x.toNat + 1) % 256)) s) ∧
      (resolve (.izx d) s).crossed = false ∧ (resolve (.izx d) s).after = s) ∧
    (∀ base : Word,
      base = wordOf (peek (BitVec.ofNat 16 d.toNat) s) (peek (BitVec.ofNat 16 ((d.toNat + 1) % 256)) s) →
      (resolve (.izy d) s).addr.toNat = (base.toNat + s.cpu.y.toNat) % 65536 ∧
      (resolve (.izy d) s).crossed = decide (base.toNat / 256 ≠ (base.toNat + s.cpu.y.toNat) % 65536 / 256) ∧
      (resolve (.izy d) s).after = s) ∧
    (∀ p2 : Word,
      p2.toNat = (if s.params.jmpIndirectPageWrap then p.toNat / 256 * 256 + (p.toNat + 1) % 256
        else (p.toNat + 1) % 65536) →
      (resolve (.ind p) s).addr = wordOf (memRead p s).1 (memRead p2 (memRead p s).2).1 ∧
      (resolve (.ind p) s).crossed = false ∧
      (resolve (.ind p) s).after = (memRead p2 (memRead p s).2).2) ∧
    (p.toNat % 256 ≠ 255 → p.toNat / 256 * 256 + (p.toNat + 1) % 256 = (p.toNat + 1) % 65536)

/-! ### The stack -/

/-- R22, R23: `Push` stores at `0x0100 | SP` and then decrements `SP` in the page; `Pull` increments `SP` in the page
and then reads; each changes nothing else, and a pull takes back what a push stored. -/
def Obligations.PushAndPull : Prop :=
  ∀ (v : Byte) (s : State),
    push v s = { s with ram := (push v s).ram, cpu := { s.cpu with sp := (push v s).cpu.sp } } ∧
    (push v s).cpu.sp.toNat = (s.cpu.sp.toNat + 255) % 256 ∧
    peek (BitVec.ofNat 16 (0x100 + s.cpu.sp.toNat)) (push v s) = v ∧
    MemoryKeptBut (BitVec.ofNat 16 (0x100 + s.cpu.sp.toNat)) s (push v s) ∧
    (pull s).2 = { s with cpu := { s.cpu with sp := (pull s).2.cpu.sp } } ∧
    (pull s).2.cpu.sp.toNat = (s.cpu.sp.toNat + 1) % 256 ∧
    (pull s).1 = peek (BitVec.ofNat 16 (0x100 + (s.cpu.sp.toNat + 1) % 256)) s ∧
    (pull (push v s)).1 = v ∧ (pull (push v s)).2.cpu = s.cpu

/-! ### Load, store, transfer -/

/-- R130 to R132: in every mode `LDA`, `LDX` and `LDY` load the operand byte into their register, set Z and N from it,
cost what their rules list, and change nothing else but what the one bus read of the operand changes; no byte of CPU
memory changes. -/
def Obligations.LoadsFillTheirRegister : Prop :=
  ∀ (i : Instr) (s : State),
    (i.mnemonic = .lda → ∃ p, ZNOf (readOperand i.operand s).1 s.cpu.p p ∧
      exec i s = .next { (readOperand i.operand s).2 with
        cpu := { s.cpu with a := (readOperand i.operand s).1, p := p }, cost := readCost i.operand s }) ∧
    (i.mnemonic = .ldx → ∃ p, ZNOf (readOperand i.operand s).1 s.cpu.p p ∧
      exec i s = .next { (readOperand i.operand s).2 with
        cpu := { s.cpu with x := (readOperand i.operand s).1, p := p }, cost := readCost i.operand s }) ∧
    (i.mnemonic = .ldy → ∃ p, ZNOf (readOperand i.operand s).1 s.cpu.p p ∧
      exec i s = .next { (readOperand i.operand s).2 with
        cpu := { s.cpu with y := (readOperand i.operand s).1, p := p }, cost := readCost i.operand s }) ∧
    MemoryKept s (readOperand i.operand s).2

/-- R133 to R135: in every mode `STA`, `STX` and `STY` store their register with one bus write at the effective address
and cost what their rules list; no register, no flag and no other byte of CPU memory changes; in RAM and cartridge RAM
the byte is there afterwards, and where there is storage no port is touched. -/
def Obligations.StoresWriteOneByte : Prop :=
  ∀ (i : Instr) (s : State) (r : Byte),
    (i.mnemonic = .sta ∧ r = s.cpu.a ∨ i.mnemonic = .stx ∧ r = s.cpu.x ∨ i.mnemonic = .sty ∧ r = s.cpu.y) →
    ∃ t, exec i s = .next t ∧
      t = { memWrite (resolve i.operand s).addr r s with cost := writeCycles i.operand } ∧
      t.cpu = s.cpu ∧
      MemoryKeptBut (resolve i.operand s).addr s t ∧
      ((resolve i.operand s).addr.toNat < 0x2000 ∨
          0x6000 ≤ (resolve i.operand s).addr.toNat ∧ (resolve i.operand s).addr.toNat < 0x8000 →
        peek (resolve i.operand s).addr t = r) ∧
      (storageCell (resolve i.operand s).addr s ≠ none → t.ppu = s.ppu ∧ t.stall = s.stall ∧ t.handed = s.handed)

/-- R136 to R141: the six transfers, their opcodes and their 2 cycles; five set Z and N from the byte, `TXS` writes no
flag; nothing else changes. -/
def Obligations.TransfersCopyRegisters : Prop :=
  ∀ s : State,
    (encode .tax = [0xAA] ∧ ∃ p, ZNOf s.cpu.a s.cpu.p p ∧
      exec .tax s = .next { s with cpu := { s.cpu with x := s.cpu.a, p := p }, cost := 2 }) ∧
    (encode .tay = [0xA8] ∧ ∃ p, ZNOf s.cpu.a s.cpu.p p ∧
      exec .tay s = .next { s with cpu := { s.cpu with y := s.cpu.a, p := p }, cost := 2 }) ∧
    (encode .txa = [0x8A] ∧ ∃ p, ZNOf s.cpu.x s.cpu.p p ∧
      exec .txa s = .next { s with cpu := { s.cpu with a := s.cpu.x, p := p }, cost := 2 }) ∧
    (encode .tya = [0x98] ∧ ∃ p, ZNOf s.cpu.y s.cpu.p p ∧
      exec .tya s = .next { s with cpu := { s.cpu with a := s.cpu.y, p := p }, cost := 2 }) ∧
    (encode .tsx = [0xBA] ∧ ∃ p, ZNOf s.cpu.sp s.cpu.p p ∧
      exec .tsx s = .next { s with cpu := { s.cpu with x := s.cpu.sp, p := p }, cost := 2 }) ∧
    (encode .txs = [0x9A] ∧
      exec .txs s = .next { s with cpu := { s.cpu with sp := s.cpu.x }, cost := 2 })

/-! ### Arithmetic and compare -/

/-- R150, R161: `ADC` in binary mode, in every addressing mode. Carry is bit 8 of the sum; Overflow is set exactly when
the signed sum lies outside -128 to 127; nothing else but `A` and the four flags changes. -/
def Obligations.AdcAddsWithCarry : Prop :=
  ∀ (i : Instr) (s : State) (m : Byte) (c : Nat), i.mnemonic = .adc →
    s.params.decimalEnabled = false ∨ getFlag .d s.cpu.p = false →
    m = (readOperand i.operand s).1 → c = (if getFlag .c s.cpu.p then 1 else 0) →
    ∃ p,
      exec i s = .next { (readOperand i.operand s).2 with
        cpu := { s.cpu with a := BitVec.ofNat 8 (s.cpu.a.toNat + m.toNat + c), p := p }, cost := readCost i.operand s } ∧
      getFlag .c p = decide (255 < s.cpu.a.toNat + m.toNat + c) ∧
      getFlag .v p = decide (s.cpu.a.toInt + m.toInt + c < -128 ∨ 127 < s.cpu.a.toInt + m.toInt + c) ∧
      getFlag .z p = decide ((s.cpu.a.toNat + m.toNat + c) % 256 = 0) ∧
      getFlag .n p = decide (128 ≤ (s.cpu.a.toNat + m.toNat + c) % 256) ∧
      (∀ f, f ≠ .c → f ≠ .v → f ≠ .z → f ≠ .n → getFlag f p = getFlag f s.cpu.p) ∧
      MemoryKept s (readOperand i.operand s).2

/-- R151, R161: `SBC` in binary mode, in every addressing mode: `A - m - (1 - C)` modulo 256; Carry afterwards is 1 when
no borrow occurred; Overflow is set exactly when the signed difference lies outside -128 to 127. -/
def Obligations.SbcSubtractsWithBorrow : Prop :=
  ∀ (i : Instr) (s : State) (m : Byte) (b : Nat), i.mnemonic = .sbc →
    s.params.decimalEnabled = false ∨ getFlag .d s.cpu.p = false →
    m = (readOperand i.operand s).1 → b = (if getFlag .c s.cpu.p then 0 else 1) →
    ∃ r p,
      exec i s = .next { (readOperand i.operand s).2 with
        cpu := { s.cpu with a := r, p := p }, cost := readCost i.operand s } ∧
      (r.toNat : Int) = ((s.cpu.a.toNat : Int) - m.toNat - b) % 256 ∧
      getFlag .c p = decide (m.toNat + b ≤ s.cpu.a.toNat) ∧
      getFlag .v p = decide (s.cpu.a.toInt - m.toInt - b < -128 ∨ 127 < s.cpu.a.toInt - m.toInt - b) ∧
      getFlag .z p = decide (r.toNat = 0) ∧
      getFlag .n p = decide (128 ≤ r.toNat) ∧
      (∀ f, f ≠ .c → f ≠ .v → f ≠ .z → f ≠ .n → getFlag f p = getFlag f s.cpu.p) ∧
      MemoryKept s (readOperand i.operand s).2

/-- R163: under `DECIMAL_ENABLED` with `P.D = 1`, `ADC` and `SBC` run on every operand and give `A` and C, V, Z, N as
R163's lines say, `SBC` with the flags of binary `SBC` (R151); no other flag or register and no byte of memory changes.
On operands whose nibbles are decimal digits the result's nibbles are decimal digits and it is the decimal sum or
difference modulo 100, with decimal carry or no-borrow: this reading is derived from R163's lines. Two points of
`SBC` are the model's choices: the nibble mask of a negative number is read modulo 16 (log 13), and the digits are computed
with the incoming Carry although R163 lists the flags first (log 20). -/
def Obligations.DecimalArithmetic : Prop :=
  ∀ (i : Instr) (s : State) (m : Byte) (a n c al sum : Nat) (dl diff : Int),
    s.params.decimalEnabled = true → getFlag .d s.cpu.p = true → m = (readOperand i.operand s).1 →
    a = s.cpu.a.toNat → n = m.toNat → c = (if getFlag .c s.cpu.p then 1 else 0) →
    al = (if 10 ≤ a % 16 + n % 16 + c then (a % 16 + n % 16 + c + 6) % 16 + 16 else a % 16 + n % 16 + c) →
    sum = a / 16 * 16 + n / 16 * 16 + al →
    dl = (if ((a % 16 : Nat) : Int) - (n % 16 : Nat) + c - 1 < 0
      then (((a % 16 : Nat) : Int) - (n % 16 : Nat) + c - 1 - 6) % 16 - 16
      else ((a % 16 : Nat) : Int) - (n % 16 : Nat) + c - 1) →
    diff = ((a / 16 * 16 : Nat) : Int) - (n / 16 * 16 : Nat) + dl →
    (i.mnemonic = .adc → ∃ r p,
      exec i s = .next { (readOperand i.operand s).2 with
        cpu := { s.cpu with a := r, p := p }, cost := readCost i.operand s } ∧
      r.toNat = (if 0xA0 ≤ sum then sum + 0x60 else sum) % 256 ∧
      getFlag .c p = decide (0x100 ≤ if 0xA0 ≤ sum then sum + 0x60 else sum) ∧
      getFlag .z p = decide ((a + n + c) % 256 = 0) ∧
      getFlag .n p = decide (128 ≤ sum % 256) ∧
      getFlag .v p = decide ((128 ≤ a ↔ 128 ≤ n) ∧ ¬ (128 ≤ a ↔ 128 ≤ sum % 256)) ∧
      (∀ f, f ≠ .c → f ≠ .v → f ≠ .z → f ≠ .n → getFlag f p = getFlag f s.cpu.p) ∧
      (a % 16 < 10 → a / 16 < 10 → n % 16 < 10 → n / 16 < 10 →
        r.toNat % 16 < 10 ∧ r.toNat / 16 < 10 ∧
        r.toNat / 16 * 10 + r.toNat % 16 = (a / 16 * 10 + a % 16 + (n / 16 * 10 + n % 16) + c) % 100 ∧
        getFlag .c p = decide (100 ≤ a / 16 * 10 + a % 16 + (n / 16 * 10 + n % 16) + c))) ∧
    (i.mnemonic = .sbc → ∃ r p,
      exec i s = .next { (readOperand i.operand s).2 with
        cpu := { s.cpu with a := r, p := p }, cost := readCost i.operand s } ∧
      (r.toNat : Int) = (if diff < 0 then diff - 0x60 else diff) % 256 ∧
      getFlag .c p = decide (n + 1 ≤ a + c) ∧
      getFlag .z p = decide (((a : Int) - n - (1 - c)) % 256 = 0) ∧
      getFlag .n p = decide (128 ≤ ((a : Int) - n - (1 - c)) % 256) ∧
      getFlag .v p = decide (s.cpu.a.toInt - m.toInt - (1 - c) < -128 ∨ 127 < s.cpu.a.toInt - m.toInt - (1 - c)) ∧
      (∀ f, f ≠ .c → f ≠ .v → f ≠ .z → f ≠ .n → getFlag f p = getFlag f s.cpu.p) ∧
      (a % 16 < 10 → a / 16 < 10 → n % 16 < 10 → n / 16 < 10 →
        r.toNat % 16 < 10 ∧ r.toNat / 16 < 10 ∧
        ((r.toNat / 16 * 10 + r.toNat % 16 : Nat) : Int) =
          (((a / 16 * 10 + a % 16 : Nat) : Int) - ((n / 16 * 10 + n % 16 : Nat) : Int) - (1 - c)) % 100 ∧
        getFlag .c p = decide (n / 16 * 10 + n % 16 + 1 ≤ a / 16 * 10 + a % 16 + c))) ∧
    MemoryKept s (readOperand i.operand s).2

/-- R152 to R154, R162: the compares set Carry exactly when the register is at least the operand, Z and N from the
difference, write no other flag and no register, and cost what their rules list. -/
def Obligations.ComparesSetFlagsOnly : Prop :=
  ∀ (i : Instr) (s : State) (r m : Byte), m = (readOperand i.operand s).1 →
    (i.mnemonic = .cmp ∧ r = s.cpu.a ∨ i.mnemonic = .cpx ∧ r = s.cpu.x ∨ i.mnemonic = .cpy ∧ r = s.cpu.y) →
    ∃ p, CZNOf (decide (m.toNat ≤ r.toNat)) (r - m) s.cpu.p p ∧
      exec i s = .next { (readOperand i.operand s).2 with
        cpu := { s.cpu with p := p }, cost := readCost i.operand s } ∧
      MemoryKept s (readOperand i.operand s).2

/-- R155, R158: `INC` and `DEC` in every mode: one bus read, Z and N from the byte plus or minus one modulo 256, one bus
write of it to the same address; no other register, flag or byte of CPU memory changes. -/
def Obligations.IncDecMemory : Prop :=
  ∀ (i : Instr) (s : State) (r : Byte),
    (i.mnemonic = .inc ∧ r = (memRead (resolve i.operand s).addr s).1 + 1 ∨
      i.mnemonic = .dec ∧ r = (memRead (resolve i.operand s).addr s).1 - 1) →
    ∃ p t, ZNOf r s.cpu.p p ∧ exec i s = .next t ∧
      t = { memWrite (resolve i.operand s).addr r
              { (memRead (resolve i.operand s).addr s).2 with cpu := { s.cpu with p := p } } with
            cost := modifyCycles i.operand } ∧
      t.cpu = { s.cpu with p := p } ∧
      MemoryKeptBut (resolve i.operand s).addr s t ∧
      ((resolve i.operand s).addr.toNat < 0x2000 ∨
          0x6000 ≤ (resolve i.operand s).addr.toNat ∧ (resolve i.operand s).addr.toNat < 0x8000 →
        peek (resolve i.operand s).addr t = r)

/-- R156, R157, R159, R160: `INX`, `INY`, `DEX`, `DEY`: their opcodes, the register plus or minus one modulo 256, Z and N
from it, 2 cycles, nothing else (Carry and Overflow among it). -/
def Obligations.IncDecRegisters : Prop :=
  ∀ s : State,
    (encode .inx = [0xE8] ∧ ∃ p, ZNOf (BitVec.ofNat 8 (s.cpu.x.toNat + 1)) s.cpu.p p ∧
      exec .inx s = .next { s with cpu := { s.cpu with x := BitVec.ofNat 8 (s.cpu.x.toNat + 1), p := p }, cost := 2 }) ∧
    (encode .iny = [0xC8] ∧ ∃ p, ZNOf (BitVec.ofNat 8 (s.cpu.y.toNat + 1)) s.cpu.p p ∧
      exec .iny s = .next { s with cpu := { s.cpu with y := BitVec.ofNat 8 (s.cpu.y.toNat + 1), p := p }, cost := 2 }) ∧
    (encode .dex = [0xCA] ∧ ∃ p, ZNOf (BitVec.ofNat 8 (s.cpu.x.toNat + 255)) s.cpu.p p ∧
      exec .dex s = .next { s with cpu := { s.cpu with x := BitVec.ofNat 8 (s.cpu.x.toNat + 255), p := p }, cost := 2 }) ∧
    (encode .dey = [0x88] ∧ ∃ p, ZNOf (BitVec.ofNat 8 (s.cpu.y.toNat + 255)) s.cpu.p p ∧
      exec .dey s = .next { s with cpu := { s.cpu with y := BitVec.ofNat 8 (s.cpu.y.toNat + 255), p := p }, cost := 2 })

/-! ### Logic and shifts -/

/-- R170 to R173: `AND`, `ORA`, `EOR` in every mode combine `A` with the operand byte bit by bit and set Z and N from
the result; `BIT` takes Z from the and, N and V from bits 7 and 6 of the operand, and leaves `A`. Nothing else
changes. -/
def Obligations.LogicAndBitTest : Prop :=
  ∀ (i : Instr) (s : State) (m : Byte), m = (readOperand i.operand s).1 →
    (∀ r : Byte, (i.mnemonic = .and ∧ r = s.cpu.a &&& m ∨ i.mnemonic = .ora ∧ r = s.cpu.a ||| m ∨
        i.mnemonic = .eor ∧ r = s.cpu.a ^^^ m) →
      ∃ p, ZNOf r s.cpu.p p ∧ exec i s = .next { (readOperand i.operand s).2 with
        cpu := { s.cpu with a := r, p := p }, cost := readCost i.operand s }) ∧
    (i.mnemonic = .bit → ∃ p, getFlag .z p = decide (s.cpu.a &&& m = 0) ∧ getFlag .n p = decide (128 ≤ m.toNat) ∧
      getFlag .v p = decide (64 ≤ m.toNat % 128) ∧
      (∀ f, f ≠ .z → f ≠ .n → f ≠ .v → getFlag f p = getFlag f s.cpu.p) ∧
      exec i s = .next { (readOperand i.operand s).2 with
        cpu := { s.cpu with p := p }, cost := readCost i.operand s }) ∧
    MemoryKept s (readOperand i.operand s).2

/-- R174 to R177, accumulator mode: the four shifts of `A` with their opcodes, Carry from the bit shifted out, Z and N
from the result, 2 cycles, nothing else. -/
def Obligations.ShiftAccumulator : Prop :=
  ∀ (s : State) (c : Nat), c = (if getFlag .c s.cpu.p then 1 else 0) →
    (encode .aslAcc = [0x0A] ∧ ∃ p,
      CZNOf (decide (128 ≤ s.cpu.a.toNat)) (BitVec.ofNat 8 (2 * s.cpu.a.toNat)) s.cpu.p p ∧
      exec .aslAcc s = .next { s with
        cpu := { s.cpu with a := BitVec.ofNat 8 (2 * s.cpu.a.toNat), p := p }, cost := 2 }) ∧
    (encode .lsrAcc = [0x4A] ∧ ∃ p,
      CZNOf (decide (s.cpu.a.toNat % 2 = 1)) (BitVec.ofNat 8 (s.cpu.a.toNat / 2)) s.cpu.p p ∧
      exec .lsrAcc s = .next { s with
        cpu := { s.cpu with a := BitVec.ofNat 8 (s.cpu.a.toNat / 2), p := p }, cost := 2 }) ∧
    (encode .rolAcc = [0x2A] ∧ ∃ p,
      CZNOf (decide (128 ≤ s.cpu.a.toNat)) (BitVec.ofNat 8 (2 * s.cpu.a.toNat + c)) s.cpu.p p ∧
      exec .rolAcc s = .next { s with
        cpu := { s.cpu with a := BitVec.ofNat 8 (2 * s.cpu.a.toNat + c), p := p }, cost := 2 }) ∧
    (encode .rorAcc = [0x6A] ∧ ∃ p,
      CZNOf (decide (s.cpu.a.toNat % 2 = 1)) (BitVec.ofNat 8 (s.cpu.a.toNat / 2 + 128 * c)) s.cpu.p p ∧
      exec .rorAcc s = .next { s with
        cpu := { s.cpu with a := BitVec.ofNat 8 (s.cpu.a.toNat / 2 + 128 * c), p := p }, cost := 2 })

/-- R174 to R177, memory modes: one bus read of the effective address, the flags, one bus write of the result to it; no
other register, flag or byte of CPU memory changes. -/
def Obligations.ShiftMemory : Prop :=
  ∀ (i : Instr) (s : State) (v c out r : Nat), i.operand ≠ .acc →
    v = (memRead (resolve i.operand s).addr s).1.toNat → c = (if getFlag .c s.cpu.p then 1 else 0) →
    (i.mnemonic = .asl ∧ out = v / 128 ∧ r = 2 * v ∨ i.mnemonic = .lsr ∧ out = v % 2 ∧ r = v / 2 ∨
      i.mnemonic = .rol ∧ out = v / 128 ∧ r = 2 * v + c ∨ i.mnemonic = .ror ∧ out = v % 2 ∧ r = v / 2 + 128 * c) →
    ∃ p t, CZNOf (decide (out = 1)) (BitVec.ofNat 8 r) s.cpu.p p ∧ exec i s = .next t ∧
      t = { memWrite (resolve i.operand s).addr (BitVec.ofNat 8 r)
              { (memRead (resolve i.operand s).addr s).2 with cpu := { s.cpu with p := p } } with
            cost := modifyCycles i.operand } ∧
      t.cpu = { s.cpu with p := p } ∧
      MemoryKeptBut (resolve i.operand s).addr s t ∧
      ((resolve i.operand s).addr.toNat < 0x2000 ∨
          0x6000 ≤ (resolve i.operand s).addr.toNat ∧ (resolve i.operand s).addr.toNat < 0x8000 →
        peek (resolve i.operand s).addr t = BitVec.ofNat 8 r)

/-! ### Control flow -/

/-- R191: `JMP` puts the effective address in `PC`, in 3 cycles (absolute, 4C) or 5 (indirect, 6C), and changes nothing
else but what the two pointer reads of the indirect form change; no byte of CPU memory changes. -/
def Obligations.JmpGoesToTheAddress : Prop :=
  ∀ (a : Word) (s : State),
    encode (.jmpAbs a) = [0x4C, loByte a, hiByte a] ∧
    exec (.jmpAbs a) s = .next { s with cpu := { s.cpu with pc := a }, cost := 3 } ∧
    encode (.jmpInd a) = [0x6C, loByte a, hiByte a] ∧
    exec (.jmpInd a) s = .next { (resolve (.ind a) s).after with
      cpu := { s.cpu with pc := (resolve (.ind a) s).addr }, cost := 5 } ∧
    MemoryKept s (resolve (.ind a) s).after

/-- R192, R193: `JSR` pushes the address of its last byte, high byte first, and jumps; `RTS` pulls an address, low byte
first, and resumes one after it; each takes 6 cycles and changes no flag and no other byte; `RTS` anywhere after `JSR`
with the stack as it left it restores `PC` and `SP`. `PC` is the address of the next instruction when they run. -/
def Obligations.JsrAndRts : Prop :=
  ∀ (a w : Word) (s : State),
    (encode (.jsr a) = [0x20, loByte a, hiByte a] ∧ ∃ t, exec (.jsr a) s = .next t ∧
      t = { s with ram := t.ram, cpu := { s.cpu with pc := a, sp := s.cpu.sp - 2 }, cost := 6 } ∧
      peek (stackAddr s.cpu.sp) t = hiByte (s.cpu.pc - 1) ∧
      peek (stackAddr (s.cpu.sp - 1)) t = loByte (s.cpu.pc - 1) ∧
      (∀ b, storageCell b s ≠ storageCell (stackAddr s.cpu.sp) s →
        storageCell b s ≠ storageCell (stackAddr (s.cpu.sp - 1)) s → peek b t = peek b s) ∧
      ∃ u, exec .rts (t.setPC w) = .next u ∧ u.cpu = s.cpu) ∧
    (encode .rts = [0x60] ∧ exec .rts s = .next { s with
      cpu := { s.cpu with
        pc := wordOf (peek (stackAddr (s.cpu.sp + 1)) s) (peek (stackAddr (s.cpu.sp + 2)) s) + 1
        sp := s.cpu.sp + 2 }
      cost := 6 })

/-- R190, R194 to R201: the eight branches with their opcodes: taken exactly on their condition, to `PC` plus the signed
operand, at 3 cycles and one more to another page, else 2 cycles and nothing; no flag and nothing else changes. -/
def Obligations.BranchesFollowTheirFlag : Prop :=
  ∀ (d : Byte) (s : State),
    (encode (.bcc d) = [0x90, d] ∧ exec (.bcc d) s = .next (branched (decide (getFlag .c s.cpu.p = false)) d s)) ∧
    (encode (.bcs d) = [0xB0, d] ∧ exec (.bcs d) s = .next (branched (decide (getFlag .c s.cpu.p = true)) d s)) ∧
    (encode (.beq d) = [0xF0, d] ∧ exec (.beq d) s = .next (branched (decide (getFlag .z s.cpu.p = true)) d s)) ∧
    (encode (.bne d) = [0xD0, d] ∧ exec (.bne d) s = .next (branched (decide (getFlag .z s.cpu.p = false)) d s)) ∧
    (encode (.bmi d) = [0x30, d] ∧ exec (.bmi d) s = .next (branched (decide (getFlag .n s.cpu.p = true)) d s)) ∧
    (encode (.bpl d) = [0x10, d] ∧ exec (.bpl d) s = .next (branched (decide (getFlag .n s.cpu.p = false)) d s)) ∧
    (encode (.bvc d) = [0x50, d] ∧ exec (.bvc d) s = .next (branched (decide (getFlag .v s.cpu.p = false)) d s)) ∧
    (encode (.bvs d) = [0x70, d] ∧ exec (.bvs d) s = .next (branched (decide (getFlag .v s.cpu.p = true)) d s))

/-! ### Stack, flags, system -/

/-- R210, R212: `PHA` pushes `A` and `PHP` pushes `P | 0x30`, in 3 cycles; the stored `P` and everything else but the
stack slot and `SP` is unchanged. -/
def Obligations.PushInstructions : Prop :=
  ∀ s : State,
    (encode .pha = [0x48] ∧ ∃ t, exec .pha s = .next t ∧
      t = { s with ram := t.ram, cpu := { s.cpu with sp := s.cpu.sp - 1 }, cost := 3 } ∧
      peek (stackAddr s.cpu.sp) t = s.cpu.a ∧ MemoryKeptBut (stackAddr s.cpu.sp) s t) ∧
    (encode .php = [0x08] ∧ ∃ t, exec .php s = .next t ∧
      t = { s with ram := t.ram, cpu := { s.cpu with sp := s.cpu.sp - 1 }, cost := 3 } ∧
      peek (stackAddr s.cpu.sp) t = s.cpu.p ||| 0x30 ∧ MemoryKeptBut (stackAddr s.cpu.sp) s t)

/-- R211, R213: `PLA` pulls `A` and sets Z and N from it, `PLP` pulls `P` with the Unused bit forced to 1, in 4 cycles;
nothing else but `SP` changes. -/
def Obligations.PullInstructions : Prop :=
  ∀ (s : State) (v : Byte), v = peek (stackAddr (s.cpu.sp + 1)) s →
    (encode .pla = [0x68] ∧ ∃ p, ZNOf v s.cpu.p p ∧
      exec .pla s = .next { s with cpu := { s.cpu with a := v, sp := s.cpu.sp + 1, p := p }, cost := 4 }) ∧
    (encode .plp = [0x28] ∧ ∃ p, getFlag .u p = true ∧ (∀ f, f ≠ .u → getFlag f p = getFlag f v) ∧
      exec .plp s = .next { s with cpu := { s.cpu with sp := s.cpu.sp + 1, p := p }, cost := 4 })

/-- R214 to R221: each flag instruction writes exactly its flag, `NOP` nothing; 2 cycles each; nothing else changes. -/
def Obligations.FlagInstructionsAndNop : Prop :=
  ∀ s : State,
    (encode .clc = [0x18] ∧ ∃ p, FlagSetTo .c false s.cpu.p p ∧
      exec .clc s = .next { s with cpu := { s.cpu with p := p }, cost := 2 }) ∧
    (encode .sec = [0x38] ∧ ∃ p, FlagSetTo .c true s.cpu.p p ∧
      exec .sec s = .next { s with cpu := { s.cpu with p := p }, cost := 2 }) ∧
    (encode .cli = [0x58] ∧ ∃ p, FlagSetTo .i false s.cpu.p p ∧
      exec .cli s = .next { s with cpu := { s.cpu with p := p }, cost := 2 }) ∧
    (encode .sei = [0x78] ∧ ∃ p, FlagSetTo .i true s.cpu.p p ∧
      exec .sei s = .next { s with cpu := { s.cpu with p := p }, cost := 2 }) ∧
    (encode .cld = [0xD8] ∧ ∃ p, FlagSetTo .d false s.cpu.p p ∧
      exec .cld s = .next { s with cpu := { s.cpu with p := p }, cost := 2 }) ∧
    (encode .sed = [0xF8] ∧ ∃ p, FlagSetTo .d true s.cpu.p p ∧
      exec .sed s = .next { s with cpu := { s.cpu with p := p }, cost := 2 }) ∧
    (encode .clv = [0xB8] ∧ ∃ p, FlagSetTo .v false s.cpu.p p ∧
      exec .clv s = .next { s with cpu := { s.cpu with p := p }, cost := 2 }) ∧
    (encode .nop = [0xEA] ∧ exec .nop s = .next { s with cost := 2 })

/-- R222, R223: `BRK` pushes the address two after its opcode, high byte first, then `P | 0x30`, clears D, sets I and
loads `PC` from 0xFFFE, in 7 cycles; `RTI` pulls the status byte with Unused forced to 1, then `PC` low and high, in 6
cycles; `RTI` with the stack as `BRK` left it resumes two after the `BRK` with Break and Unused set in `P`. `PC` is the
address after the opcode when they run. -/
def Obligations.BrkAndRti : Prop :=
  ∀ (s : State) (w : Word),
    (encode .brk = [0x00] ∧ ∃ t p, exec .brk s = .next t ∧
      t = { s with
        ram := t.ram
        cpu := { s.cpu with sp := s.cpu.sp - 3, p := p, pc := wordOf (peek 0xFFFE s) (peek 0xFFFF s) }
        cost := 7 } ∧
      getFlag .d p = false ∧ getFlag .i p = true ∧ (∀ f, f ≠ .d → f ≠ .i → getFlag f p = getFlag f s.cpu.p) ∧
      peek (stackAddr s.cpu.sp) t = hiByte (s.cpu.pc + 1) ∧
      peek (stackAddr (s.cpu.sp - 1)) t = loByte (s.cpu.pc + 1) ∧
      peek (stackAddr (s.cpu.sp - 2)) t = s.cpu.p ||| 0x30 ∧
      (∀ b, storageCell b s ≠ storageCell (stackAddr s.cpu.sp) s →
        storageCell b s ≠ storageCell (stackAddr (s.cpu.sp - 1)) s →
        storageCell b s ≠ storageCell (stackAddr (s.cpu.sp - 2)) s → peek b t = peek b s) ∧
      ∃ u, exec .rti (t.setPC w) = .next u ∧
        u.cpu = { s.cpu with pc := s.cpu.pc + 1, p := s.cpu.p ||| 0x30 }) ∧
    (encode .rti = [0x40] ∧ ∃ p, getFlag .u p = true ∧
      (∀ f, f ≠ .u → getFlag f p = getFlag f (peek (stackAddr (s.cpu.sp + 1)) s)) ∧
      exec .rti s = .next { s with
        cpu := { s.cpu with
          sp := s.cpu.sp + 3
          p := p
          pc := wordOf (peek (stackAddr (s.cpu.sp + 2)) s) (peek (stackAddr (s.cpu.sp + 3)) s) }
        cost := 6 })

/-! ### Every instruction -/

/-- R20 "who writes", R26, R332, R350: every instruction completes at every state, and leaves the PPU's position, frame
counter and picture buffers, the mirroring, the cartridge, the parameters, the InterruptLine, `cpuCycles` and `fault`,
keeps every memory canonical, and keeps the Unused flag at 1. -/
def Obligations.EveryInstructionCompletes : Prop :=
  ∀ (i : Instr) (s : State), ∃ t, exec i s = .next t ∧ OutsideKept s t ∧ (MemoriesOk s → MemoriesOk t) ∧
    (getFlag .u s.cpu.p = true → getFlag .u t.cpu.p = true)

/-- R117, R190: the cycle count every instruction returns is the base cost of its row, one more when the row has the `+`
mark and the address crossed a page, and for a branch one more when taken and one more to another page; it is 2 to 7. -/
def Obligations.InstructionCycles : Prop :=
  ∀ (i : Instr) (s : State), ∃ t, exec i s = .next t ∧ 2 ≤ t.cost ∧ t.cost ≤ 7 ∧
    ((∀ d, i.operand ≠ .rel d) →
      t.cost = i.baseCycles + if i.pagePenalty = true ∧ (resolve i.operand s).crossed = true then 1 else 0) ∧
    (∀ d, i.operand = .rel d → i.baseCycles = 2 ∧ i.pagePenalty = false ∧
      ∃ taken, t = branched taken d s)

/-! ### The step -/

/-- R101, R102, R116, R331, R333: without a latched fault, when the bytes `Fetch8` reads one after another from `PC` on
are those of the instruction `i`, the step is `exec i` at the state after those reads (`PC` past the instruction), then
`3 n` ticks for `n = cost + stall`, then the dispatch check. Where the bytes lie in storage those reads only move
`PC`. -/
def Obligations.StepRunsTheDecodedInstruction : Prop :=
  ∀ (s : State) (i : Instr) (n : Nat), s.fault = none → decode (fetchBytes n s).1 = .ok (i, []) →
    (∀ t, exec i (fetchBytes n s).2 = .next t →
      step s = .next (dispatchCheck (ppuTicks (3 * (t.cost + t.stall))
        { t with cost := 0, stall := 0, cpuCycles := t.cpuCycles + (t.cost + t.stall) }))) ∧
    ((∀ k < n, storageCell (s.cpu.pc + BitVec.ofNat 16 k) s ≠ none) →
      fetchBytes n s = ((List.range n).map (fun k => peek (s.cpu.pc + BitVec.ofNat 16 k) s),
        s.setPC (s.cpu.pc + BitVec.ofNat 16 n)))

/-- R351, R46: an undefined opcode at `PC` latches `UnsupportedOpcode` with `PC` and the byte; `PC` stays, no cycle, no
tick and no dispatch happens, and only the opcode read's own side effect stays; a latched fault stops every later step
and is never cleared. The step that latches the fault is answered as a next state (log 1). -/
def Obligations.UndefinedOpcodeLatches : Prop :=
  ∀ s : State,
    (s.fault = none → undefinedOpcode (memRead s.cpu.pc s).1 = true →
      step s = .next { (memRead s.cpu.pc s).2 with
        fault := some (.unsupportedOpcode s.cpu.pc (memRead s.cpu.pc s).1) } ∧
      (memRead s.cpu.pc s).2.cpu = s.cpu ∧
      (storageCell s.cpu.pc s ≠ none → (memRead s.cpu.pc s).2 = s)) ∧
    (∀ f, s.fault = some f → step s = .fault f)

/-- R334, R335: the dispatch check takes RESET, NMI, and IRQ when `P.I` is 0, clears the slot when it takes one, adds
`INTERRUPT_CYCLES` to `stall` for NMI and IRQ; a masked IRQ stays in the slot. -/
def Obligations.DispatchTakesOneRequest : Prop :=
  ∀ s : State,
    (s.line = .reset → dispatchCheck s = { cpuReset s with line := .none }) ∧
    (s.line = .nmi → dispatchCheck s = { enterNmi s with
      line := .none, stall := s.stall + s.params.interruptCycles }) ∧
    (s.line = .irq → getFlag .i s.cpu.p = false → dispatchCheck s = { enterIrq s with
      line := .none, stall := s.stall + s.params.interruptCycles }) ∧
    (s.line = .irq → getFlag .i s.cpu.p = true → dispatchCheck s = s) ∧
    (s.line = .none → dispatchCheck s = s)

/-- R359, R360: NMI entry, and IRQ entry when `P.I` is 0, push `PC` high, `PC` low and the status byte with Unused 1 and
Break 0, clear D, set I for IRQ only, load `PC` from the vector, and change nothing else; IRQ entry with `P.I` 1 does
nothing. -/
def Obligations.InterruptEntry : Prop :=
  ∀ (s : State) (nmi : Bool) (vector : Word) (t : State),
    vector = (if nmi then 0xFFFA else 0xFFFE) → t = (if nmi then enterNmi s else enterIrq s) →
    (nmi = false → getFlag .i s.cpu.p = true → t = s) ∧
    (nmi = true ∨ getFlag .i s.cpu.p = false → ∃ p,
      t = { s with
        ram := t.ram
        cpu := { s.cpu with sp := s.cpu.sp - 3, p := p, pc := wordOf (peek vector s) (peek (vector + 1) s) } } ∧
      getFlag .d p = false ∧ getFlag .i p = (!nmi || getFlag .i s.cpu.p) ∧
      (∀ f, f ≠ .d → f ≠ .i → getFlag f p = getFlag f s.cpu.p) ∧
      peek (stackAddr s.cpu.sp) t = hiByte s.cpu.pc ∧
      peek (stackAddr (s.cpu.sp - 1)) t = loByte s.cpu.pc ∧
      peek (stackAddr (s.cpu.sp - 2)) t = (s.cpu.p ||| 0x20) &&& 0xEF ∧
      (∀ b, storageCell b s ≠ storageCell (stackAddr s.cpu.sp) s →
        storageCell b s ≠ storageCell (stackAddr (s.cpu.sp - 1)) s →
        storageCell b s ≠ storageCell (stackAddr (s.cpu.sp - 2)) s → peek b t = peek b s))

/-- R356: a request replaces the slot exactly when its priority is higher, RESET over NMI over IRQ over none; nothing
else changes. -/
def Obligations.RequestByPriority : Prop :=
  ∀ (kind : Line) (s : State),
    requestInterrupt kind s = { s with line := (requestInterrupt kind s).line } ∧
    (kind = .reset → (requestInterrupt kind s).line = .reset) ∧
    (kind = .nmi → (requestInterrupt kind s).line = if s.line = .reset then .reset else .nmi) ∧
    (kind = .irq → (requestInterrupt kind s).line = if s.line = .none then .irq else s.line) ∧
    (kind = .none → (requestInterrupt kind s).line = s.line)

/-- R381: the CPU reset writes the CPU registers only: A, X, Y to 0, `SP` to `RESET_SP`, `P` to 0x22, `PC` from the reset
vector; memory, the PPU, the InterruptLine, `stall` and `cpuCycles` are untouched. -/
def Obligations.CpuResetWritesRegistersOnly : Prop :=
  ∀ s : State, cpuReset s = { s with
    cpu := { a := 0, x := 0, y := 0, sp := s.params.resetSp, p := 0x22, pc := wordOf (peek 0xFFFC s) (peek 0xFFFD s) } }

/-! ### Invariants of the step -/

/-- The invariant `State.Inv` (canonical memories of the sizes of R20, a legal PPU position R41, Unused 1 R26, status
bits 4:0 clear R34, no cost left over) is kept by every step from every state that meets it. -/
def Obligations.StepKeepsInvariant : Prop :=
  ∀ s t : State, s.Inv → step s = .next t → t.Inv

/-- The invariant holds at reset. -/
def Obligations.ResetInvariant : Prop := State.reset.Inv

/-- R333, R341 (a), (b): from every state between steps, a step runs exactly three PPU ticks per CPU cycle it charges: the
position and frame counter move by `3 n` ticks when `cpuCycles` grows by `n`, and the count at reset is the position
(241,0) of frame 0. -/
def Obligations.ThreeTicksPerCycle : Prop :=
  (∀ s t : State, s.cost = 0 → step s = .next t → ThreePerCycle s t) ∧
  tickNumber State.reset = 242 * 341 ∧ State.reset.cpuCycles = 0

/-- R333: with `INTERRUPT_CYCLES` 7, from a state whose `stall` is at most 7, a step that latches no fault charges at
least 2 and at most 7 + 514 + 7 = 528 CPU cycles, and leaves `stall` 0 or 7. -/
def Obligations.StepCycleBounds : Prop :=
  ∀ s t : State, s.cost = 0 → s.params.interruptCycles = 7 → s.stall ≤ 7 → step s = .next t → t.fault = none →
    s.cpuCycles + 2 ≤ t.cpuCycles ∧ t.cpuCycles ≤ s.cpuCycles + 528 ∧ (t.stall = 0 ∨ t.stall = 7)

/-- R20, R318, R320: no step changes the cartridge, the parameters or the mirroring; PRG is immutable. -/
def Obligations.StepKeepsConfiguration : Prop :=
  ∀ s t : State, step s = .next t → t.cart = s.cart ∧ t.params = s.params ∧ t.mirroring = s.mirroring ∧
    ∀ a : Word, 0x8000 ≤ a.toNat → peek a t = peek a s

/-! ### Construction -/

/-- R380, R311, R316, R320, R305: a covered cartridge gives the power-on state of R47 with the launch memories as they
are given; a cartridge with another mapper identifier, other bank counts or the four-screen flag gives no machine but
its identifier. -/
def Obligations.PowerOnBuildsTheMachine : Prop :=
  ∀ (params : Params) (c : Cartridge) (m : LaunchMemory),
    (c.mapperId = 0 ∧ (c.prgBanks = 1 ∨ c.prgBanks = 2) ∧ (c.chrBanks = 0 ∨ c.chrBanks = 1) ∧ c.fourScreen = false →
      ∃ s, powerOn params c m = .ok s ∧
        s.cpu = { a := 0, x := 0, y := 0, sp := params.resetSp, p := 0x22,
                  pc := wordOf (peek 0xFFFC s) (peek 0xFFFD s) } ∧
        s.ppu = { ctrl := 0, mask := 0, status := 0, v := 0, t := 0, fineX := 0, w := false, oamAddr := 0,
                  oam := m.oam, palette := m.palette, readBuffer := 0, scanline := 241, cycle := 0, frame := 0,
                  suppressVbl := false, comp := [], out := [] } ∧
        s.ram = m.ram ∧ s.prgRam = m.prgRam ∧ s.nt0 = m.nt0 ∧ s.nt1 = m.nt1 ∧
        s.chr = (if c.chrBanks = 1 then c.chr else m.chrRam) ∧
        s.mirroring = c.mirroring ∧ s.cart = c ∧ s.params = params ∧
        s.line = .none ∧ s.stall = 0 ∧ s.cpuCycles = 0 ∧ s.fault = none) ∧
    (¬ (c.mapperId = 0 ∧ (c.prgBanks = 1 ∨ c.prgBanks = 2) ∧ (c.chrBanks = 0 ∨ c.chrBanks = 1) ∧
        c.fourScreen = false) →
      powerOn params c m = .error (.unsupportedMapper c.mapperId))

/-! ### PPU ports -/

/-- R233: a read of the status port (or a mirror) gives the three flags with the low five bits 0, clears `vblank` and
`w`, and remembers whether the position is (240,1); the sprite flags and everything else stay. -/
def Obligations.StatusPortRead : Prop :=
  ∀ (a : Word) (s : State), 0x2000 ≤ a.toNat → a.toNat < 0x4000 → a.toNat % 8 = 2 →
    (memRead a s).1 = s.ppu.status &&& 0xE0 ∧ (memRead a s).2 = { s with ppu := { s.ppu with
      status := s.ppu.status &&& 0x7F
      w := false
      suppressVbl := decide (s.ppu.scanline = 240 ∧ s.ppu.cycle = 1) } }

/-- R239, R240, R241: a data-port read gives the previous buffer below 0x3F00 and the palette byte at once above, refills
the buffer from the address (from 0x1000 below it for the palette) and steps `v` by 1 or 32 modulo 0x8000; a data-port
write stores at `v & 0x3FFF` and steps `v`, with the buffer untouched. -/
def Obligations.DataPort : Prop :=
  ∀ (a : Word) (d : Byte) (s : State) (b : PAddr) (v : VAddr), 0x2000 ≤ a.toNat → a.toNat < 0x4000 → a.toNat % 8 = 7 →
    b.toNat = s.ppu.v.toNat % 0x4000 →
    v.toNat = (s.ppu.v.toNat + if s.ppu.ctrl.toNat / 4 % 2 = 1 then 32 else 1) % 0x8000 →
    (b.toNat < 0x3F00 → memRead a s =
      (s.ppu.readBuffer, { s with ppu := { s.ppu with readBuffer := ppuMemRead b s, v := v } })) ∧
    (0x3F00 ≤ b.toNat → memRead a s =
      (ppuMemRead b s, { s with ppu := { s.ppu with readBuffer := ppuMemRead (b - 0x1000) s, v := v } })) ∧
    memWrite a d s = { ppuMemWrite b d s with ppu := { (ppuMemWrite b d s).ppu with v := v } } ∧
    (ppuMemWrite b d s).ppu.readBuffer = s.ppu.readBuffer

/-- R237, R238, R244: the two-write ports share the toggle. A first scroll write sets `t[4:0]` (coarse X) and fine X, a
second one `t[14:12]` (fine Y) and `t[9:5]` (coarse Y); a first address write sets `t[13:8]` and clears `t[14]`, a second
one sets `t[7:0]` and copies `t` to `v`; every write flips the toggle; nothing else changes. -/
def Obligations.ScrollAndAddressPorts : Prop :=
  ∀ (a : Word) (d : Byte) (s : State), 0x2000 ≤ a.toNat → a.toNat < 0x4000 →
    (a.toNat % 8 = 5 → s.ppu.w = false → memWrite a d s = { s with ppu := { s.ppu with
      t := s.ppu.t.extractLsb' 5 10 ++ d.extractLsb' 3 5
      fineX := d.extractLsb' 0 3
      w := true } }) ∧
    (a.toNat % 8 = 5 → s.ppu.w = true → memWrite a d s = { s with ppu := { s.ppu with
      t := d.extractLsb' 0 3 ++ s.ppu.t.extractLsb' 10 2 ++ d.extractLsb' 3 5 ++ s.ppu.t.extractLsb' 0 5
      w := false } }) ∧
    (a.toNat % 8 = 6 → s.ppu.w = false → memWrite a d s = { s with ppu := { s.ppu with
      t := 0#1 ++ d.extractLsb' 0 6 ++ s.ppu.t.extractLsb' 0 8
      w := true } }) ∧
    (a.toNat % 8 = 6 → s.ppu.w = true → memWrite a d s = { s with ppu := { s.ppu with
      t := s.ppu.t.extractLsb' 8 7 ++ d
      v := s.ppu.t.extractLsb' 8 7 ++ d
      w := false } })

/-- R231, R232, R234, R235, R236, R242: the control, mask and OAM ports do what their rules say and no more, and an access
in the wrong direction reads 0 and changes nothing. -/
def Obligations.ControlMaskAndOamPorts : Prop :=
  ∀ (a : Word) (d : Byte) (s : State), 0x2000 ≤ a.toNat → a.toNat < 0x4000 →
    (a.toNat % 8 = 0 → memWrite a d s = { s with ppu := { s.ppu with
      ctrl := d, t := s.ppu.t.extractLsb' 12 3 ++ d.extractLsb' 0 2 ++ s.ppu.t.extractLsb' 0 10 } }) ∧
    (a.toNat % 8 = 1 → memWrite a d s = { s with ppu := { s.ppu with mask := d } }) ∧
    (a.toNat % 8 = 2 → memWrite a d s = s) ∧
    (a.toNat % 8 = 3 → memWrite a d s = { s with ppu := { s.ppu with oamAddr := d } }) ∧
    (a.toNat % 8 = 4 → memRead a s = (Memory.get 0 s.ppu.oam s.ppu.oamAddr.toNat, s) ∧
      memWrite a d s = { s with ppu := { s.ppu with
        oam := (memWrite a d s).ppu.oam, oamAddr := BitVec.ofNat 8 (s.ppu.oamAddr.toNat + 1) } } ∧
      ∀ n, Memory.get 0 (memWrite a d s).ppu.oam n =
        if n = s.ppu.oamAddr.toNat then d else Memory.get 0 s.ppu.oam n) ∧
    (a.toNat % 8 = 0 ∨ a.toNat % 8 = 1 ∨ a.toNat % 8 = 3 ∨ a.toNat % 8 = 5 ∨ a.toNat % 8 = 6 → memRead a s = (0, s))

/-! ### PPU memory -/

/-- R79 to R81, R301, R302, R314: a byte written on the PPU bus is read back exactly at the addresses that alias it: the
same pattern address (dropped when the cartridge has a CHR bank), the same offset of a nametable slot on the same page
(0x3000 to 0x3EFF being 0x2000 to 0x2EFF again), the same palette entry (32 entries repeated, 0x10, 0x14, 0x18 and 0x1C
being 0x00, 0x04, 0x08 and 0x0C); every other address reads as before. -/
def Obligations.PpuMemoryAliasing : Prop :=
  ∀ (a b : PAddr) (d : Byte) (s : State) (page entry : Nat → Nat),
    page = (fun n => match s.mirroring with
      | .horizontal => n / 0x400 % 4 / 2
      | .vertical => n / 0x400 % 2
      | .singleLower => 0
      | .singleUpper => 1) →
    entry = (fun n => if n % 32 = 0x10 ∨ n % 32 = 0x14 ∨ n % 32 = 0x18 ∨ n % 32 = 0x1C then n % 16 else n % 32) →
    ppuMemRead b (ppuMemWrite a d s) =
      if (a.toNat < 0x2000 ∧ s.cart.chrBanks = 0 ∧ b = a) ∨
          (0x2000 ≤ a.toNat ∧ a.toNat < 0x3F00 ∧ 0x2000 ≤ b.toNat ∧ b.toNat < 0x3F00 ∧
            page a.toNat = page b.toNat ∧ a.toNat % 0x400 = b.toNat % 0x400) ∨
          (0x3F00 ≤ a.toNat ∧ 0x3F00 ≤ b.toNat ∧ entry a.toNat = entry b.toNat)
      then d else ppuMemRead b s

/-! ### OAM DMA -/

/-- R336 to R338: a store of `d` to 0x4014 reads the 256 bytes of page `d` in order, each at the state the copy so far has
left, and stores byte `i` at `oam[(oamAddr + i) mod 256]`; `oamAddr` ends where it began; `stall` grows by 513, or 514
when `cpuCycles` is odd; no byte of CPU memory and no CPU register changes. Outside the port pages the bytes are those
of the state before. -/
def Obligations.OamDmaCopiesAPage : Prop :=
  ∀ (d : Byte) (s t : State), t = memWrite 0x4014 d s →
    (∀ i < 256, Memory.get 0 t.ppu.oam ((s.ppu.oamAddr.toNat + i) % 256) =
      (memRead (BitVec.ofNat 16 (d.toNat * 256 + i)) (dmaCopy d i s)).1) ∧
    (d.toNat < 0x20 ∨ 0x41 ≤ d.toNat → ∀ i < 256, Memory.get 0 t.ppu.oam ((s.ppu.oamAddr.toNat + i) % 256) =
      (memRead (BitVec.ofNat 16 (d.toNat * 256 + i)) s).1) ∧
    t.ppu.oamAddr = s.ppu.oamAddr ∧
    t.stall = s.stall + (if s.cpuCycles % 2 = 1 then 514 else 513) ∧
    t.cpu = s.cpu ∧ t.line = s.line ∧ MemoryKept s t ∧
    (d.toNat < 0x20 ∨ 0x41 ≤ d.toNat →
      t = { s with ppu := { s.ppu with oam := t.ppu.oam }, stall := t.stall })

/-! ### The PPU's ticks -/

/-- R261, R262, R283, R285: a tick advances the position by one cycle, wrapping after 340 to the next scanline and after
(260,340) to scanline -1 of the next frame; at a position with no event in the table of R262 it does nothing else. -/
def Obligations.TickAdvancesThePosition : Prop :=
  ∀ s : State,
    ((ppuTick s).ppu.cycle = if s.ppu.cycle = 340 then 0 else s.ppu.cycle + 1) ∧
    ((ppuTick s).ppu.scanline = if s.ppu.cycle = 340 then (if s.ppu.scanline = 260 then -1 else s.ppu.scanline + 1)
      else s.ppu.scanline) ∧
    ((ppuTick s).ppu.frame = if s.ppu.cycle = 340 ∧ s.ppu.scanline = 260 then s.ppu.frame + 1 else s.ppu.frame) ∧
    (¬ (0 ≤ s.ppu.scanline ∧ s.ppu.scanline ≤ 239 ∧
          (s.ppu.cycle = s.params.renderCycle ∨ s.ppu.cycle = s.params.vupdateCycle)) →
      ¬ (s.ppu.scanline = 240 ∧ s.ppu.cycle = 1) → ¬ (s.ppu.scanline = 260 ∧ s.ppu.cycle = 1) →
      ¬ (s.ppu.scanline = -1 ∧ s.ppu.cycle = 1) → ¬ (s.ppu.scanline = -1 ∧ s.ppu.cycle = 304) →
      ppuTick s = { s with ppu := { s.ppu with
        cycle := (ppuTick s).ppu.cycle, scanline := (ppuTick s).ppu.scanline, frame := (ppuTick s).ppu.frame } })

/-- R278, R279, R282, R284, R288: the tick (240,1) sets `vblank` and, when enabled, requests the NMI, unless a status
read suppressed it, and clears the suppression; (260,1) clears `vblank`; (-1,1) clears the two sprite flags; (-1,304)
copies `t` to `v` when rendering is enabled; no other tick sets `vblank`. -/
def Obligations.VblankAndPreRenderTicks : Prop :=
  ∀ s : State,
    (s.ppu.scanline = 240 → s.ppu.cycle = 1 → (ppuTick s).ppu.suppressVbl = false ∧
      (s.ppu.suppressVbl = false → (ppuTick s).ppu.status = s.ppu.status ||| 0x80 ∧
        (ppuTick s).line = if s.ppu.ctrl.getLsbD 7 then (requestInterrupt .nmi s).line else s.line) ∧
      (s.ppu.suppressVbl = true → (ppuTick s).ppu.status = s.ppu.status ∧ (ppuTick s).line = s.line)) ∧
    (s.ppu.scanline = 260 → s.ppu.cycle = 1 → (ppuTick s).ppu.status = s.ppu.status &&& 0x7F) ∧
    (s.ppu.scanline = -1 → s.ppu.cycle = 1 → (ppuTick s).ppu.status = s.ppu.status &&& 0x9F) ∧
    (s.ppu.scanline = -1 → s.ppu.cycle = 304 → (ppuTick s).ppu.v =
      if s.ppu.mask.getLsbD 3 || s.ppu.mask.getLsbD 4 then s.ppu.t else s.ppu.v) ∧
    (¬ (s.ppu.scanline = 240 ∧ s.ppu.cycle = 1) →
      (ppuTick s).line = s.line ∧ ((ppuTick s).ppu.status.getLsbD 7 = true → s.ppu.status.getLsbD 7 = true))

/-- R280, R281: the tick (240,1) drains the composition buffer, in canonical form, into `out`, entry by entry, cropped
by 8 pixels on each edge under `OVERSCAN_CROP`, and clears every entry; no other tick writes `out`. -/
def Obligations.DrainHandsOffTheFrame : Prop :=
  ∀ s : State, Memory.wf Pixel.clear 61440 s.ppu.comp →
    (s.ppu.scanline = 240 → s.ppu.cycle = 1 →
      (∀ p, Memory.get Pixel.clear (ppuTick s).ppu.comp p = Pixel.clear) ∧
      (s.params.overscanCrop = false → ∀ p < 61440,
        Memory.get 0 (ppuTick s).ppu.out p = (Memory.get Pixel.clear s.ppu.comp p).color) ∧
      (s.params.overscanCrop = true → ∀ x y, 8 ≤ x → x ≤ 247 → 8 ≤ y → y ≤ 231 →
        Memory.get 0 (ppuTick s).ppu.out ((y - 8) * 240 + (x - 8)) =
          (Memory.get Pixel.clear s.ppu.comp (y * 256 + x)).color)) ∧
    (¬ (s.ppu.scanline = 240 ∧ s.ppu.cycle = 1) → (ppuTick s).ppu.out = s.ppu.out)

/-- R265, R267, R268, R277: the background row of scanline `y` overwrites the 256 entries of row `y`: pixel `x` is bit
`7 - (x + fineX) mod 8` of tile `(x + fineX) / 8`, where tile `k` is fetched at `IncCoarseX` applied `k` times to `v`; in
the left column it is forced to pattern 0 unless shown; its colour is `palette[0]` for pattern 0 and `palette[4 g + px]`
else, and its owner the background. Nothing else changes. R263: with the background shown and sprites off that is what the
row event leaves, and at another cycle than `VUPDATE_CYCLE` `v` stays; RowCompositing says what it does in general. That the
row is composited from the `v` before the scroll update also when `RENDER_CYCLE` = `VUPDATE_CYCLE` is no rule of the spec:
it is the model's choice (log 16, DEDUCED). -/
def Obligations.BackgroundRow : Prop :=
  ∀ (s : State) (y x : Nat) (addr : Nat → VAddr) (tile : Nat → TileRow) (px : BitVec 2),
    y < 240 → x < 256 →
    addr 0 = s.ppu.v → (∀ k, addr (k + 1) = incCoarseX (addr k)) → (∀ k, tile k = fetchTile (addr k) s) →
    px = (if x < 8 ∧ s.ppu.mask.getLsbD 1 = false then 0
      else BitVec.ofNat 2
        ((if (tile ((x + s.ppu.fineX.toNat) / 8)).lo.getLsbD (7 - (x + s.ppu.fineX.toNat) % 8) then 1 else 0) +
         (if (tile ((x + s.ppu.fineX.toNat) / 8)).hi.getLsbD (7 - (x + s.ppu.fineX.toNat) % 8) then 2 else 0))) →
    Memory.get Pixel.clear (renderBackgroundRow y s).ppu.comp (y * 256 + x) =
      { color := BitVec.ofNat 6 ((Memory.get 0 s.ppu.palette
          (if px = 0 then 0 else 4 * (tile ((x + s.ppu.fineX.toNat) / 8)).group.toNat + px.toNat)).toNat % 64)
        opacity := px
        owner := none } ∧
    (∀ p, p < y * 256 ∨ y * 256 + 256 ≤ p →
      Memory.get Pixel.clear (renderBackgroundRow y s).ppu.comp p = Memory.get Pixel.clear s.ppu.comp p) ∧
    renderBackgroundRow y s = { s with ppu := { s.ppu with comp := (renderBackgroundRow y s).ppu.comp } } ∧
    (s.ppu.scanline = y → s.ppu.cycle = s.params.renderCycle →
      s.ppu.mask.getLsbD 3 = true → s.ppu.mask.getLsbD 4 = false →
      (ppuTick s).ppu.comp = (renderBackgroundRow y s).ppu.comp ∧
      (s.params.renderCycle ≠ s.params.vupdateCycle → (ppuTick s).ppu.v = s.ppu.v))

/-- R264, R266: a tile is fetched from the nametable byte that the low 12 bits of the address name, the attribute byte of
its 4 by 4 tile area in the last 64 bytes of the same nametable, of which the quadrant selects two bits, and the two
bit-planes of the pattern row `tile * 16 + table + fine Y`, eight bytes apart. -/
def Obligations.TileFetch : Prop :=
  ∀ (a : VAddr) (s : State) (cx cy slot : Nat) (tile attr : Byte) (pa : PAddr),
    cx = a.toNat % 32 → cy = a.toNat / 32 % 32 → slot = a.toNat / 0x400 % 4 →
    tile = ppuMemRead (BitVec.ofNat 14 (0x2000 + a.toNat % 0x1000)) s →
    attr = ppuMemRead (BitVec.ofNat 14 (0x2000 + slot * 0x400 + 0x3C0 + cy / 4 * 8 + cx / 4)) s →
    pa.toNat = tile.toNat * 16 + (if s.ppu.ctrl.getLsbD 4 then 4096 else 0) + a.toNat / 0x1000 →
    fetchTile a s =
      { lo := ppuMemRead pa s
        hi := ppuMemRead (pa + 8) s
        group := BitVec.ofNat 2 (attr.toNat / 2 ^ (cy / 2 % 2 * 4 + cx / 2 % 2 * 2)) }

/-- R276, R277: the scroll event of a visible scanline steps `v` to the next pixel row (fine Y `v[14:12]`, then coarse Y
`v[9:5]` with the switch of `v[11]` after row 29 and none after row 31) and reloads `v[10]` and `v[4:0]` from `t`; the
step to the next tile goes from coarse X 31 to 0 of the other horizontal nametable, and by one in the field otherwise.
With both show flags 0 no tick writes `v` (R286's last sentence); whatever the flags, a tick of a visible scanline at
another cycle than `VUPDATE_CYCLE` does not. -/
def Obligations.ScrollUpdate : Prop :=
  (∀ (s : State) (v' : VAddr), 0 ≤ s.ppu.scanline → s.ppu.scanline ≤ 239 →
    s.ppu.cycle = s.params.vupdateCycle → s.params.renderCycle ≠ s.params.vupdateCycle →
    (s.ppu.mask.getLsbD 3 || s.ppu.mask.getLsbD 4) = true → v' = (ppuTick s).ppu.v →
    v'.extractLsb' 12 3 = s.ppu.v.extractLsb' 12 3 + 1 ∧
    v'.extractLsb' 5 5 = (if s.ppu.v.extractLsb' 12 3 ≠ 7 then s.ppu.v.extractLsb' 5 5
      else if s.ppu.v.extractLsb' 5 5 = 29 then 0 else s.ppu.v.extractLsb' 5 5 + 1) ∧
    v'.getLsbD 11 = (if s.ppu.v.extractLsb' 12 3 = 7 ∧ s.ppu.v.extractLsb' 5 5 = 29 then !s.ppu.v.getLsbD 11
      else s.ppu.v.getLsbD 11) ∧
    v'.getLsbD 10 = s.ppu.t.getLsbD 10 ∧ v'.extractLsb' 0 5 = s.ppu.t.extractLsb' 0 5) ∧
  (∀ a : VAddr,
    (incCoarseX a).extractLsb' 11 4 = a.extractLsb' 11 4 ∧
    (incCoarseX a).getLsbD 10 = (if a.extractLsb' 0 5 = 31 then !a.getLsbD 10 else a.getLsbD 10) ∧
    (incCoarseX a).extractLsb' 5 5 = a.extractLsb' 5 5 ∧
    (incCoarseX a).extractLsb' 0 5 = a.extractLsb' 0 5 + 1) ∧
  (∀ s : State,
    (s.ppu.mask.getLsbD 3 = false → s.ppu.mask.getLsbD 4 = false → (ppuTick s).ppu.v = s.ppu.v) ∧
    (0 ≤ s.ppu.scanline → s.ppu.scanline ≤ 239 → s.ppu.cycle ≠ s.params.vupdateCycle → (ppuTick s).ppu.v = s.ppu.v))

/-- R270, R271, R272: with the sprite limit enabled, evaluating a scanline sets sprite overflow exactly when at least nine
of the 64 sprites cover it (`Y + 1 <= y <= Y + h`, `h` 8 or 16), and with the limit disabled never; a flag already set
stays set. -/
def Obligations.SpriteOverflow : Prop :=
  ∀ (s : State) (y h covering : Nat), y < 240 → h = (if s.ppu.ctrl.getLsbD 5 then 16 else 8) →
    covering = ((List.range 64).filter fun i => decide ((Memory.get 0 s.ppu.oam (4 * i)).toNat + 1 ≤ y ∧
      y ≤ (Memory.get 0 s.ppu.oam (4 * i)).toNat + h)).length →
    ((evaluateSprites y s).ppu.status.getLsbD 5 = true ↔ s.ppu.status.getLsbD 5 = true ∨
      s.params.spriteLimitEnabled = true ∧ 9 ≤ covering)

/-- R270 to R272: evaluating the sprites of a scanline composites, in OAM order and one after another, the first eight
sprites that cover it (`Y + 1 <= y <= Y + h`, `h` 8 or 16) under the sprite limit, every one of them without it, and
sets sprite overflow when the limit leaves one out. R274, R275, R265: it never changes an entry that a sprite already
owns, nor an entry of another row; an entry it changes shows an opaque pixel of a sprite that covers the scanline and,
over an opaque background entry, has priority bit 5 clear; and it sets sprite-0 hit only when sprite 0 covers the
scanline and the row has an opaque background entry. -/
def Obligations.SpriteCompositing : Prop :=
  ∀ (s : State) (y h : Nat) (covers : Fin 64 → Bool) (covering drawn : List (Fin 64)) (t : State), y < 240 →
    h = (if s.ppu.ctrl.getLsbD 5 then 16 else 8) →
    (∀ i : Fin 64, covers i = decide ((Memory.get 0 s.ppu.oam (4 * i.val)).toNat + 1 ≤ y ∧
      y ≤ (Memory.get 0 s.ppu.oam (4 * i.val)).toNat + h)) →
    covering = (List.finRange 64).filter covers →
    drawn = (if s.params.spriteLimitEnabled = true then covering.take 8 else covering) →
    t = drawn.foldl (fun u i => compositeSprite i y h u) s →
    evaluateSprites y s = (if s.params.spriteLimitEnabled = true ∧ 9 ≤ covering.length
      then { t with ppu := { t.ppu with status := t.ppu.status ||| 0x20 } } else t) ∧
    (∀ p, (Memory.get Pixel.clear s.ppu.comp p).owner ≠ none ∨ p < y * 256 ∨ y * 256 + 256 ≤ p →
      Memory.get Pixel.clear (evaluateSprites y s).ppu.comp p = Memory.get Pixel.clear s.ppu.comp p) ∧
    (∀ p, Memory.get Pixel.clear (evaluateSprites y s).ppu.comp p ≠ Memory.get Pixel.clear s.ppu.comp p →
      ∃ i : Fin 64, covers i = true ∧ (Memory.get Pixel.clear (evaluateSprites y s).ppu.comp p).owner = some i ∧
        (Memory.get Pixel.clear (evaluateSprites y s).ppu.comp p).opacity ≠ 0 ∧
        ((Memory.get Pixel.clear s.ppu.comp p).opacity ≠ 0 →
          (Memory.get 0 s.ppu.oam (4 * i.val + 2)).getLsbD 5 = false)) ∧
    ((evaluateSprites y s).ppu.status.getLsbD 6 = true → s.ppu.status.getLsbD 6 = true ∨
      (covers 0 = true ∧ ∃ x < 256,
        (Memory.get Pixel.clear s.ppu.comp (y * 256 + x)).owner = none ∧
        (Memory.get Pixel.clear s.ppu.comp (y * 256 + x)).opacity ≠ 0))

/-- R273 to R275: compositing sprite `i` on a scanline it covers: the row of the pattern it shows (flipped vertically by
attribute bit 7; the 8×16 form takes its table from tile bit 0), column by column from its X (flipped by bit 6), clipped
at the right edge; a pixel that is opaque and not hidden by the left-column flag takes an entry no sprite owns, unless
the entry is opaque background and the sprite is behind (bit 5); sprite 0 over such an opaque background entry sets the
hit flag, whatever its priority. No other entry, no other status bit and nothing else changes. -/
def Obligations.SpriteRow : Prop :=
  ∀ (s : State) (i : Fin 64) (y h r x0 : Nat) (tile attr : Byte) (pa : PAddr) (px : Nat → BitVec 2) (shown : Nat → Bool),
    y < 240 → h = (if s.ppu.ctrl.getLsbD 5 then 16 else 8) →
    (Memory.get 0 s.ppu.oam (4 * i.val)).toNat + 1 ≤ y → y ≤ (Memory.get 0 s.ppu.oam (4 * i.val)).toNat + h →
    tile = Memory.get 0 s.ppu.oam (4 * i.val + 1) → attr = Memory.get 0 s.ppu.oam (4 * i.val + 2) →
    x0 = (Memory.get 0 s.ppu.oam (4 * i.val + 3)).toNat →
    r = (if attr.getLsbD 7 then h - 1 - (y - ((Memory.get 0 s.ppu.oam (4 * i.val)).toNat + 1))
      else y - ((Memory.get 0 s.ppu.oam (4 * i.val)).toNat + 1)) →
    pa.toNat = (if h = 8 then (if s.ppu.ctrl.getLsbD 3 then 4096 else 0) + tile.toNat * 16 + r
      else tile.toNat % 2 * 4096 + (tile.toNat / 2 * 2 + (if 8 ≤ r then 1 else 0)) * 16 + r % 8) →
    (∀ x, px x = if x0 ≤ x ∧ x < x0 + 8 then
        BitVec.ofNat 2
          ((if (ppuMemRead pa s).getLsbD (if attr.getLsbD 6 then x - x0 else 7 - (x - x0)) then 1 else 0) +
           (if (ppuMemRead (pa + 8) s).getLsbD (if attr.getLsbD 6 then x - x0 else 7 - (x - x0)) then 2 else 0))
      else 0) →
    (∀ x, shown x = decide (px x ≠ 0 ∧ ¬ (x < 8 ∧ s.ppu.mask.getLsbD 2 = false))) →
    (∀ x < 256, Memory.get Pixel.clear (compositeSprite i y h s).ppu.comp (y * 256 + x) =
      if shown x = true ∧ (Memory.get Pixel.clear s.ppu.comp (y * 256 + x)).owner = none ∧
          ¬ ((Memory.get Pixel.clear s.ppu.comp (y * 256 + x)).opacity ≠ 0 ∧ attr.getLsbD 5 = true)
      then { color := BitVec.ofNat 6 ((Memory.get 0 s.ppu.palette (16 + 4 * (attr.toNat % 4) + (px x).toNat)).toNat % 64)
             opacity := px x
             owner := some i }
      else Memory.get Pixel.clear s.ppu.comp (y * 256 + x)) ∧
    ((compositeSprite i y h s).ppu.status.getLsbD 6 = true ↔ s.ppu.status.getLsbD 6 = true ∨
      i = 0 ∧ ∃ x < 256, shown x = true ∧ (Memory.get Pixel.clear s.ppu.comp (y * 256 + x)).owner = none ∧
        (Memory.get Pixel.clear s.ppu.comp (y * 256 + x)).opacity ≠ 0) ∧
    (∀ p, p < y * 256 ∨ y * 256 + 256 ≤ p →
      Memory.get Pixel.clear (compositeSprite i y h s).ppu.comp p = Memory.get Pixel.clear s.ppu.comp p) ∧
    (∀ k, k ≠ 6 → (compositeSprite i y h s).ppu.status.getLsbD k = s.ppu.status.getLsbD k) ∧
    compositeSprite i y h s = { s with ppu := { s.ppu with
      comp := (compositeSprite i y h s).ppu.comp, status := (compositeSprite i y h s).ppu.status } }

/-- R263, R262: the tick at `RENDER_CYCLE` of visible scanline `y` composites the background row if the background is
shown, then evaluates the sprites over it if sprites are shown, and does nothing else but the advance of the position and,
when `VUPDATE_CYCLE` is the same cycle, the scroll update of `v`; no other tick of a visible scanline changes the
composition buffer or the status. R263 and R262 say so for unequal cycles; that at equal ones the row is composited before
`v` is stepped is no rule of the spec: it is the model's choice (log 16, DEDUCED). -/
def Obligations.RowCompositing : Prop :=
  ∀ (s b f : State) (y : Nat), y < 240 → s.ppu.scanline = y →
    b = (if s.ppu.mask.getLsbD 3 then renderBackgroundRow y s else s) →
    f = (if s.ppu.mask.getLsbD 4 then evaluateSprites y b else b) →
    (s.ppu.cycle = s.params.renderCycle →
      ppuTick s = { s with ppu := { s.ppu with
        comp := f.ppu.comp
        status := f.ppu.status
        v := (ppuTick s).ppu.v
        cycle := (ppuTick s).ppu.cycle
        scanline := (ppuTick s).ppu.scanline
        frame := (ppuTick s).ppu.frame } } ∧
      (s.params.renderCycle ≠ s.params.vupdateCycle → (ppuTick s).ppu.v = s.ppu.v)) ∧
    (s.ppu.cycle ≠ s.params.renderCycle →
      (ppuTick s).ppu.comp = s.ppu.comp ∧ (ppuTick s).ppu.status = s.ppu.status)
end

