-- ==== Sys2Proof/Laws/Flags.lean ====
section
/-! SUPPORT. Laws of the byte helpers and of the flags of `P`. -/

namespace Sys2Proof.Machine

/-! ### Bytes and words -/

theorem wordOf_toNat (lo hi : Byte) : (wordOf lo hi).toNat = hi.toNat * 256 + lo.toNat := by
  rw [wordOf, BitVec.toNat_append, ← Nat.shiftLeft_add_eq_or_of_lt lo.isLt, Nat.shiftLeft_eq]

theorem loByte_toNat (w : Word) : (loByte w).toNat = w.toNat % 256 := by
  simp [loByte]

theorem hiByte_toNat (w : Word) : (hiByte w).toNat = w.toNat / 256 := by
  have := w.isLt
  simp [hiByte, Nat.shiftRight_eq_div_pow]
  omega

@[simp] theorem wordOf_loByte_hiByte (w : Word) : wordOf (loByte w) (hiByte w) = w := by
  apply BitVec.eq_of_toNat_eq
  rw [wordOf_toNat, loByte_toNat, hiByte_toNat]
  omega

@[simp] theorem loByte_wordOf (lo hi : Byte) : loByte (wordOf lo hi) = lo := by
  apply BitVec.eq_of_toNat_eq
  rw [loByte_toNat, wordOf_toNat]
  omega

@[simp] theorem hiByte_wordOf (lo hi : Byte) : hiByte (wordOf lo hi) = hi := by
  apply BitVec.eq_of_toNat_eq
  rw [hiByte_toNat, wordOf_toNat]
  omega

@[simp] theorem zext16_toNat (b : Byte) : (zext16 b).toNat = b.toNat := by
  have := b.isLt
  simp [zext16]
  omega

theorem byte_getLsbD_7 (v : Byte) : v.getLsbD 7 = decide (128 ≤ v.toNat) := by
  revert v
  decide

/-! ### Single bits of a byte -/

theorem getLsbD_putBit {i j : Nat} (b : Bool) (p : Byte) (hi : i < 8) (hj : j < 8) :
    (putBit i b p).getLsbD j = if j = i then b else p.getLsbD j := by
  have hp : (1#8).getLsbD (j - i) = decide (j - i = 0) := by simp
  cases b
  · simp only [putBit, Bool.false_eq_true, if_false, BitVec.getLsbD_and, BitVec.getLsbD_not, BitVec.getLsbD_shiftLeft, hp]
    by_cases h : j = i
    · simp [h, hi]
    · by_cases h' : j < i
      · simp [h, h', hj]
      · have : ¬ j - i = 0 := by omega
        simp [h, h', this, hj]
  · simp only [putBit, if_true, BitVec.getLsbD_or, BitVec.getLsbD_shiftLeft, hp]
    by_cases h : j = i
    · simp [h, hi]
    · by_cases h' : j < i
      · simp [h, h']
      · have : ¬ j - i = 0 := by omega
        simp [h, this]

theorem byte_ext_of_flags {p q : Byte} (h : ∀ f, getFlag f p = getFlag f q) : p = q := by
  apply BitVec.eq_of_getLsbD_eq
  intro i hi
  have : i = 0 ∨ i = 1 ∨ i = 2 ∨ i = 3 ∨ i = 4 ∨ i = 5 ∨ i = 6 ∨ i = 7 := by omega
  rcases this with rfl | rfl | rfl | rfl | rfl | rfl | rfl | rfl
  exacts [h .c, h .z, h .i, h .d, h .b, h .u, h .v, h .n]

/-! ### Flags -/

theorem Flag.bit_lt (f : Flag) : f.bit < 8 := by cases f <;> decide

theorem Flag.bit_inj {f g : Flag} : f.bit = g.bit ↔ f = g := by cases f <;> cases g <;> decide

/-- What a flag holds after one flag is written. -/
theorem getFlag_putFlag (f g : Flag) (b : Bool) (p : Byte) :
    getFlag f (putFlag g b p) = if f = g then b else getFlag f p := by
  simp only [getFlag, putFlag, getLsbD_putBit b p g.bit_lt f.bit_lt, Flag.bit_inj]

@[simp] theorem getFlag_putFlag_same (f : Flag) (b : Bool) (p : Byte) : getFlag f (putFlag f b p) = b := by
  simp [getFlag_putFlag]

theorem getFlag_putFlag_other {f g : Flag} (h : f ≠ g) (b : Bool) (p : Byte) :
    getFlag f (putFlag g b p) = getFlag f p := by
  simp [getFlag_putFlag, h]

/-- What a flag holds after `SetZN`. -/
theorem getFlag_setZN (f : Flag) (v p : Byte) :
    getFlag f (setZN v p) = if f = .n then v.getLsbD 7 else if f = .z then v == 0 else getFlag f p := by
  simp only [setZN, getFlag_putFlag]

theorem zNOf_setZN (v p : Byte) : ZNOf v p (setZN v p) := by
  refine ⟨?_, ?_, fun f hz hn => ?_⟩
  · simp [getFlag_setZN, beq_eq_decide]
  · rw [getFlag_setZN, if_pos rfl, byte_getLsbD_7]
  · simp [getFlag_setZN, hz, hn]

theorem cZNOf_setZN (c : Bool) (v p : Byte) : CZNOf c v p (setZN v (putFlag .c c p)) := by
  refine ⟨?_, ?_, ?_, fun f hc hz hn => ?_⟩
  · simp [getFlag_setZN]
  · simp [getFlag_setZN, beq_eq_decide]
  · rw [getFlag_setZN, if_pos rfl, byte_getLsbD_7]
  · simp [getFlag_setZN, getFlag_putFlag, hc, hz, hn]

theorem flagSetTo_putFlag (f : Flag) (b : Bool) (p : Byte) : FlagSetTo f b p (putFlag f b p) :=
  ⟨by simp, fun _ h => getFlag_putFlag_other h b p⟩

theorem getFlag_withUnused (f : Flag) (v : Byte) :
    getFlag f (withUnused v) = (decide (f = .u) || getFlag f v) := by
  revert v
  cases f <;> decide

theorem getFlag_pushedBySoftware (f : Flag) (p : Byte) :
    getFlag f (pushedBySoftware p) = (decide (f = .u) || decide (f = .b) || getFlag f p) := by
  revert p
  cases f <;> decide

theorem getFlag_pushedByHardware (f : Flag) (p : Byte) :
    getFlag f (pushedByHardware p) = (decide (f = .u) || (decide (f ≠ .b) && getFlag f p)) := by
  revert p
  cases f <;> decide

/-! ### The flag Unused is kept by every flag computation -/

theorem getFlag_u_setZN (v p : Byte) : getFlag .u (setZN v p) = getFlag .u p := by simp [getFlag_setZN]

theorem getFlag_u_adc (e : Bool) (a m p : Byte) : getFlag .u (adc e a m p).2 = getFlag .u p := by
  unfold adc
  split
  · simp [adcDecimal, getFlag_putFlag]
  · simp [adcBinary, getFlag_setZN, getFlag_putFlag]

theorem getFlag_u_sbc (e : Bool) (a m p : Byte) : getFlag .u (sbc e a m p).2 = getFlag .u p := by
  unfold sbc
  split <;> simp [sbcDecimal, sbcBinary, adcBinary, getFlag_setZN, getFlag_putFlag]

theorem getFlag_u_compareFlags (r m p : Byte) : getFlag .u (compareFlags r m p) = getFlag .u p := by
  simp [compareFlags, getFlag_setZN, getFlag_putFlag]

theorem getFlag_u_bitTest (a m p : Byte) : getFlag .u (bitTest a m p) = getFlag .u p := by
  simp [bitTest, getFlag_putFlag]

theorem getFlag_u_inc (v p : Byte) : getFlag .u (inc v p).2 = getFlag .u p := by simp [inc, getFlag_setZN]

theorem getFlag_u_dec (v p : Byte) : getFlag .u (dec v p).2 = getFlag .u p := by simp [dec, getFlag_setZN]

theorem getFlag_u_asl (v p : Byte) : getFlag .u (asl v p).2 = getFlag .u p := by
  simp [asl, getFlag_setZN, getFlag_putFlag]

theorem getFlag_u_lsr (v p : Byte) : getFlag .u (lsr v p).2 = getFlag .u p := by
  simp [lsr, getFlag_setZN, getFlag_putFlag]

theorem getFlag_u_rol (v p : Byte) : getFlag .u (rol v p).2 = getFlag .u p := by
  simp [rol, getFlag_setZN, getFlag_putFlag]

theorem getFlag_u_ror (v p : Byte) : getFlag .u (ror v p).2 = getFlag .u p := by
  simp [ror, getFlag_setZN, getFlag_putFlag]

end Sys2Proof.Machine
end

