-- ==== Sys2Proof/Laws/Memory.lean ====
section
/-! SUPPORT. Laws of the sparse tables: read after write, the canonical form kept by every operation, and equal contents
being equal tables. -/

namespace Sys2Proof.Machine

variable {α : Type} {d : α} {m : Sparse α} {n k bound : Nat} {v : α}

@[simp] theorem Memory.get_nil : Memory.get d [] n = d := rfl

theorem Memory.get_cons (c : Nat × α) : Memory.get d (c :: m) n = if c.1 = n then c.2 else Memory.get d m n := rfl

/-- A table all of whose keys differ from `n` reads as the default there. -/
theorem Memory.get_of_forall_ne (h : ∀ c ∈ m, c.1 ≠ n) : Memory.get d m n = d := by
  induction m with
  | nil => rfl
  | cons c m ih =>
    rw [Memory.get_cons, if_neg (h c (by simp)), ih fun c' hc => h c' (by simp [hc])]

@[simp] theorem Memory.get_erase_same : Memory.get d (Memory.erase m n) n = d := by
  induction m with
  | nil => rfl
  | cons c m ih =>
    by_cases h : c.1 = n
    · simp [Memory.erase, h, ih]
    · simp [Memory.erase, h, Memory.get_cons, ih]

theorem Memory.get_erase_other (h : k ≠ n) : Memory.get d (Memory.erase m n) k = Memory.get d m k := by
  induction m with
  | nil => rfl
  | cons c m ih =>
    by_cases hn : c.1 = n
    · simp [Memory.erase, hn, ih, Memory.get_cons, Ne.symm h]
    · simp [Memory.erase, hn, Memory.get_cons, ih]

theorem Memory.mem_erase {c : Nat × α} : c ∈ Memory.erase m n ↔ c ∈ m ∧ c.1 ≠ n := by
  induction m with
  | nil => simp [Memory.erase]
  | cons c' m ih =>
    by_cases hn : c'.1 = n
    · simp only [Memory.erase, hn, if_true, ih, List.mem_cons]
      exact ⟨fun h => ⟨.inr h.1, h.2⟩, fun h => ⟨h.1.resolve_left fun e => h.2 (e ▸ hn), h.2⟩⟩
    · simp only [Memory.erase, hn, if_false, ih, List.mem_cons]
      constructor
      · rintro (rfl | h)
        · exact ⟨.inl rfl, hn⟩
        · exact ⟨.inr h.1, h.2⟩
      · rintro ⟨rfl | h, h'⟩
        · exact .inl rfl
        · exact .inr ⟨h, h'⟩

theorem Memory.get_insert_same (h : ∀ c ∈ m, c.1 ≠ n) : Memory.get d (Memory.insert m n v) n = v := by
  induction m with
  | nil => simp [Memory.insert, Memory.get_cons]
  | cons c m ih =>
    have hc := h c (by simp)
    by_cases hn : n < c.1
    · simp [Memory.insert, hn, Memory.get_cons]
    · simp [Memory.insert, hn, Memory.get_cons, hc, ih fun c' hc' => h c' (by simp [hc'])]

theorem Memory.get_insert_other (h : k ≠ n) : Memory.get d (Memory.insert m n v) k = Memory.get d m k := by
  induction m with
  | nil => simp [Memory.insert, Memory.get_cons, Ne.symm h]
  | cons c m ih =>
    by_cases hn : n < c.1
    · simp [Memory.insert, hn, Memory.get_cons, Ne.symm h]
    · simp [Memory.insert, hn, Memory.get_cons, ih]

theorem Memory.mem_insert {c : Nat × α} : c ∈ Memory.insert m n v ↔ c = (n, v) ∨ c ∈ m := by
  induction m with
  | nil => simp [Memory.insert]
  | cons c' m ih =>
    by_cases hn : n < c'.1
    · simp [Memory.insert, hn]
    · simp only [Memory.insert, hn, if_false, List.mem_cons, ih]
      tauto

section
variable [DecidableEq α]

/-- A read after a write to the same place gives the value written. -/
@[simp] theorem Memory.get_set_same : Memory.get d (Memory.set d m n v) n = v := by
  unfold Memory.set
  split
  · simp [*]
  · exact Memory.get_insert_same fun c hc => (Memory.mem_erase.1 hc).2

/-- A write leaves every other place alone. -/
theorem Memory.get_set_other (h : k ≠ n) : Memory.get d (Memory.set d m n v) k = Memory.get d m k := by
  unfold Memory.set
  split
  · exact Memory.get_erase_other h
  · rw [Memory.get_insert_other h, Memory.get_erase_other h]

theorem Memory.get_set : Memory.get d (Memory.set d m n v) k = if k = n then v else Memory.get d m k := by
  split
  · simp [*]
  · exact Memory.get_set_other ‹_›

end

/-! ### The canonical form -/

theorem Memory.wf_nil : Memory.wf d bound ([] : Sparse α) := ⟨.nil, by simp⟩

theorem Memory.erase_sublist : (Memory.erase m n).Sublist m := by
  induction m with
  | nil => simp [Memory.erase]
  | cons c m ih =>
    by_cases hn : c.1 = n
    · simpa [Memory.erase, hn] using ih.trans (List.sublist_cons_self c m)
    · simpa [Memory.erase, hn] using ih.cons_cons c

theorem Memory.wf_sublist {m' : Sparse α} (h : Memory.wf d bound m) (hs : m'.Sublist m) : Memory.wf d bound m' :=
  ⟨h.1.sublist hs, fun c hc => h.2 c (hs.subset hc)⟩

theorem Memory.wf_erase (h : Memory.wf d bound m) : Memory.wf d bound (Memory.erase m n) :=
  Memory.wf_sublist h Memory.erase_sublist

theorem Memory.wf_insert (h : Memory.wf d bound m) (hne : ∀ c ∈ m, c.1 ≠ n) (hn : n < bound) (hv : v ≠ d) :
    Memory.wf d bound (Memory.insert m n v) := by
  refine ⟨?_, fun c hc => ?_⟩
  · induction m with
    | nil => simp [Memory.insert]
    | cons c m ih =>
      have hp := List.pairwise_cons.1 h.1
      by_cases hlt : n < c.1
      · simp only [Memory.insert, hlt, if_true]
        refine List.pairwise_cons.2 ⟨fun c' hc' => ?_, h.1⟩
        rcases List.mem_cons.1 hc' with rfl | hm
        · exact hlt
        · exact hlt.trans (hp.1 c' hm)
      · simp only [Memory.insert, hlt, if_false]
        refine List.pairwise_cons.2 ⟨fun c' hc' => ?_, ?_⟩
        · rcases Memory.mem_insert.1 hc' with rfl | hm
          · exact lt_of_le_of_ne (Nat.le_of_not_lt hlt) (hne c (by simp))
          · exact hp.1 c' hm
        · exact ih ⟨hp.2, fun c' hc' => h.2 c' (by simp [hc'])⟩ fun c' hc' => hne c' (by simp [hc'])
  · rcases Memory.mem_insert.1 hc with rfl | hm
    · exact ⟨hn, hv⟩
    · exact h.2 c hm

/-- A write inside the bound keeps the canonical form. -/
theorem Memory.wf_set [DecidableEq α] (h : Memory.wf d bound m) (hn : n < bound) :
    Memory.wf d bound (Memory.set d m n v) := by
  unfold Memory.set
  split
  · exact Memory.wf_erase h
  · exact Memory.wf_insert (Memory.wf_erase h) (fun c hc => (Memory.mem_erase.1 hc).2) hn ‹_›

theorem Memory.get_of_mem (h : Memory.wf d bound m) {c : Nat × α} (hc : c ∈ m) : Memory.get d m c.1 = c.2 := by
  induction m with
  | nil => simp at hc
  | cons c' m ih =>
    have hp := List.pairwise_cons.1 h.1
    rcases List.mem_cons.1 hc with rfl | hm
    · simp [Memory.get_cons]
    · rw [Memory.get_cons, if_neg (hp.1 c hm).ne]
      exact ih ⟨hp.2, fun c' hc' => h.2 c' (by simp [hc'])⟩ hm

theorem Memory.mem_of_get (hv : Memory.get d m n ≠ d) : (n, Memory.get d m n) ∈ m := by
  induction m with
  | nil => simp at hv
  | cons c m ih =>
    rw [Memory.get_cons] at hv ⊢
    by_cases hn : c.1 = n
    · obtain ⟨a, b⟩ := c
      subst hn
      simp
    · simp only [hn, if_false] at hv ⊢
      exact List.mem_cons_of_mem c (ih hv)

theorem Memory.mem_iff_get (h : Memory.wf d bound m) : (n, v) ∈ m ↔ Memory.get d m n = v ∧ v ≠ d :=
  ⟨fun hm => ⟨Memory.get_of_mem h hm, (h.2 _ hm).2⟩, fun ⟨he, hv⟩ => by
    subst he
    exact Memory.mem_of_get hv⟩

/-- Equal contents are equal tables. -/
theorem Memory.ext_get {m' : Sparse α} (h : Memory.wf d bound m) (h' : Memory.wf d bound m')
    (he : ∀ n, Memory.get d m n = Memory.get d m' n) : m = m' := by
  have hirr : ∀ a b : Nat × α, a.1 < b.1 → ¬ b.1 < a.1 := fun a b hab => by omega
  have hperm : m.Perm m' := by
    refine (List.perm_ext_iff_of_nodup (h.1.imp fun hab e => by simp [e] at hab)
      (h'.1.imp fun hab e => by simp [e] at hab)).2 fun c => ?_
    obtain ⟨n, v⟩ := c
    rw [Memory.mem_iff_get h, Memory.mem_iff_get h', he]
  exact hperm.eq_of_pairwise (fun a b _ _ hab hba => absurd hba (hirr a b hab)) h.1 h'.1

/-! ### Replacing a run of keys -/

section
variable [DecidableEq α] {lo len : Nat} {f : Nat → α}

theorem Memory.mem_cells {c : Nat × α} :
    c ∈ Memory.cells d lo len f ↔ ∃ x < len, c = (lo + x, f x) ∧ f x ≠ d := by
  simp only [Memory.cells, List.mem_filterMap, List.mem_range]
  constructor
  · rintro ⟨x, hx, h⟩
    split at h
    · simp at h
    · exact ⟨x, hx, by simpa [eq_comm] using h, ‹_›⟩
  · rintro ⟨x, hx, rfl, h⟩
    exact ⟨x, hx, by simp [h]⟩

theorem Memory.cells_pairwise : (Memory.cells d lo len f).Pairwise (fun a b => a.1 < b.1) := by
  unfold Memory.cells
  refine List.Pairwise.filterMap _ (fun a a' haa' b hb b' hb' => ?_) List.pairwise_lt_range
  split at hb <;> split at hb' <;> simp only [Option.some.injEq, reduceCtorEq] at hb hb'
  rw [← hb, ← hb']
  simpa using haa'

/-- Replacing a run of keys inside the bound keeps the canonical form. -/
theorem Memory.wf_splice (h : Memory.wf d bound m) (hb : lo + len ≤ bound) :
    Memory.wf d bound (Memory.splice d m lo len f) := by
  constructor
  · unfold Memory.splice
    rw [List.pairwise_append, List.pairwise_append]
    refine ⟨⟨h.1.sublist List.filter_sublist, Memory.cells_pairwise, fun a ha b hbm => ?_⟩,
      h.1.sublist List.filter_sublist, fun a ha b hbm => ?_⟩
    · obtain ⟨x, hx, rfl, -⟩ := Memory.mem_cells.1 hbm
      have := (List.mem_filter.1 ha).2
      simp at this ⊢
      omega
    · have hb2 := (List.mem_filter.1 hbm).2
      simp at hb2
      rcases List.mem_append.1 ha with ha | ha
      · have := (List.mem_filter.1 ha).2
        simp at this
        omega
      · obtain ⟨x, hx, rfl, -⟩ := Memory.mem_cells.1 ha
        simp
        omega
  · intro c hc
    rcases List.mem_append.1 hc with hc | hc
    · rcases List.mem_append.1 hc with hc | hc
      · exact h.2 c (List.mem_filter.1 hc).1
      · obtain ⟨x, hx, rfl, hf⟩ := Memory.mem_cells.1 hc
        exact ⟨by simp; omega, hf⟩
    · exact h.2 c (List.mem_filter.1 hc).1

omit [DecidableEq α] in
theorem Memory.get_append_right {m' : Sparse α} (h : ∀ c ∈ m, c.1 ≠ n) :
    Memory.get d (m ++ m') n = Memory.get d m' n := by
  induction m with
  | nil => rfl
  | cons c m ih =>
    rw [List.cons_append, Memory.get_cons, if_neg (h c (by simp)), ih fun c' hc => h c' (by simp [hc])]

omit [DecidableEq α] in
theorem Memory.get_append_left {m' : Sparse α} (h : Memory.get d m' n = d) :
    Memory.get d (m ++ m') n = Memory.get d m n := by
  induction m with
  | nil => exact h
  | cons c m ih => rw [List.cons_append, Memory.get_cons, Memory.get_cons, ih]

omit [DecidableEq α] in
theorem Memory.get_filter {q : Nat → Bool} :
    Memory.get d (m.filter fun c => q c.1) n = if q n then Memory.get d m n else d := by
  induction m with
  | nil => simp
  | cons c m ih =>
    obtain ⟨a, b⟩ := c
    by_cases hq : q a
    · rw [List.filter_cons_of_pos (by simpa using hq), Memory.get_cons, Memory.get_cons, ih]
      by_cases hn : a = n
      · subst hn
        simp [hq]
      · simp [hn]
    · rw [List.filter_cons_of_neg (by simpa using hq), ih]
      by_cases hn : a = n
      · subst hn
        simp [hq]
      · simp [Memory.get_cons, hn]

theorem Memory.get_cells : Memory.get d (Memory.cells d lo len f) n = if lo ≤ n ∧ n < lo + len then f (n - lo) else d := by
  by_cases hv : Memory.get d (Memory.cells d lo len f) n = d
  · split
    · rename_i h
      by_contra hne
      have hm : (n, f (n - lo)) ∈ Memory.cells d lo len f :=
        Memory.mem_cells.2 ⟨n - lo, by omega, by simp; omega, fun e => hne (hv.trans e.symm)⟩
      have hw : Memory.wf d (lo + len) (Memory.cells d lo len f) :=
        ⟨Memory.cells_pairwise, fun c hc => by
          obtain ⟨x, hx, rfl, hf⟩ := Memory.mem_cells.1 hc
          exact ⟨by simp; omega, hf⟩⟩
      exact hne (Memory.get_of_mem hw hm)
    · exact hv
  · have hm := Memory.mem_of_get hv
    obtain ⟨x, hx, he, hf⟩ := Memory.mem_cells.1 hm
    obtain ⟨h1, h2⟩ := Prod.mk.inj he
    subst h1
    rw [h2, if_pos (by omega)]
    congr 1
    omega

/-- What a spliced table reads as. -/
theorem Memory.get_splice : Memory.get d (Memory.splice d m lo len f) n =
    if lo ≤ n ∧ n < lo + len then f (n - lo) else Memory.get d m n := by
  have hlo : Memory.get d (m.filter fun c => c.1 < lo) n = if n < lo then Memory.get d m n else d := by
    simpa using Memory.get_filter (d := d) (m := m) (n := n) (q := fun a => decide (a < lo))
  have hhi : Memory.get d (m.filter fun c => lo + len ≤ c.1) n = if lo + len ≤ n then Memory.get d m n else d := by
    simpa using Memory.get_filter (d := d) (m := m) (n := n) (q := fun a => decide (lo + len ≤ a))
  unfold Memory.splice
  rcases lt_or_ge n lo with h1 | h1
  · rw [Memory.get_append_left (by rw [hhi, if_neg (by omega)]),
      Memory.get_append_left (by rw [Memory.get_cells, if_neg (by omega)]), hlo, if_pos h1, if_neg (by omega)]
  · have hnl : ∀ c ∈ m.filter fun c => c.1 < lo, c.1 ≠ n := fun c hm => by
      have := (List.mem_filter.1 hm).2
      simp at this
      omega
    rcases lt_or_ge n (lo + len) with h2 | h2
    · rw [Memory.get_append_left (by rw [hhi, if_neg (by omega)]), Memory.get_append_right hnl, Memory.get_cells,
        if_pos ⟨h1, h2⟩, if_pos ⟨h1, h2⟩]
    · have hnc : ∀ c ∈ (m.filter fun c => c.1 < lo) ++ Memory.cells d lo len f, c.1 ≠ n := fun c hm => by
        rcases List.mem_append.1 hm with hm | hm
        · exact hnl c hm
        · obtain ⟨x, hx, rfl, -⟩ := Memory.mem_cells.1 hm
          simp
          omega
      rw [Memory.get_append_right hnc, hhi, if_pos h2, if_neg (by omega)]

end

end Sys2Proof.Machine
end

