-- ==== Sys2Proof/Laws/State.lean ====
section
/-! SUPPORT. One lemma per field per register update: what each field holds after it. -/

namespace Sys2Proof.Machine

/-! ### `setA` -/

@[simp] theorem State.setA_a (v : Byte) (s : State) : (s.setA v).cpu.a = v := rfl
@[simp] theorem State.setA_x (v : Byte) (s : State) : (s.setA v).cpu.x = s.cpu.x := rfl
@[simp] theorem State.setA_y (v : Byte) (s : State) : (s.setA v).cpu.y = s.cpu.y := rfl
@[simp] theorem State.setA_sp (v : Byte) (s : State) : (s.setA v).cpu.sp = s.cpu.sp := rfl
@[simp] theorem State.setA_pc (v : Byte) (s : State) : (s.setA v).cpu.pc = s.cpu.pc := rfl
@[simp] theorem State.setA_p (v : Byte) (s : State) : (s.setA v).cpu.p = s.cpu.p := rfl
@[simp] theorem State.setA_ppu (v : Byte) (s : State) : (s.setA v).ppu = s.ppu := rfl
@[simp] theorem State.setA_nt0 (v : Byte) (s : State) : (s.setA v).nt0 = s.nt0 := rfl
@[simp] theorem State.setA_nt1 (v : Byte) (s : State) : (s.setA v).nt1 = s.nt1 := rfl
@[simp] theorem State.setA_mirroring (v : Byte) (s : State) : (s.setA v).mirroring = s.mirroring := rfl
@[simp] theorem State.setA_ram (v : Byte) (s : State) : (s.setA v).ram = s.ram := rfl
@[simp] theorem State.setA_prgRam (v : Byte) (s : State) : (s.setA v).prgRam = s.prgRam := rfl
@[simp] theorem State.setA_chr (v : Byte) (s : State) : (s.setA v).chr = s.chr := rfl
@[simp] theorem State.setA_cart (v : Byte) (s : State) : (s.setA v).cart = s.cart := rfl
@[simp] theorem State.setA_params (v : Byte) (s : State) : (s.setA v).params = s.params := rfl
@[simp] theorem State.setA_line (v : Byte) (s : State) : (s.setA v).line = s.line := rfl
@[simp] theorem State.setA_stall (v : Byte) (s : State) : (s.setA v).stall = s.stall := rfl
@[simp] theorem State.setA_cpuCycles (v : Byte) (s : State) : (s.setA v).cpuCycles = s.cpuCycles := rfl
@[simp] theorem State.setA_fault (v : Byte) (s : State) : (s.setA v).fault = s.fault := rfl
@[simp] theorem State.setA_cost (v : Byte) (s : State) : (s.setA v).cost = s.cost := rfl
@[simp] theorem State.setA_draws (v : Byte) (s : State) : (s.setA v).draws = s.draws := rfl
@[simp] theorem State.setA_handed (v : Byte) (s : State) : (s.setA v).handed = s.handed := rfl

/-! ### `setX` -/

@[simp] theorem State.setX_a (v : Byte) (s : State) : (s.setX v).cpu.a = s.cpu.a := rfl
@[simp] theorem State.setX_x (v : Byte) (s : State) : (s.setX v).cpu.x = v := rfl
@[simp] theorem State.setX_y (v : Byte) (s : State) : (s.setX v).cpu.y = s.cpu.y := rfl
@[simp] theorem State.setX_sp (v : Byte) (s : State) : (s.setX v).cpu.sp = s.cpu.sp := rfl
@[simp] theorem State.setX_pc (v : Byte) (s : State) : (s.setX v).cpu.pc = s.cpu.pc := rfl
@[simp] theorem State.setX_p (v : Byte) (s : State) : (s.setX v).cpu.p = s.cpu.p := rfl
@[simp] theorem State.setX_ppu (v : Byte) (s : State) : (s.setX v).ppu = s.ppu := rfl
@[simp] theorem State.setX_nt0 (v : Byte) (s : State) : (s.setX v).nt0 = s.nt0 := rfl
@[simp] theorem State.setX_nt1 (v : Byte) (s : State) : (s.setX v).nt1 = s.nt1 := rfl
@[simp] theorem State.setX_mirroring (v : Byte) (s : State) : (s.setX v).mirroring = s.mirroring := rfl
@[simp] theorem State.setX_ram (v : Byte) (s : State) : (s.setX v).ram = s.ram := rfl
@[simp] theorem State.setX_prgRam (v : Byte) (s : State) : (s.setX v).prgRam = s.prgRam := rfl
@[simp] theorem State.setX_chr (v : Byte) (s : State) : (s.setX v).chr = s.chr := rfl
@[simp] theorem State.setX_cart (v : Byte) (s : State) : (s.setX v).cart = s.cart := rfl
@[simp] theorem State.setX_params (v : Byte) (s : State) : (s.setX v).params = s.params := rfl
@[simp] theorem State.setX_line (v : Byte) (s : State) : (s.setX v).line = s.line := rfl
@[simp] theorem State.setX_stall (v : Byte) (s : State) : (s.setX v).stall = s.stall := rfl
@[simp] theorem State.setX_cpuCycles (v : Byte) (s : State) : (s.setX v).cpuCycles = s.cpuCycles := rfl
@[simp] theorem State.setX_fault (v : Byte) (s : State) : (s.setX v).fault = s.fault := rfl
@[simp] theorem State.setX_cost (v : Byte) (s : State) : (s.setX v).cost = s.cost := rfl
@[simp] theorem State.setX_draws (v : Byte) (s : State) : (s.setX v).draws = s.draws := rfl
@[simp] theorem State.setX_handed (v : Byte) (s : State) : (s.setX v).handed = s.handed := rfl

/-! ### `setY` -/

@[simp] theorem State.setY_a (v : Byte) (s : State) : (s.setY v).cpu.a = s.cpu.a := rfl
@[simp] theorem State.setY_x (v : Byte) (s : State) : (s.setY v).cpu.x = s.cpu.x := rfl
@[simp] theorem State.setY_y (v : Byte) (s : State) : (s.setY v).cpu.y = v := rfl
@[simp] theorem State.setY_sp (v : Byte) (s : State) : (s.setY v).cpu.sp = s.cpu.sp := rfl
@[simp] theorem State.setY_pc (v : Byte) (s : State) : (s.setY v).cpu.pc = s.cpu.pc := rfl
@[simp] theorem State.setY_p (v : Byte) (s : State) : (s.setY v).cpu.p = s.cpu.p := rfl
@[simp] theorem State.setY_ppu (v : Byte) (s : State) : (s.setY v).ppu = s.ppu := rfl
@[simp] theorem State.setY_nt0 (v : Byte) (s : State) : (s.setY v).nt0 = s.nt0 := rfl
@[simp] theorem State.setY_nt1 (v : Byte) (s : State) : (s.setY v).nt1 = s.nt1 := rfl
@[simp] theorem State.setY_mirroring (v : Byte) (s : State) : (s.setY v).mirroring = s.mirroring := rfl
@[simp] theorem State.setY_ram (v : Byte) (s : State) : (s.setY v).ram = s.ram := rfl
@[simp] theorem State.setY_prgRam (v : Byte) (s : State) : (s.setY v).prgRam = s.prgRam := rfl
@[simp] theorem State.setY_chr (v : Byte) (s : State) : (s.setY v).chr = s.chr := rfl
@[simp] theorem State.setY_cart (v : Byte) (s : State) : (s.setY v).cart = s.cart := rfl
@[simp] theorem State.setY_params (v : Byte) (s : State) : (s.setY v).params = s.params := rfl
@[simp] theorem State.setY_line (v : Byte) (s : State) : (s.setY v).line = s.line := rfl
@[simp] theorem State.setY_stall (v : Byte) (s : State) : (s.setY v).stall = s.stall := rfl
@[simp] theorem State.setY_cpuCycles (v : Byte) (s : State) : (s.setY v).cpuCycles = s.cpuCycles := rfl
@[simp] theorem State.setY_fault (v : Byte) (s : State) : (s.setY v).fault = s.fault := rfl
@[simp] theorem State.setY_cost (v : Byte) (s : State) : (s.setY v).cost = s.cost := rfl
@[simp] theorem State.setY_draws (v : Byte) (s : State) : (s.setY v).draws = s.draws := rfl
@[simp] theorem State.setY_handed (v : Byte) (s : State) : (s.setY v).handed = s.handed := rfl

/-! ### `setSP` -/

@[simp] theorem State.setSP_a (v : Byte) (s : State) : (s.setSP v).cpu.a = s.cpu.a := rfl
@[simp] theorem State.setSP_x (v : Byte) (s : State) : (s.setSP v).cpu.x = s.cpu.x := rfl
@[simp] theorem State.setSP_y (v : Byte) (s : State) : (s.setSP v).cpu.y = s.cpu.y := rfl
@[simp] theorem State.setSP_sp (v : Byte) (s : State) : (s.setSP v).cpu.sp = v := rfl
@[simp] theorem State.setSP_pc (v : Byte) (s : State) : (s.setSP v).cpu.pc = s.cpu.pc := rfl
@[simp] theorem State.setSP_p (v : Byte) (s : State) : (s.setSP v).cpu.p = s.cpu.p := rfl
@[simp] theorem State.setSP_ppu (v : Byte) (s : State) : (s.setSP v).ppu = s.ppu := rfl
@[simp] theorem State.setSP_nt0 (v : Byte) (s : State) : (s.setSP v).nt0 = s.nt0 := rfl
@[simp] theorem State.setSP_nt1 (v : Byte) (s : State) : (s.setSP v).nt1 = s.nt1 := rfl
@[simp] theorem State.setSP_mirroring (v : Byte) (s : State) : (s.setSP v).mirroring = s.mirroring := rfl
@[simp] theorem State.setSP_ram (v : Byte) (s : State) : (s.setSP v).ram = s.ram := rfl
@[simp] theorem State.setSP_prgRam (v : Byte) (s : State) : (s.setSP v).prgRam = s.prgRam := rfl
@[simp] theorem State.setSP_chr (v : Byte) (s : State) : (s.setSP v).chr = s.chr := rfl
@[simp] theorem State.setSP_cart (v : Byte) (s : State) : (s.setSP v).cart = s.cart := rfl
@[simp] theorem State.setSP_params (v : Byte) (s : State) : (s.setSP v).params = s.params := rfl
@[simp] theorem State.setSP_line (v : Byte) (s : State) : (s.setSP v).line = s.line := rfl
@[simp] theorem State.setSP_stall (v : Byte) (s : State) : (s.setSP v).stall = s.stall := rfl
@[simp] theorem State.setSP_cpuCycles (v : Byte) (s : State) : (s.setSP v).cpuCycles = s.cpuCycles := rfl
@[simp] theorem State.setSP_fault (v : Byte) (s : State) : (s.setSP v).fault = s.fault := rfl
@[simp] theorem State.setSP_cost (v : Byte) (s : State) : (s.setSP v).cost = s.cost := rfl
@[simp] theorem State.setSP_draws (v : Byte) (s : State) : (s.setSP v).draws = s.draws := rfl
@[simp] theorem State.setSP_handed (v : Byte) (s : State) : (s.setSP v).handed = s.handed := rfl

/-! ### `setPC` -/

@[simp] theorem State.setPC_a (v : Word) (s : State) : (s.setPC v).cpu.a = s.cpu.a := rfl
@[simp] theorem State.setPC_x (v : Word) (s : State) : (s.setPC v).cpu.x = s.cpu.x := rfl
@[simp] theorem State.setPC_y (v : Word) (s : State) : (s.setPC v).cpu.y = s.cpu.y := rfl
@[simp] theorem State.setPC_sp (v : Word) (s : State) : (s.setPC v).cpu.sp = s.cpu.sp := rfl
@[simp] theorem State.setPC_pc (v : Word) (s : State) : (s.setPC v).cpu.pc = v := rfl
@[simp] theorem State.setPC_p (v : Word) (s : State) : (s.setPC v).cpu.p = s.cpu.p := rfl
@[simp] theorem State.setPC_ppu (v : Word) (s : State) : (s.setPC v).ppu = s.ppu := rfl
@[simp] theorem State.setPC_nt0 (v : Word) (s : State) : (s.setPC v).nt0 = s.nt0 := rfl
@[simp] theorem State.setPC_nt1 (v : Word) (s : State) : (s.setPC v).nt1 = s.nt1 := rfl
@[simp] theorem State.setPC_mirroring (v : Word) (s : State) : (s.setPC v).mirroring = s.mirroring := rfl
@[simp] theorem State.setPC_ram (v : Word) (s : State) : (s.setPC v).ram = s.ram := rfl
@[simp] theorem State.setPC_prgRam (v : Word) (s : State) : (s.setPC v).prgRam = s.prgRam := rfl
@[simp] theorem State.setPC_chr (v : Word) (s : State) : (s.setPC v).chr = s.chr := rfl
@[simp] theorem State.setPC_cart (v : Word) (s : State) : (s.setPC v).cart = s.cart := rfl
@[simp] theorem State.setPC_params (v : Word) (s : State) : (s.setPC v).params = s.params := rfl
@[simp] theorem State.setPC_line (v : Word) (s : State) : (s.setPC v).line = s.line := rfl
@[simp] theorem State.setPC_stall (v : Word) (s : State) : (s.setPC v).stall = s.stall := rfl
@[simp] theorem State.setPC_cpuCycles (v : Word) (s : State) : (s.setPC v).cpuCycles = s.cpuCycles := rfl
@[simp] theorem State.setPC_fault (v : Word) (s : State) : (s.setPC v).fault = s.fault := rfl
@[simp] theorem State.setPC_cost (v : Word) (s : State) : (s.setPC v).cost = s.cost := rfl
@[simp] theorem State.setPC_draws (v : Word) (s : State) : (s.setPC v).draws = s.draws := rfl
@[simp] theorem State.setPC_handed (v : Word) (s : State) : (s.setPC v).handed = s.handed := rfl

/-! ### `setP` -/

@[simp] theorem State.setP_a (v : Byte) (s : State) : (s.setP v).cpu.a = s.cpu.a := rfl
@[simp] theorem State.setP_x (v : Byte) (s : State) : (s.setP v).cpu.x = s.cpu.x := rfl
@[simp] theorem State.setP_y (v : Byte) (s : State) : (s.setP v).cpu.y = s.cpu.y := rfl
@[simp] theorem State.setP_sp (v : Byte) (s : State) : (s.setP v).cpu.sp = s.cpu.sp := rfl
@[simp] theorem State.setP_pc (v : Byte) (s : State) : (s.setP v).cpu.pc = s.cpu.pc := rfl
@[simp] theorem State.setP_p (v : Byte) (s : State) : (s.setP v).cpu.p = v := rfl
@[simp] theorem State.setP_ppu (v : Byte) (s : State) : (s.setP v).ppu = s.ppu := rfl
@[simp] theorem State.setP_nt0 (v : Byte) (s : State) : (s.setP v).nt0 = s.nt0 := rfl
@[simp] theorem State.setP_nt1 (v : Byte) (s : State) : (s.setP v).nt1 = s.nt1 := rfl
@[simp] theorem State.setP_mirroring (v : Byte) (s : State) : (s.setP v).mirroring = s.mirroring := rfl
@[simp] theorem State.setP_ram (v : Byte) (s : State) : (s.setP v).ram = s.ram := rfl
@[simp] theorem State.setP_prgRam (v : Byte) (s : State) : (s.setP v).prgRam = s.prgRam := rfl
@[simp] theorem State.setP_chr (v : Byte) (s : State) : (s.setP v).chr = s.chr := rfl
@[simp] theorem State.setP_cart (v : Byte) (s : State) : (s.setP v).cart = s.cart := rfl
@[simp] theorem State.setP_params (v : Byte) (s : State) : (s.setP v).params = s.params := rfl
@[simp] theorem State.setP_line (v : Byte) (s : State) : (s.setP v).line = s.line := rfl
@[simp] theorem State.setP_stall (v : Byte) (s : State) : (s.setP v).stall = s.stall := rfl
@[simp] theorem State.setP_cpuCycles (v : Byte) (s : State) : (s.setP v).cpuCycles = s.cpuCycles := rfl
@[simp] theorem State.setP_fault (v : Byte) (s : State) : (s.setP v).fault = s.fault := rfl
@[simp] theorem State.setP_cost (v : Byte) (s : State) : (s.setP v).cost = s.cost := rfl
@[simp] theorem State.setP_draws (v : Byte) (s : State) : (s.setP v).draws = s.draws := rfl
@[simp] theorem State.setP_handed (v : Byte) (s : State) : (s.setP v).handed = s.handed := rfl

/-! ### `setFlag` -/

@[simp] theorem State.setFlag_a (g : Flag) (b : Bool) (s : State) : (s.setFlag g b).cpu.a = s.cpu.a := rfl
@[simp] theorem State.setFlag_x (g : Flag) (b : Bool) (s : State) : (s.setFlag g b).cpu.x = s.cpu.x := rfl
@[simp] theorem State.setFlag_y (g : Flag) (b : Bool) (s : State) : (s.setFlag g b).cpu.y = s.cpu.y := rfl
@[simp] theorem State.setFlag_sp (g : Flag) (b : Bool) (s : State) : (s.setFlag g b).cpu.sp = s.cpu.sp := rfl
@[simp] theorem State.setFlag_pc (g : Flag) (b : Bool) (s : State) : (s.setFlag g b).cpu.pc = s.cpu.pc := rfl
@[simp] theorem State.setFlag_p (g : Flag) (b : Bool) (s : State) : (s.setFlag g b).cpu.p = putFlag g b s.cpu.p := rfl
@[simp] theorem State.setFlag_ppu (g : Flag) (b : Bool) (s : State) : (s.setFlag g b).ppu = s.ppu := rfl
@[simp] theorem State.setFlag_nt0 (g : Flag) (b : Bool) (s : State) : (s.setFlag g b).nt0 = s.nt0 := rfl
@[simp] theorem State.setFlag_nt1 (g : Flag) (b : Bool) (s : State) : (s.setFlag g b).nt1 = s.nt1 := rfl
@[simp] theorem State.setFlag_mirroring (g : Flag) (b : Bool) (s : State) : (s.setFlag g b).mirroring = s.mirroring := rfl
@[simp] theorem State.setFlag_ram (g : Flag) (b : Bool) (s : State) : (s.setFlag g b).ram = s.ram := rfl
@[simp] theorem State.setFlag_prgRam (g : Flag) (b : Bool) (s : State) : (s.setFlag g b).prgRam = s.prgRam := rfl
@[simp] theorem State.setFlag_chr (g : Flag) (b : Bool) (s : State) : (s.setFlag g b).chr = s.chr := rfl
@[simp] theorem State.setFlag_cart (g : Flag) (b : Bool) (s : State) : (s.setFlag g b).cart = s.cart := rfl
@[simp] theorem State.setFlag_params (g : Flag) (b : Bool) (s : State) : (s.setFlag g b).params = s.params := rfl
@[simp] theorem State.setFlag_line (g : Flag) (b : Bool) (s : State) : (s.setFlag g b).line = s.line := rfl
@[simp] theorem State.setFlag_stall (g : Flag) (b : Bool) (s : State) : (s.setFlag g b).stall = s.stall := rfl
@[simp] theorem State.setFlag_cpuCycles (g : Flag) (b : Bool) (s : State) : (s.setFlag g b).cpuCycles = s.cpuCycles := rfl
@[simp] theorem State.setFlag_fault (g : Flag) (b : Bool) (s : State) : (s.setFlag g b).fault = s.fault := rfl
@[simp] theorem State.setFlag_cost (g : Flag) (b : Bool) (s : State) : (s.setFlag g b).cost = s.cost := rfl
@[simp] theorem State.setFlag_draws (g : Flag) (b : Bool) (s : State) : (s.setFlag g b).draws = s.draws := rfl
@[simp] theorem State.setFlag_handed (g : Flag) (b : Bool) (s : State) : (s.setFlag g b).handed = s.handed := rfl

/-! ### `setZN` -/

@[simp] theorem State.setZN_a (v : Byte) (s : State) : (s.setZN v).cpu.a = s.cpu.a := rfl
@[simp] theorem State.setZN_x (v : Byte) (s : State) : (s.setZN v).cpu.x = s.cpu.x := rfl
@[simp] theorem State.setZN_y (v : Byte) (s : State) : (s.setZN v).cpu.y = s.cpu.y := rfl
@[simp] theorem State.setZN_sp (v : Byte) (s : State) : (s.setZN v).cpu.sp = s.cpu.sp := rfl
@[simp] theorem State.setZN_pc (v : Byte) (s : State) : (s.setZN v).cpu.pc = s.cpu.pc := rfl
@[simp] theorem State.setZN_p (v : Byte) (s : State) : (s.setZN v).cpu.p = Machine.setZN v s.cpu.p := rfl
@[simp] theorem State.setZN_ppu (v : Byte) (s : State) : (s.setZN v).ppu = s.ppu := rfl
@[simp] theorem State.setZN_nt0 (v : Byte) (s : State) : (s.setZN v).nt0 = s.nt0 := rfl
@[simp] theorem State.setZN_nt1 (v : Byte) (s : State) : (s.setZN v).nt1 = s.nt1 := rfl
@[simp] theorem State.setZN_mirroring (v : Byte) (s : State) : (s.setZN v).mirroring = s.mirroring := rfl
@[simp] theorem State.setZN_ram (v : Byte) (s : State) : (s.setZN v).ram = s.ram := rfl
@[simp] theorem State.setZN_prgRam (v : Byte) (s : State) : (s.setZN v).prgRam = s.prgRam := rfl
@[simp] theorem State.setZN_chr (v : Byte) (s : State) : (s.setZN v).chr = s.chr := rfl
@[simp] theorem State.setZN_cart (v : Byte) (s : State) : (s.setZN v).cart = s.cart := rfl
@[simp] theorem State.setZN_params (v : Byte) (s : State) : (s.setZN v).params = s.params := rfl
@[simp] theorem State.setZN_line (v : Byte) (s : State) : (s.setZN v).line = s.line := rfl
@[simp] theorem State.setZN_stall (v : Byte) (s : State) : (s.setZN v).stall = s.stall := rfl
@[simp] theorem State.setZN_cpuCycles (v : Byte) (s : State) : (s.setZN v).cpuCycles = s.cpuCycles := rfl
@[simp] theorem State.setZN_fault (v : Byte) (s : State) : (s.setZN v).fault = s.fault := rfl
@[simp] theorem State.setZN_cost (v : Byte) (s : State) : (s.setZN v).cost = s.cost := rfl
@[simp] theorem State.setZN_draws (v : Byte) (s : State) : (s.setZN v).draws = s.draws := rfl
@[simp] theorem State.setZN_handed (v : Byte) (s : State) : (s.setZN v).handed = s.handed := rfl

/-! ### `charge` -/

@[simp] theorem State.charge_cpu (n : Nat) (s : State) : (s.charge n).cpu = s.cpu := rfl
@[simp] theorem State.charge_ppu (n : Nat) (s : State) : (s.charge n).ppu = s.ppu := rfl
@[simp] theorem State.charge_nt0 (n : Nat) (s : State) : (s.charge n).nt0 = s.nt0 := rfl
@[simp] theorem State.charge_nt1 (n : Nat) (s : State) : (s.charge n).nt1 = s.nt1 := rfl
@[simp] theorem State.charge_mirroring (n : Nat) (s : State) : (s.charge n).mirroring = s.mirroring := rfl
@[simp] theorem State.charge_ram (n : Nat) (s : State) : (s.charge n).ram = s.ram := rfl
@[simp] theorem State.charge_prgRam (n : Nat) (s : State) : (s.charge n).prgRam = s.prgRam := rfl
@[simp] theorem State.charge_chr (n : Nat) (s : State) : (s.charge n).chr = s.chr := rfl
@[simp] theorem State.charge_cart (n : Nat) (s : State) : (s.charge n).cart = s.cart := rfl
@[simp] theorem State.charge_params (n : Nat) (s : State) : (s.charge n).params = s.params := rfl
@[simp] theorem State.charge_line (n : Nat) (s : State) : (s.charge n).line = s.line := rfl
@[simp] theorem State.charge_stall (n : Nat) (s : State) : (s.charge n).stall = s.stall := rfl
@[simp] theorem State.charge_cpuCycles (n : Nat) (s : State) : (s.charge n).cpuCycles = s.cpuCycles := rfl
@[simp] theorem State.charge_fault (n : Nat) (s : State) : (s.charge n).fault = s.fault := rfl
@[simp] theorem State.charge_cost (n : Nat) (s : State) : (s.charge n).cost = n := rfl
@[simp] theorem State.charge_draws (n : Nat) (s : State) : (s.charge n).draws = s.draws := rfl
@[simp] theorem State.charge_handed (n : Nat) (s : State) : (s.charge n).handed = s.handed := rfl

end Sys2Proof.Machine
end

