-- ==== Sys2Proof/Laws/Bus.lean ====
section
/-! SUPPORT. What the bus operations can do: a read changes no memory and no CPU register; a write changes at most the
storage cell it addresses and the PPU behind the ports; neither touches what `OutsideKept` names. -/

namespace Sys2Proof.Machine

/-! ### `OutsideKept` is kept -/

theorem OutsideKept.refl (s : State) : OutsideKept s s := ⟨rfl, rfl, rfl, rfl, rfl, rfl, rfl, rfl, rfl, rfl, rfl⟩

theorem OutsideKept.trans {s t u : State} (h : OutsideKept s t) (k : OutsideKept t u) : OutsideKept s u :=
  ⟨k.1.trans h.1, k.2.trans h.2, k.3.trans h.3, k.4.trans h.4, k.5.trans h.5, k.6.trans h.6, k.7.trans h.7,
    k.8.trans h.8, k.9.trans h.9, k.10.trans h.10, k.11.trans h.11⟩

/-- What every bus access leaves: `OutsideKept`, the CPU registers, the cost, canonical memories, the low status bits. -/
structure BusKept (s t : State) : Prop where
  outside : OutsideKept s t
  cpu : t.cpu = s.cpu
  cost : t.cost = s.cost
  memories : MemoriesOk s → MemoriesOk t
  statusLow : s.ppu.status &&& 0x1F = 0 → t.ppu.status &&& 0x1F = 0

theorem BusKept.refl (s : State) : BusKept s s := ⟨.refl s, rfl, rfl, id, id⟩

theorem BusKept.trans {s t u : State} (h : BusKept s t) (k : BusKept t u) : BusKept s u :=
  ⟨h.1.trans k.1, k.2.trans h.2, k.3.trans h.3, k.4 ∘ h.4, k.5 ∘ h.5⟩

theorem statusLow_putBit {b : Bool} {i : Nat} {p : Byte} (hi : 5 ≤ i) (hi' : i < 8) (h : p &&& 0x1F = 0) :
    putBit i b p &&& 0x1F = 0 := by
  have : i = 5 ∨ i = 6 ∨ i = 7 := by omega
  revert h
  rcases this with rfl | rfl | rfl <;> revert p b <;> decide

/-! ### Reads -/

/-- What a bus read leaves besides: every memory, the stall and the bytes handed to the host. -/
structure ReadKept (s t : State) : Prop extends BusKept s t where
  ram : t.ram = s.ram
  prgRam : t.prgRam = s.prgRam
  chr : t.chr = s.chr
  nt0 : t.nt0 = s.nt0
  nt1 : t.nt1 = s.nt1
  oam : t.ppu.oam = s.ppu.oam
  palette : t.ppu.palette = s.ppu.palette
  stall : t.stall = s.stall
  handed : t.handed = s.handed
  ctrl : t.ppu.ctrl = s.ppu.ctrl
  mask : t.ppu.mask = s.ppu.mask
  latch : t.ppu.t = s.ppu.t
  fineX : t.ppu.fineX = s.ppu.fineX
  oamAddr : t.ppu.oamAddr = s.ppu.oamAddr

theorem ReadKept.refl (s : State) : ReadKept s s :=
  ⟨.refl s, rfl, rfl, rfl, rfl, rfl, rfl, rfl, rfl, rfl, rfl, rfl, rfl, rfl, rfl⟩

theorem ReadKept.trans {s t u : State} (h : ReadKept s t) (k : ReadKept t u) : ReadKept s u :=
  ⟨h.1.trans k.1, k.2.trans h.2, k.3.trans h.3, k.4.trans h.4, k.5.trans h.5, k.6.trans h.6, k.7.trans h.7,
    k.8.trans h.8, k.9.trans h.9, k.10.trans h.10, k.11.trans h.11, k.12.trans h.12, k.13.trans h.13, k.14.trans h.14,
    k.15.trans h.15⟩

theorem MemoriesOk.of_eq {s t : State} (h : MemoriesOk s) (ram : t.ram = s.ram) (prgRam : t.prgRam = s.prgRam)
    (chr : t.chr = s.chr) (nt0 : t.nt0 = s.nt0) (nt1 : t.nt1 = s.nt1) (oam : t.ppu.oam = s.ppu.oam)
    (palette : t.ppu.palette = s.ppu.palette) (comp : t.ppu.comp = s.ppu.comp) (out : t.ppu.out = s.ppu.out) :
    MemoriesOk t :=
  ⟨ram ▸ h.1, prgRam ▸ h.2, chr ▸ h.3, nt0 ▸ h.4, nt1 ▸ h.5, oam ▸ h.6, palette ▸ h.7, comp ▸ h.8, out ▸ h.9⟩

theorem ppuPortRead_kept (p : Nat) (s : State) : ReadKept s (ppuPortRead p s).2 := by
  unfold ppuPortRead
  split
  · exact ⟨⟨⟨rfl, rfl, rfl, rfl, rfl, rfl, rfl, rfl, rfl, rfl, rfl⟩, rfl, rfl,
      fun h => h.of_eq rfl rfl rfl rfl rfl rfl rfl rfl rfl, statusLow_putBit (by omega) (by omega)⟩,
      rfl, rfl, rfl, rfl, rfl, rfl, rfl, rfl, rfl, rfl, rfl, rfl, rfl, rfl⟩
  · split
    · exact .refl s
    · split
      · by_cases hp : s.ppu.dataAddress.toNat < 0x3F00 <;> simp only [readData, hp, if_true, if_false] <;>
        exact ⟨⟨⟨rfl, rfl, rfl, rfl, rfl, rfl, rfl, rfl, rfl, rfl, rfl⟩, rfl, rfl,
          fun h => h.of_eq rfl rfl rfl rfl rfl rfl rfl rfl rfl, id⟩,
          rfl, rfl, rfl, rfl, rfl, rfl, rfl, rfl, rfl, rfl, rfl, rfl, rfl, rfl⟩
      · exact .refl s

theorem controllerRead_kept (port : Nat) (s : State) : ReadKept s (controllerRead port s).2 :=
  ⟨⟨⟨rfl, rfl, rfl, rfl, rfl, rfl, rfl, rfl, rfl, rfl, rfl⟩, rfl, rfl,
    fun h => h.of_eq rfl rfl rfl rfl rfl rfl rfl rfl rfl, id⟩,
    rfl, rfl, rfl, rfl, rfl, rfl, rfl, rfl, rfl, rfl, rfl, rfl, rfl, rfl⟩

/-- Everything a bus read can change lies in `status`, `v`, `w`, `readBuffer`, `suppressVbl` and `draws`. -/
theorem memRead_kept (a : Word) (s : State) : ReadKept s (memRead a s).2 := by
  unfold memRead
  split
  · exact .refl s
  split
  · exact ppuPortRead_kept _ s
  split
  · exact controllerRead_kept 0 s
  split
  · exact controllerRead_kept 1 s
  split
  · exact .refl s
  split <;> exact .refl s

@[simp] theorem memRead_cpu (a : Word) (s : State) : (memRead a s).2.cpu = s.cpu := (memRead_kept a s).cpu

@[simp] theorem memRead_params (a : Word) (s : State) : (memRead a s).2.params = s.params := (memRead_kept a s).outside.params

@[simp] theorem memRead_stall (a : Word) (s : State) : (memRead a s).2.stall = s.stall := (memRead_kept a s).stall

@[simp] theorem memRead_fault (a : Word) (s : State) : (memRead a s).2.fault = s.fault := (memRead_kept a s).outside.fault

/-- A read of RAM has no side effect (R65). -/
theorem memRead_ram {a : Word} (h : a.toNat < 0x2000) (s : State) :
    memRead a s = (Memory.get 0 s.ram (a.toNat % 0x800), s) := by simp [memRead, h]

/-- A read of the cartridge has no side effect (R312). -/
theorem memRead_prg {a : Word} (h : 0x8000 ≤ a.toNat) (s : State) :
    memRead a s = (Memory.get 0 s.cart.prg (prgOffset s.cart.prgBanks a), s) := by
  have h1 : ¬ a.toNat < 0x2000 := by omega
  have h2 : ¬ a.toNat < 0x4000 := by omega
  have h3 : ¬ a.toNat = 0x4016 := by omega
  have h4 : ¬ a.toNat = 0x4017 := by omega
  have h5 : ¬ a.toNat < 0x6000 := by omega
  have h6 : ¬ a.toNat < 0x8000 := by omega
  simp only [memRead, h1, h2, h3, h4, h5, h6, if_false, mapperReadByte]

theorem memRead_prgRam {a : Word} (h : 0x6000 ≤ a.toNat) (h' : a.toNat < 0x8000) (s : State) :
    memRead a s = (Memory.get 0 s.prgRam (a.toNat - 0x6000), s) := by
  have h1 : ¬ a.toNat < 0x2000 := by omega
  have h2 : ¬ a.toNat < 0x4000 := by omega
  have h3 : ¬ a.toNat = 0x4016 := by omega
  have h4 : ¬ a.toNat = 0x4017 := by omega
  have h5 : ¬ a.toNat < 0x6000 := by omega
  simp only [memRead, h1, h2, h3, h4, h5, h', if_false, if_true]

/-- The storage cell behind an address depends on the number of PRG banks alone. -/
theorem storageCell_congr {s t : State} (h : t.cart = s.cart) (a : Word) : storageCell a t = storageCell a s := by
  unfold storageCell
  rw [h]

theorem peek_congr {s t : State} (hr : t.ram = s.ram) (hp : t.prgRam = s.prgRam) (hc : t.cart = s.cart) (a : Word) :
    peek a t = peek a s := by
  unfold peek
  rw [storageCell_congr hc]
  cases storageCell a s with
  | none => rfl
  | some c => cases c <;> simp [readCell, hr, hp, hc]

theorem ReadKept.memory {s t : State} (h : ReadKept s t) : MemoryKept s t :=
  peek_congr h.ram h.prgRam h.outside.cart

theorem MemoryKept.refl (s : State) : MemoryKept s s := fun _ => rfl

theorem MemoryKept.trans {s t u : State} (h : MemoryKept s t) (k : MemoryKept t u) : MemoryKept s u :=
  fun a => (k a).trans (h a)

/-- Where there is storage, a bus read gives its byte and changes nothing. -/
theorem memRead_of_storageCell {a : Word} {s : State} (h : storageCell a s ≠ none) : memRead a s = (peek a s, s) := by
  unfold storageCell at h
  by_cases h1 : a.toNat < 0x2000
  · rw [memRead_ram h1]
    simp [peek, storageCell, h1, readCell]
  · by_cases h2 : a.toNat < 0x6000
    · simp [h1, h2] at h
    · by_cases h3 : a.toNat < 0x8000
      · rw [memRead_prgRam (by omega) h3]
        simp [peek, storageCell, h1, h2, h3, readCell]
      · rw [memRead_prg (by omega)]
        simp [peek, storageCell, h1, h2, h3, readCell]

/-! ### Writes -/

theorem ntWrite_kept (o : Nat) (d : Byte) (s : State) : BusKept s (ntWrite o d s) := by
  have ho : o % 0x400 < 1024 := Nat.mod_lt _ (by omega)
  unfold ntWrite
  split
  · exact ⟨⟨rfl, rfl, rfl, rfl, rfl, rfl, rfl, rfl, rfl, rfl, rfl⟩, rfl, rfl,
      fun h => { h with nt1 := Memory.wf_set h.nt1 ho }, id⟩
  · exact ⟨⟨rfl, rfl, rfl, rfl, rfl, rfl, rfl, rfl, rfl, rfl, rfl⟩, rfl, rfl,
      fun h => { h with nt0 := Memory.wf_set h.nt0 ho }, id⟩

theorem palIndex_lt (a : PAddr) : palIndex a < 32 := by
  unfold palIndex
  have := Nat.mod_lt a.toNat (show 0 < 0x20 by omega)
  simp only
  split <;> omega

theorem ppuMemWrite_kept (a : PAddr) (d : Byte) (s : State) : BusKept s (ppuMemWrite a d s) := by
  unfold ppuMemWrite
  split
  · split
    · exact ⟨⟨rfl, rfl, rfl, rfl, rfl, rfl, rfl, rfl, rfl, rfl, rfl⟩, rfl, rfl,
        fun h => { h with chr := Memory.wf_set h.chr (by omega) }, id⟩
    · exact .refl s
  · split
    · exact ntWrite_kept _ d s
    · exact ⟨⟨rfl, rfl, rfl, rfl, rfl, rfl, rfl, rfl, rfl, rfl, rfl⟩, rfl, rfl,
        fun h => { h with palette := Memory.wf_set h.palette (palIndex_lt a) }, id⟩

theorem writeData_kept (d : Byte) (s : State) : BusKept s (writeData d s) := by
  have h := ppuMemWrite_kept s.ppu.dataAddress d s
  exact ⟨⟨h.1.1, h.1.2, h.1.3, h.1.4, h.1.5, h.1.6, h.1.7, h.1.8, h.1.9, h.1.10, h.1.11⟩, h.2, h.3,
    fun k => (h.4 k).of_eq rfl rfl rfl rfl rfl rfl rfl rfl rfl, h.5⟩

theorem writeOamData_kept (d : Byte) (s : State) : BusKept s { s with ppu := s.ppu.writeOamData d } :=
  ⟨⟨rfl, rfl, rfl, rfl, rfl, rfl, rfl, rfl, rfl, rfl, rfl⟩, rfl, rfl,
    fun h => { h with oam := Memory.wf_set h.oam s.ppu.oamAddr.isLt }, id⟩

theorem ppuPortWrite_kept (p : Nat) (d : Byte) (s : State) : BusKept s (ppuPortWrite p d s) := by
  have plain : ∀ r : Ppu, r.scanline = s.ppu.scanline → r.cycle = s.ppu.cycle → r.frame = s.ppu.frame →
      r.comp = s.ppu.comp → r.out = s.ppu.out → r.oam = s.ppu.oam → r.palette = s.ppu.palette →
      r.status = s.ppu.status → BusKept s { s with ppu := r } := fun r h1 h2 h3 h4 h5 h6 h7 h8 =>
    ⟨⟨h1, h2, h3, h4, h5, rfl, rfl, rfl, rfl, rfl, rfl⟩, rfl, rfl, fun h => h.of_eq rfl rfl rfl rfl rfl h6 h7 h4 h5,
      fun h => h8 ▸ h⟩
  unfold ppuPortWrite
  split
  · exact plain _ rfl rfl rfl rfl rfl rfl rfl rfl
  split
  · exact plain _ rfl rfl rfl rfl rfl rfl rfl rfl
  split
  · exact plain _ rfl rfl rfl rfl rfl rfl rfl rfl
  split
  · exact writeOamData_kept d s
  split
  · unfold Ppu.writeScroll
    split <;> exact plain _ rfl rfl rfl rfl rfl rfl rfl rfl
  split
  · unfold Ppu.writeAddress
    split <;> exact plain _ rfl rfl rfl rfl rfl rfl rfl rfl
  split
  · exact writeData_kept d s
  · exact .refl s

theorem dmaByte_kept (d : Byte) (i : Nat) (s : State) : BusKept s (dmaByte d i s) :=
  (memRead_kept _ s).toBusKept.trans (writeOamData_kept _ _)

theorem dmaCopy_kept (d : Byte) (k : Nat) (s : State) : BusKept s (dmaCopy d k s) := by
  induction k with
  | zero => exact .refl s
  | succ k ih => exact ih.trans (dmaByte_kept d k _)

theorem oamDma_kept (d : Byte) (s : State) : BusKept s (oamDma d s) := by
  have h := dmaCopy_kept d 256 s
  exact ⟨⟨h.1.1, h.1.2, h.1.3, h.1.4, h.1.5, h.1.6, h.1.7, h.1.8, h.1.9, h.1.10, h.1.11⟩, h.2, h.3,
    fun k => (h.4 k).of_eq rfl rfl rfl rfl rfl rfl rfl rfl rfl, h.5⟩

/-- What every bus write leaves. -/
theorem memWrite_kept (a : Word) (v : Byte) (s : State) : BusKept s (memWrite a v s) := by
  unfold memWrite
  split
  · exact ⟨⟨rfl, rfl, rfl, rfl, rfl, rfl, rfl, rfl, rfl, rfl, rfl⟩, rfl, rfl,
      fun h => { h with ram := Memory.wf_set h.ram (Nat.mod_lt _ (by omega)) }, id⟩
  split
  · exact ppuPortWrite_kept _ v s
  split
  · exact oamDma_kept v s
  split
  · exact ⟨⟨rfl, rfl, rfl, rfl, rfl, rfl, rfl, rfl, rfl, rfl, rfl⟩, rfl, rfl,
      fun h => h.of_eq rfl rfl rfl rfl rfl rfl rfl rfl rfl, id⟩
  split
  · exact .refl s
  split
  · exact ⟨⟨rfl, rfl, rfl, rfl, rfl, rfl, rfl, rfl, rfl, rfl, rfl⟩, rfl, rfl,
      fun h => { h with prgRam := Memory.wf_set h.prgRam (by omega) }, id⟩
  · exact .refl s

@[simp] theorem memWrite_cpu (a : Word) (v : Byte) (s : State) : (memWrite a v s).cpu = s.cpu := (memWrite_kept a v s).cpu

@[simp] theorem memWrite_params (a : Word) (v : Byte) (s : State) : (memWrite a v s).params = s.params :=
  (memWrite_kept a v s).outside.params

/-- RAM and cartridge RAM are out of reach of the ports. -/
structure CpuMemoryKept (s t : State) : Prop where
  ram : t.ram = s.ram
  prgRam : t.prgRam = s.prgRam
  cart : t.cart = s.cart

theorem CpuMemoryKept.refl (s : State) : CpuMemoryKept s s := ⟨rfl, rfl, rfl⟩

theorem CpuMemoryKept.trans {s t u : State} (h : CpuMemoryKept s t) (k : CpuMemoryKept t u) : CpuMemoryKept s u :=
  ⟨k.1.trans h.1, k.2.trans h.2, k.3.trans h.3⟩

theorem CpuMemoryKept.memory {s t : State} (h : CpuMemoryKept s t) : MemoryKept s t := peek_congr h.1 h.2 h.3

theorem ppuMemWrite_cpuMemory (a : PAddr) (d : Byte) (s : State) : CpuMemoryKept s (ppuMemWrite a d s) := by
  unfold ppuMemWrite ntWrite
  split
  · split <;> exact ⟨rfl, rfl, rfl⟩
  · split
    · split <;> exact ⟨rfl, rfl, rfl⟩
    · exact ⟨rfl, rfl, rfl⟩

theorem ppuPortWrite_cpuMemory (p : Nat) (d : Byte) (s : State) : CpuMemoryKept s (ppuPortWrite p d s) := by
  unfold ppuPortWrite
  split; · exact ⟨rfl, rfl, rfl⟩
  split; · exact ⟨rfl, rfl, rfl⟩
  split; · exact ⟨rfl, rfl, rfl⟩
  split; · exact ⟨rfl, rfl, rfl⟩
  split; · exact ⟨rfl, rfl, rfl⟩
  split; · exact ⟨rfl, rfl, rfl⟩
  split
  · exact ⟨(ppuMemWrite_cpuMemory _ d s).1, (ppuMemWrite_cpuMemory _ d s).2, (ppuMemWrite_cpuMemory _ d s).3⟩
  · exact .refl s

theorem dmaCopy_cpuMemory (d : Byte) (k : Nat) (s : State) : CpuMemoryKept s (dmaCopy d k s) := by
  induction k with
  | zero => exact .refl s
  | succ k ih =>
    have h := memRead_kept (wordOf (BitVec.ofNat 8 k) d) (dmaCopy d k s)
    exact ih.trans ⟨h.ram, h.prgRam, h.outside.cart⟩

theorem oamDma_cpuMemory (d : Byte) (s : State) : CpuMemoryKept s (oamDma d s) :=
  ⟨(dmaCopy_cpuMemory d 256 s).1, (dmaCopy_cpuMemory d 256 s).2, (dmaCopy_cpuMemory d 256 s).3⟩

theorem memWrite_cpuMemory {a : Word} (h : 0x2000 ≤ a.toNat) (h' : a.toNat < 0x6000) (v : Byte) (s : State) :
    CpuMemoryKept s (memWrite a v s) := by
  unfold memWrite
  rw [if_neg (by omega)]
  split; · exact ppuPortWrite_cpuMemory _ v s
  split; · exact oamDma_cpuMemory v s
  split; · exact ⟨rfl, rfl, rfl⟩
  exact .refl s

theorem memWrite_ram {a : Word} (h : a.toNat < 0x2000) (v : Byte) (s : State) :
    memWrite a v s = { s with ram := Memory.set 0 s.ram (a.toNat % 0x800) v } := by simp [memWrite, h]

theorem memWrite_prgRam {a : Word} (h : 0x6000 ≤ a.toNat) (h' : a.toNat < 0x8000) (v : Byte) (s : State) :
    memWrite a v s = { s with prgRam := Memory.set 0 s.prgRam (a.toNat - 0x6000) v } := by
  have h1 : ¬ a.toNat < 0x2000 := by omega
  have h2 : ¬ a.toNat < 0x4000 := by omega
  have h3 : ¬ a.toNat = 0x4014 := by omega
  have h4 : ¬ a.toNat = 0x4016 := by omega
  have h5 : ¬ a.toNat < 0x6000 := by omega
  simp only [memWrite, h1, h2, h3, h4, h5, h', if_false, if_true]

/-- A store to PRG changes nothing (R313). -/
theorem memWrite_prg {a : Word} (h : 0x8000 ≤ a.toNat) (v : Byte) (s : State) : memWrite a v s = s := by
  have h1 : ¬ a.toNat < 0x2000 := by omega
  have h2 : ¬ a.toNat < 0x4000 := by omega
  have h3 : ¬ a.toNat = 0x4014 := by omega
  have h4 : ¬ a.toNat = 0x4016 := by omega
  have h5 : ¬ a.toNat < 0x6000 := by omega
  have h6 : ¬ a.toNat < 0x8000 := by omega
  simp only [memWrite, h1, h2, h3, h4, h5, h6, if_false, mapperWriteByte]

/-- A bus write changes no byte of CPU memory but that of the cell it addresses. -/
theorem memWrite_memoryKeptBut (ea : Word) (v : Byte) (s : State) : MemoryKeptBut ea s (memWrite ea v s) := by
  intro a ha
  by_cases h1 : ea.toNat < 0x2000
  · have hc : storageCell ea s = some (.ram (ea.toNat % 0x800)) := by simp [storageCell, h1]
    rw [memWrite_ram h1]
    unfold peek
    have hs : storageCell a { s with ram := Memory.set 0 s.ram (ea.toNat % 0x800) v } = storageCell a s :=
      storageCell_congr rfl a
    rw [hs]
    rw [hc] at ha
    cases hcell : storageCell a s with
    | none => rfl
    | some c =>
      rw [hcell] at ha
      cases c with
      | ram n => exact Memory.get_set_other (by simpa using ha)
      | prgRam n => rfl
      | prg n => rfl
  · by_cases h2 : ea.toNat < 0x6000
    · exact (memWrite_cpuMemory (by omega) h2 v s).memory a
    · by_cases h3 : ea.toNat < 0x8000
      · have hc : storageCell ea s = some (.prgRam (ea.toNat - 0x6000)) := by simp [storageCell, h1, h2, h3]
        rw [memWrite_prgRam (by omega) h3]
        unfold peek
        have hs : storageCell a { s with prgRam := Memory.set 0 s.prgRam (ea.toNat - 0x6000) v } = storageCell a s :=
          storageCell_congr rfl a
        rw [hs]
        rw [hc] at ha
        cases hcell : storageCell a s with
        | none => rfl
        | some c =>
          rw [hcell] at ha
          cases c with
          | ram n => rfl
          | prgRam n => exact Memory.get_set_other (by simpa using ha)
          | prg n => rfl
      · rw [memWrite_prg (by omega)]

/-- A byte stored to RAM or cartridge RAM is read back at every image of the cell. -/
theorem peek_memWrite_same {a ea : Word} {s : State} (h : storageCell a s = storageCell ea s) (hr : ea.toNat < 0x8000)
    (hs : storageCell ea s ≠ none) (v : Byte) : peek a (memWrite ea v s) = v := by
  have hk := (memWrite_kept ea v s).outside.cart
  unfold peek
  rw [storageCell_congr hk, h]
  by_cases h1 : ea.toNat < 0x2000
  · have hc : storageCell ea s = some (.ram (ea.toNat % 0x800)) := by simp [storageCell, h1]
    rw [hc, memWrite_ram h1]
    simp [readCell]
  · by_cases h2 : ea.toNat < 0x6000
    · simp [storageCell, h1, h2] at hs
    · have hc : storageCell ea s = some (.prgRam (ea.toNat - 0x6000)) := by simp [storageCell, h1, h2, hr]
      rw [hc, memWrite_prgRam (by omega) hr]
      simp [readCell]

/-! ### The ports -/

/-- A read of a PPU port page is the port's (R66). -/
theorem memRead_port {a : Word} (h : 0x2000 ≤ a.toNat) (h' : a.toNat < 0x4000) (s : State) :
    memRead a s = ppuPortRead (a.toNat % 8) s := by
  have h1 : ¬ a.toNat < 0x2000 := by omega
  simp only [memRead, h1, h', if_false, if_true]

/-- A write to a PPU port page is the port's (R66). -/
theorem memWrite_port {a : Word} (h : 0x2000 ≤ a.toNat) (h' : a.toNat < 0x4000) (v : Byte) (s : State) :
    memWrite a v s = ppuPortWrite (a.toNat % 8) v s := by
  have h1 : ¬ a.toNat < 0x2000 := by omega
  simp only [memWrite, h1, h', if_false, if_true]

theorem dmaCopy_stall (d : Byte) (k : Nat) (s : State) : (dmaCopy d k s).stall = s.stall := by
  induction k with
  | zero => rfl
  | succ k ih => simp only [dmaCopy, dmaByte, memRead_stall, ih]

theorem ppuPortWrite_stall (p : Nat) (v : Byte) (s : State) : (ppuPortWrite p v s).stall = s.stall := by
  unfold ppuPortWrite
  split; · rfl
  split; · rfl
  split; · rfl
  split; · rfl
  split; · rfl
  split; · rfl
  split
  · simp only [writeData]
    unfold ppuMemWrite ntWrite
    split
    · split <;> rfl
    · split
      · split <;> rfl
      · rfl
  · rfl

/-- A bus write adds at most one DMA's stall (R338). -/
theorem memWrite_stall_le (a : Word) (v : Byte) (s : State) : (memWrite a v s).stall ≤ s.stall + 514 := by
  unfold memWrite
  split; · simp
  split; · rw [ppuPortWrite_stall]; omega
  split
  · simp only [oamDma, dmaCopy_stall, dmaStall]
    omega
  split; · simp [controllerWrite]
  split; · simp
  split <;> simp [mapperWriteByte]

end Sys2Proof.Machine
end

