-- ==== Sys2Proof/Laws/Encoding.lean ====
section
/-! SUPPORT. The opcode map against the encoder, row by row. -/

namespace Sys2Proof.Machine

/-- Whatever a row of the opcode map builds from operand bytes is encoded by the row's opcode and those bytes. -/
def RowOk (r : OpRow) : Prop := match r.format with
    | .f1 i => encode i = [r.opcode]
    | .f2 f => ∀ d, encode (f d) = [r.opcode, d]
    | .f3 f => ∀ lo hi, encode (f (wordOf lo hi)) = [r.opcode, lo, hi]

theorem opRows0_ok : ∀ r ∈ opRows0, RowOk r := by
  repeat' first
    | exact List.forall_mem_nil _
    | refine List.forall_mem_cons.2 ⟨?_, ?_⟩
    | exact rfl
    | exact fun _ => rfl
    | exact fun lo hi => congrArg₂ (fun a b => [_, a, b]) (loByte_wordOf lo hi) (hiByte_wordOf lo hi)

theorem opRows1_ok : ∀ r ∈ opRows1, RowOk r := by
  repeat' first
    | exact List.forall_mem_nil _
    | refine List.forall_mem_cons.2 ⟨?_, ?_⟩
    | exact rfl
    | exact fun _ => rfl
    | exact fun lo hi => congrArg₂ (fun a b => [_, a, b]) (loByte_wordOf lo hi) (hiByte_wordOf lo hi)

theorem opRows2_ok : ∀ r ∈ opRows2, RowOk r := by
  repeat' first
    | exact List.forall_mem_nil _
    | refine List.forall_mem_cons.2 ⟨?_, ?_⟩
    | exact rfl
    | exact fun _ => rfl
    | exact fun lo hi => congrArg₂ (fun a b => [_, a, b]) (loByte_wordOf lo hi) (hiByte_wordOf lo hi)

theorem opRows3_ok : ∀ r ∈ opRows3, RowOk r := by
  repeat' first
    | exact List.forall_mem_nil _
    | refine List.forall_mem_cons.2 ⟨?_, ?_⟩
    | exact rfl
    | exact fun _ => rfl
    | exact fun lo hi => congrArg₂ (fun a b => [_, a, b]) (loByte_wordOf lo hi) (hiByte_wordOf lo hi)

theorem opRows4_ok : ∀ r ∈ opRows4, RowOk r := by
  repeat' first
    | exact List.forall_mem_nil _
    | refine List.forall_mem_cons.2 ⟨?_, ?_⟩
    | exact rfl
    | exact fun _ => rfl
    | exact fun lo hi => congrArg₂ (fun a b => [_, a, b]) (loByte_wordOf lo hi) (hiByte_wordOf lo hi)

theorem opRows5_ok : ∀ r ∈ opRows5, RowOk r := by
  repeat' first
    | exact List.forall_mem_nil _
    | refine List.forall_mem_cons.2 ⟨?_, ?_⟩
    | exact rfl
    | exact fun _ => rfl
    | exact fun lo hi => congrArg₂ (fun a b => [_, a, b]) (loByte_wordOf lo hi) (hiByte_wordOf lo hi)

theorem opRows6_ok : ∀ r ∈ opRows6, RowOk r := by
  repeat' first
    | exact List.forall_mem_nil _
    | refine List.forall_mem_cons.2 ⟨?_, ?_⟩
    | exact rfl
    | exact fun _ => rfl
    | exact fun lo hi => congrArg₂ (fun a b => [_, a, b]) (loByte_wordOf lo hi) (hiByte_wordOf lo hi)

theorem opRows7_ok : ∀ r ∈ opRows7, RowOk r := by
  repeat' first
    | exact List.forall_mem_nil _
    | refine List.forall_mem_cons.2 ⟨?_, ?_⟩
    | exact rfl
    | exact fun _ => rfl
    | exact fun lo hi => congrArg₂ (fun a b => [_, a, b]) (loByte_wordOf lo hi) (hiByte_wordOf lo hi)

theorem opRows8_ok : ∀ r ∈ opRows8, RowOk r := by
  repeat' first
    | exact List.forall_mem_nil _
    | refine List.forall_mem_cons.2 ⟨?_, ?_⟩
    | exact rfl
    | exact fun _ => rfl
    | exact fun lo hi => congrArg₂ (fun a b => [_, a, b]) (loByte_wordOf lo hi) (hiByte_wordOf lo hi)

theorem opRows9_ok : ∀ r ∈ opRows9, RowOk r := by
  repeat' first
    | exact List.forall_mem_nil _
    | refine List.forall_mem_cons.2 ⟨?_, ?_⟩
    | exact rfl
    | exact fun _ => rfl
    | exact fun lo hi => congrArg₂ (fun a b => [_, a, b]) (loByte_wordOf lo hi) (hiByte_wordOf lo hi)

theorem opRowsA_ok : ∀ r ∈ opRowsA, RowOk r := by
  repeat' first
    | exact List.forall_mem_nil _
    | refine List.forall_mem_cons.2 ⟨?_, ?_⟩
    | exact rfl
    | exact fun _ => rfl
    | exact fun lo hi => congrArg₂ (fun a b => [_, a, b]) (loByte_wordOf lo hi) (hiByte_wordOf lo hi)

theorem opRowsB_ok : ∀ r ∈ opRowsB, RowOk r := by
  repeat' first
    | exact List.forall_mem_nil _
    | refine List.forall_mem_cons.2 ⟨?_, ?_⟩
    | exact rfl
    | exact fun _ => rfl
    | exact fun lo hi => congrArg₂ (fun a b => [_, a, b]) (loByte_wordOf lo hi) (hiByte_wordOf lo hi)

theorem opRowsC_ok : ∀ r ∈ opRowsC, RowOk r := by
  repeat' first
    | exact List.forall_mem_nil _
    | refine List.forall_mem_cons.2 ⟨?_, ?_⟩
    | exact rfl
    | exact fun _ => rfl
    | exact fun lo hi => congrArg₂ (fun a b => [_, a, b]) (loByte_wordOf lo hi) (hiByte_wordOf lo hi)

theorem opRowsD_ok : ∀ r ∈ opRowsD, RowOk r := by
  repeat' first
    | exact List.forall_mem_nil _
    | refine List.forall_mem_cons.2 ⟨?_, ?_⟩
    | exact rfl
    | exact fun _ => rfl
    | exact fun lo hi => congrArg₂ (fun a b => [_, a, b]) (loByte_wordOf lo hi) (hiByte_wordOf lo hi)

theorem opRowsE_ok : ∀ r ∈ opRowsE, RowOk r := by
  repeat' first
    | exact List.forall_mem_nil _
    | refine List.forall_mem_cons.2 ⟨?_, ?_⟩
    | exact rfl
    | exact fun _ => rfl
    | exact fun lo hi => congrArg₂ (fun a b => [_, a, b]) (loByte_wordOf lo hi) (hiByte_wordOf lo hi)

theorem opRowsF_ok : ∀ r ∈ opRowsF, RowOk r := by
  repeat' first
    | exact List.forall_mem_nil _
    | refine List.forall_mem_cons.2 ⟨?_, ?_⟩
    | exact rfl
    | exact fun _ => rfl
    | exact fun lo hi => congrArg₂ (fun a b => [_, a, b]) (loByte_wordOf lo hi) (hiByte_wordOf lo hi)

theorem opTable_rowOk : ∀ r ∈ opTable, RowOk r := by
  intro r h
  simp only [opTable, List.mem_append] at h
  rcases h with (((((((((((((((h | h) | h) | h) | h) | h) | h) | h) | h) | h) | h) | h) | h) | h) | h) | h)
  exacts [opRows0_ok r h, opRows1_ok r h, opRows2_ok r h, opRows3_ok r h, opRows4_ok r h, opRows5_ok r h, opRows6_ok r h,
    opRows7_ok r h, opRows8_ok r h, opRows9_ok r h, opRowsA_ok r h, opRowsB_ok r h, opRowsC_ok r h,
    opRowsD_ok r h, opRowsE_ok r h, opRowsF_ok r h]

end Sys2Proof.Machine
end

