-- ==== Sys2Proof/Laws/Ops.lean ====
section
/-! SUPPORT. The stack operations, interrupt entry and return, and addressing, each said once: closed forms over the
state, and what each leaves. -/

namespace Sys2Proof.Machine

/-! ### The stack -/

theorem stackAddr_toNat (sp : Byte) : (stackAddr sp).toNat = 0x100 + sp.toNat := by
  rw [stackAddr, wordOf_toNat]
  rfl

theorem stackAddr_lt (sp : Byte) : (stackAddr sp).toNat < 0x2000 := by
  have := sp.isLt
  rw [stackAddr_toNat]
  omega

/-- The key of a stack slot in `ram`. -/
theorem stackAddr_cell (sp : Byte) : (stackAddr sp).toNat % 0x800 = 0x100 + sp.toNat := by
  have := sp.isLt
  rw [stackAddr_toNat]
  omega

/-- `Push` in closed form: one RAM byte and `SP` (R23). -/
theorem push_eq (v : Byte) (s : State) : push v s =
    { s with ram := Memory.set 0 s.ram (0x100 + s.cpu.sp.toNat) v, cpu := { s.cpu with sp := s.cpu.sp - 1 } } := by
  unfold push
  rw [memWrite_ram (stackAddr_lt _), stackAddr_cell]
  rfl

/-- `Pull` in closed form: the byte above, and `SP` (R23). -/
theorem pull_eq (s : State) : pull s =
    (Memory.get 0 s.ram (0x100 + (s.cpu.sp + 1).toNat), { s with cpu := { s.cpu with sp := s.cpu.sp + 1 } }) := by
  unfold pull
  simp only [State.setSP]
  rw [memRead_ram (stackAddr_lt _), stackAddr_cell]

theorem pushWord_eq (w : Word) (s : State) : pushWord w s =
    { s with
      ram := Memory.set 0 (Memory.set 0 s.ram (0x100 + s.cpu.sp.toNat) (hiByte w)) (0x100 + (s.cpu.sp - 1).toNat) (loByte w)
      cpu := { s.cpu with sp := s.cpu.sp - 2 } } := by
  simp only [pushWord, push_eq, State.mk.injEq, Cpu.mk.injEq, true_and, and_true]
  generalize s.cpu.sp = p
  revert p
  decide

theorem pullWord_eq (s : State) : pullWord s =
    (wordOf (Memory.get 0 s.ram (0x100 + (s.cpu.sp + 1).toNat)) (Memory.get 0 s.ram (0x100 + (s.cpu.sp + 2).toNat)),
      { s with cpu := { s.cpu with sp := s.cpu.sp + 2 } }) := by
  have h : s.cpu.sp + 1 + 1 = s.cpu.sp + 2 := by
    generalize s.cpu.sp = p
    revert p
    decide
  simp only [pullWord, pull_eq, h]

/-- A push is a bus write and a change of `SP`. -/
theorem push_kept (v : Byte) (s : State) : OutsideKept s (push v s) ∧ (push v s).cost = s.cost ∧
    (MemoriesOk s → MemoriesOk (push v s)) ∧ (push v s).ppu = s.ppu := by
  rw [push_eq]
  exact ⟨⟨rfl, rfl, rfl, rfl, rfl, rfl, rfl, rfl, rfl, rfl, rfl⟩, rfl,
    fun h => { h with ram := Memory.wf_set h.ram (by have := s.cpu.sp.isLt; omega) }, rfl⟩

/-- A push writes the stack slot and no other byte of CPU memory. -/
theorem push_memoryKeptBut (v : Byte) (s : State) : MemoryKeptBut (stackAddr s.cpu.sp) s (push v s) := by
  intro a ha
  have h := memWrite_memoryKeptBut (stackAddr s.cpu.sp) v s a ha
  rw [← h]
  exact peek_congr rfl rfl rfl a

theorem peek_stackAddr (sp : Byte) (s : State) : peek (stackAddr sp) s = Memory.get 0 s.ram (0x100 + sp.toNat) := by
  simp only [peek, storageCell, stackAddr_lt, if_true, readCell, stackAddr_cell]

theorem storageCell_stackAddr (sp : Byte) (s : State) : storageCell (stackAddr sp) s = some (.ram (0x100 + sp.toNat)) := by
  simp only [storageCell, stackAddr_lt, if_true, stackAddr_cell]

/-- Three stack slots in a row are three cells, `SP` wrapping in the page (R22). -/
theorem stack_slots_ne (sp : Byte) : 0x100 + (sp - 1).toNat ≠ 0x100 + sp.toNat ∧ 0x100 + (sp - 2).toNat ≠ 0x100 + sp.toNat ∧
    0x100 + (sp - 2).toNat ≠ 0x100 + (sp - 1).toNat := by
  revert sp
  decide

/-- A byte of CPU memory whose RAM cell, if it has one, is untouched. -/
theorem peek_eq_of_ram {s t : State} (b : Word) (hp : t.prgRam = s.prgRam) (hc : t.cart = s.cart)
    (h : ∀ n, storageCell b s = some (.ram n) → Memory.get 0 t.ram n = Memory.get 0 s.ram n) : peek b t = peek b s := by
  unfold peek
  rw [storageCell_congr hc]
  cases hb : storageCell b s with
  | none => rfl
  | some c =>
    cases c with
    | ram n => exact h n hb
    | prgRam n => simp [readCell, hp]
    | prg n => simp [readCell, hc]

/-! ### Vectors -/

theorem add_one_toNat {a : Word} (h : a.toNat < 0xFFFF) : (a + 1).toNat = a.toNat + 1 := by
  have : (a + 1).toNat = (a.toNat + 1) % 65536 := by simp [BitVec.toNat_add]
  omega

/-- A vector read: two bytes of PRG, no side effect (R72, R75). -/
theorem read16_prg {a : Word} (h : 0x8000 ≤ a.toNat) (h' : a.toNat < 0xFFFF) (s : State) :
    read16 a s = (wordOf (peek a s) (peek (a + 1) s), s) := by
  have h1 : storageCell a s ≠ none := by
    have e1 : ¬ a.toNat < 0x2000 := by omega
    have e2 : ¬ a.toNat < 0x6000 := by omega
    have e3 : ¬ a.toNat < 0x8000 := by omega
    simp [storageCell, e1, e2, e3]
  have hn := add_one_toNat h'
  have h2 : storageCell (a + 1) s ≠ none := by
    have e1 : ¬ (a + 1).toNat < 0x2000 := by omega
    have e2 : ¬ (a + 1).toNat < 0x6000 := by omega
    have e3 : ¬ (a + 1).toNat < 0x8000 := by omega
    simp only [storageCell, e1, e2, e3, if_false]
    simp
  simp only [read16, memRead_of_storageCell h1, memRead_of_storageCell h2]

/-- A byte of PRG does not depend on RAM. -/
theorem peek_prg {a : Word} (h : 0x8000 ≤ a.toNat) {s t : State} (hc : t.cart = s.cart) : peek a t = peek a s := by
  have e1 : ¬ a.toNat < 0x2000 := by omega
  have e2 : ¬ a.toNat < 0x6000 := by omega
  have e3 : ¬ a.toNat < 0x8000 := by omega
  simp only [peek, storageCell, e1, e2, e3, if_false, readCell, hc]

/-! ### Interrupt entry and return -/

/-- Entering a handler in closed form (R359, R222): three bytes on the stack, `SP` down by three, the status flags, and
`PC` from the vector. -/
theorem enterHandler_eq (ret : Word) (status : Byte) (setI : Bool) {vector : Word} (h : 0x8000 ≤ vector.toNat)
    (h' : vector.toNat < 0xFFFF) (s : State) : enterHandler ret status setI vector s =
    { s with
      ram := Memory.set 0 (Memory.set 0 (Memory.set 0 s.ram (0x100 + s.cpu.sp.toNat) (hiByte ret))
        (0x100 + (s.cpu.sp - 1).toNat) (loByte ret)) (0x100 + (s.cpu.sp - 2).toNat) status
      cpu := { s.cpu with
        sp := s.cpu.sp - 3
        p := if setI then putFlag .i true (putFlag .d false s.cpu.p) else putFlag .d false s.cpu.p
        pc := wordOf (peek vector s) (peek (vector + 1) s) } } := by
  have hsp : s.cpu.sp - 2 - 1 = s.cpu.sp - 3 := by
    generalize s.cpu.sp = p
    revert p
    decide
  have hn : 0x8000 ≤ (vector + 1).toNat := by
    rw [add_one_toNat h']
    omega
  have hp : ∀ t : State, t.cart = s.cart → read16 vector t = (wordOf (peek vector s) (peek (vector + 1) s), t) :=
    fun t ht => by rw [read16_prg h h', peek_prg h ht, peek_prg hn ht]
  cases setI
  · simp only [enterHandler, pushWord_eq, push_eq, hsp, Bool.false_eq_true, if_false]
    rw [hp] <;> rfl
  · simp only [enterHandler, pushWord_eq, push_eq, hsp, if_true]
    rw [hp] <;> rfl

/-- Returning from an interrupt in closed form (R223, R365). -/
theorem returnFromInterrupt_eq (s : State) : returnFromInterrupt s =
    { s with
      cpu := { s.cpu with
        sp := s.cpu.sp + 3
        p := withUnused (Memory.get 0 s.ram (0x100 + (s.cpu.sp + 1).toNat))
        pc := wordOf (Memory.get 0 s.ram (0x100 + (s.cpu.sp + 2).toNat)) (Memory.get 0 s.ram (0x100 + (s.cpu.sp + 3).toNat)) } } := by
  have h1 : s.cpu.sp + 1 + 1 = s.cpu.sp + 2 := by
    generalize s.cpu.sp = p
    revert p
    decide
  have h2 : s.cpu.sp + 1 + 2 = s.cpu.sp + 3 := by
    generalize s.cpu.sp = p
    revert p
    decide
  simp only [returnFromInterrupt, pull_eq, State.setP, pullWord_eq, State.setPC, h1, h2]

/-- The CPU reset in closed form (R381). -/
theorem cpuReset_eq (s : State) : cpuReset s =
    { s with cpu := ⟨0, 0, 0, s.params.resetSp, wordOf (peek resetVector s) (peek (resetVector + 1) s), 0x22⟩ } := by
  have hp : ∀ t : State, t.cart = s.cart →
      read16 resetVector t = (wordOf (peek resetVector s) (peek (resetVector + 1) s), t) :=
    fun t ht => by rw [read16_prg (by decide) (by decide), peek_prg (by decide) ht, peek_prg (by decide) ht]
  simp only [cpuReset]
  rw [hp] <;> rfl

/-! ### Addressing -/

theorem zext16_lt (z : Byte) : (zext16 z).toNat < 0x2000 := by
  have := z.isLt
  rw [zext16_toNat]
  omega

theorem memRead_zeroPage (z : Byte) (s : State) : memRead (zext16 z) s = (peek (zext16 z) s, s) :=
  memRead_of_storageCell (by rw [storageCell, if_pos (zext16_lt z)]; simp)

/-- A zero-page pointer in closed form: both bytes from the zero page, no side effect (R113, R114). -/
theorem zeroPagePointer_eq (z : Byte) (s : State) :
    zeroPagePointer z s = (wordOf (peek (zext16 z) s) (peek (zext16 (z + 1)) s), s) := by
  simp only [zeroPagePointer, memRead_zeroPage]

/-- Addressing is a bus read at most: it changes no register and no memory (R103 to R115). -/
theorem resolve_kept (o : Operand) (s : State) : ReadKept s (resolve o s).after := by
  cases o with
  | ind p => exact (memRead_kept _ s).trans (memRead_kept _ _)
  | izx d => simp only [resolve, zeroPagePointer_eq]; exact .refl s
  | izy d => simp only [resolve, zeroPagePointer_eq]; exact .refl s
  | _ => exact .refl s

/-- Only the indirect mode reads outside the zero page; every other mode leaves the whole state. -/
theorem resolve_after {o : Operand} (h : ∀ p, o ≠ .ind p) (s : State) : (resolve o s).after = s := by
  cases o with
  | ind p => exact absurd rfl (h p)
  | izx d => simp only [resolve, zeroPagePointer_eq]
  | izy d => simp only [resolve, zeroPagePointer_eq]; rfl
  | _ => rfl

theorem readOperand_kept (o : Operand) (s : State) : ReadKept s (readOperand o s).2 := by
  cases o with
  | imm d => exact .refl s
  | acc => exact .refl s
  | _ => exact (resolve_kept _ s).trans (memRead_kept _ _)

@[simp] theorem readOperand_cpu (o : Operand) (s : State) : (readOperand o s).2.cpu = s.cpu := (readOperand_kept o s).cpu

@[simp] theorem readOperand_params (o : Operand) (s : State) : (readOperand o s).2.params = s.params :=
  (readOperand_kept o s).outside.params

@[simp] theorem resolve_cpu (o : Operand) (s : State) : (resolve o s).after.cpu = s.cpu := (resolve_kept o s).cpu

theorem pageDiffers_eq (a b : Word) : pageDiffers a b = decide (a.toNat / 256 ≠ b.toNat / 256) := by
  unfold pageDiffers
  rw [← hiByte_toNat, ← hiByte_toNat]
  by_cases h : hiByte a = hiByte b
  · simp [h]
  · have := (BitVec.toNat_inj (x := hiByte a) (y := hiByte b)).not.2 h
    rw [decide_eq_true this]
    simpa using h

/-- The read class in closed form, for an operation that writes CPU registers alone. -/
theorem readClass_eq {op : Byte → State → State} (o : Operand) (base : Nat) (pen : Bool) (s : State) (c : Cpu)
    (h : ∀ t : State, t.cpu = s.cpu → t.params = s.params → op (readOperand o s).1 t = { t with cpu := c }) :
    readClass op o base pen s =
      { (readOperand o s).2 with cpu := c, cost := costOf base pen (resolve o s).crossed } := by
  rw [readClass, h _ (readOperand_cpu o s) (readOperand_params o s)]
  rfl

/-- The write class in closed form. -/
theorem writeClass_eq {o : Operand} (h : ∀ p, o ≠ .ind p) (v : Byte) (base : Nat) (s : State) :
    writeClass v o base s = { memWrite (resolve o s).addr v s with cost := base } := by
  simp only [writeClass, resolve_after h, State.charge]

/-- The read-modify-write class in closed form, in the memory modes. -/
theorem modifyClass_eq {op : Byte → Byte → Byte × Byte} {o : Operand} (ha : o ≠ .acc) (h : ∀ p, o ≠ .ind p) (base : Nat)
    (s : State) : modifyClass op o base s =
      { memWrite (resolve o s).addr (op (memRead (resolve o s).addr s).1 s.cpu.p).1
          { (memRead (resolve o s).addr s).2 with
            cpu := { s.cpu with p := (op (memRead (resolve o s).addr s).1 s.cpu.p).2 } } with
        cost := base } := by
  unfold modifyClass
  split
  · exact absurd rfl ha
  · simp only [resolve_after h, memRead_cpu, State.setP, State.charge]

/-! ### What an instruction may change -/

/-- What the meaning of an instruction leaves: `OutsideKept`, canonical memories, the low status bits, the flag
Unused. -/
structure InstrKept (s t : State) : Prop where
  outside : OutsideKept s t
  memories : MemoriesOk s → MemoriesOk t
  statusLow : s.ppu.status &&& 0x1F = 0 → t.ppu.status &&& 0x1F = 0
  unused : getFlag .u s.cpu.p = true → getFlag .u t.cpu.p = true

theorem InstrKept.refl (s : State) : InstrKept s s := ⟨.refl s, id, id, id⟩

theorem InstrKept.trans {s t u : State} (h : InstrKept s t) (k : InstrKept t u) : InstrKept s u :=
  ⟨h.1.trans k.1, k.2 ∘ h.2, k.3 ∘ h.3, k.4 ∘ h.4⟩

theorem BusKept.instr {s t : State} (h : BusKept s t) : InstrKept s t :=
  ⟨h.outside, h.memories, h.statusLow, fun u => h.cpu ▸ u⟩

/-- A change of CPU registers that keeps the flag Unused. -/
theorem InstrKept.ofCpu (s : State) (c : Cpu) (n : Nat) (h : getFlag .u s.cpu.p = true → getFlag .u c.p = true) :
    InstrKept s { s with cpu := c, cost := n } :=
  ⟨⟨rfl, rfl, rfl, rfl, rfl, rfl, rfl, rfl, rfl, rfl, rfl⟩, fun k => k.of_eq rfl rfl rfl rfl rfl rfl rfl rfl rfl, id, h⟩

theorem InstrKept.charge {s t : State} (h : InstrKept s t) (n : Nat) : InstrKept s (t.charge n) :=
  h.trans (.ofCpu t t.cpu n id)

theorem InstrKept.setPC {s t : State} (h : InstrKept s t) (w : Word) : InstrKept s (t.setPC w) :=
  h.trans (.ofCpu t { t.cpu with pc := w } t.cost id)

theorem push_instrKept (v : Byte) (s : State) : InstrKept s (push v s) := by
  obtain ⟨h1, -, h3, h4⟩ := push_kept v s
  exact ⟨h1, h3, fun h => h4 ▸ h, fun h => by rw [push_eq]; exact h⟩

theorem pushWord_instrKept (w : Word) (s : State) : InstrKept s (pushWord w s) :=
  (push_instrKept _ s).trans (push_instrKept _ _)

theorem pull_instrKept (s : State) : InstrKept s (pull s).2 := by
  rw [pull_eq]
  exact .ofCpu s _ s.cost id

theorem pullWord_instrKept (s : State) : InstrKept s (pullWord s).2 :=
  (pull_instrKept s).trans (pull_instrKept _)

theorem read16_kept (a : Word) (s : State) : ReadKept s (read16 a s).2 :=
  (memRead_kept a s).trans (memRead_kept _ _)

theorem enterHandler_kept (ret : Word) (status : Byte) (setI : Bool) (vector : Word) (s : State) :
    InstrKept s (enterHandler ret status setI vector s) := by
  have hp := (pushWord_instrKept ret s).trans (push_instrKept status _)
  have hd : ∀ t : State, InstrKept t (t.setFlag .d false) := fun t =>
    .ofCpu t { t.cpu with p := putFlag .d false t.cpu.p } t.cost fun h => by simpa [getFlag_putFlag] using h
  have hi : ∀ t : State, InstrKept t (t.setFlag .i true) := fun t =>
    .ofCpu t { t.cpu with p := putFlag .i true t.cpu.p } t.cost fun h => by simpa [getFlag_putFlag] using h
  unfold enterHandler
  cases setI
  · exact ((hp.trans (hd _)).trans (read16_kept vector _).toBusKept.instr).setPC _
  · exact (((hp.trans (hd _)).trans (hi _)).trans (read16_kept vector _).toBusKept.instr).setPC _

theorem returnFromInterrupt_kept (s : State) : InstrKept s (returnFromInterrupt s) := by
  rw [returnFromInterrupt_eq]
  exact .ofCpu s _ s.cost fun _ => by simp [getFlag_withUnused]

/-- A read-class instruction leaves what its operation on the registers leaves. -/
theorem readClass_kept {op : Byte → State → State} (h : ∀ m t, InstrKept t (op m t)) (o : Operand) (base : Nat)
    (pen : Bool) (s : State) : InstrKept s (readClass op o base pen s) :=
  ((readOperand_kept o s).toBusKept.instr.trans (h _ _)).charge _

theorem writeClass_kept (v : Byte) (o : Operand) (base : Nat) (s : State) : InstrKept s (writeClass v o base s) :=
  ((resolve_kept o s).toBusKept.instr.trans (memWrite_kept _ v _).instr).charge _

theorem modifyClass_kept {op : Byte → Byte → Byte × Byte} (h : ∀ v p, getFlag .u (op v p).2 = getFlag .u p) (o : Operand)
    (base : Nat) (s : State) : InstrKept s (modifyClass op o base s) := by
  have hp : ∀ (t : State) (v : Byte), InstrKept t (t.setP (op v t.cpu.p).2) := fun t v =>
    .ofCpu t { t.cpu with p := (op v t.cpu.p).2 } t.cost fun k => by simpa [h] using k
  have mem : ∀ o : Operand, InstrKept s (((memWrite (resolve o s).addr
      (op (memRead (resolve o s).addr (resolve o s).after).1 (memRead (resolve o s).addr (resolve o s).after).2.cpu.p).1
      ((memRead (resolve o s).addr (resolve o s).after).2.setP
        (op (memRead (resolve o s).addr (resolve o s).after).1 (memRead (resolve o s).addr (resolve o s).after).2.cpu.p).2))).charge
        base) := fun o =>
    ((((resolve_kept o s).trans (memRead_kept _ _)).toBusKept.instr.trans (hp _ _)).trans (memWrite_kept _ _ _).instr).charge _
  cases o with
  | acc => exact (InstrKept.ofCpu s { s.cpu with a := (op s.cpu.a s.cpu.p).1, p := (op s.cpu.a s.cpu.p).2 } s.cost
      fun k => by simpa [h] using k).charge base
  | _ => exact mem _

end Sys2Proof.Machine
end

