-- ==== Sys2Proof/Laws/Exec.lean ====
section
/-! SUPPORT. `exec` by operand class: one lemma per class of R124 in place of one per constructor. -/

namespace Sys2Proof.Machine

/-- The operation of a read-class mnemonic. -/
def readEffect : Mnemonic → Option (Byte → State → State)
  | .lda => some loadA
  | .ldx => some loadX
  | .ldy => some loadY
  | .adc => some addOp
  | .sbc => some subOp
  | .cmp => some compareA
  | .cpx => some compareX
  | .cpy => some compareY
  | .and => some andOp
  | .ora => some orOp
  | .eor => some xorOp
  | .bit => some bitOp
  | _ => none

/-- The register a store mnemonic writes. -/
def storedRegister : Mnemonic → Option (Cpu → Byte)
  | .sta => some Cpu.a
  | .stx => some Cpu.x
  | .sty => some Cpu.y
  | _ => none

/-- The operation of a read-modify-write mnemonic. -/
def modifyEffect : Mnemonic → Option (Byte → Byte → Byte × Byte)
  | .inc => some inc
  | .dec => some dec
  | .asl => some asl
  | .lsr => some lsr
  | .rol => some rol
  | .ror => some ror
  | _ => none

theorem exec_read {i : Instr} {op : Byte → State → State} (h : readEffect i.mnemonic = some op) (s : State) :
    exec i s = .next (readClass op i.operand (readCycles i.operand) (readPenalty i.operand) s) := by
  cases i <;> first | (cases h; rfl) | cases h

theorem exec_store {i : Instr} {reg : Cpu → Byte} (h : storedRegister i.mnemonic = some reg) (s : State) :
    exec i s = .next (writeClass (reg s.cpu) i.operand (writeCycles i.operand) s) := by
  cases i <;> first | (cases h; rfl) | cases h

theorem exec_modify {i : Instr} {op : Byte → Byte → Byte × Byte} (h : modifyEffect i.mnemonic = some op) (s : State) :
    exec i s = .next (modifyClass op i.operand (modifyCycles i.operand) s) := by
  cases i <;> first | (cases h; rfl) | cases h

/-- No read-class, store or memory-modifying instruction has an indirect operand. -/
theorem operand_ne_ind {i : Instr} (h : i.mnemonic ≠ .jmp) (p : Word) : i.operand ≠ .ind p := by
  cases i <;> first | exact absurd rfl h | exact fun e => by cases e

/-- The cost a read-class meaning charges is `readCost`. -/
theorem costOf_read (o : Operand) (s : State) :
    costOf (readCycles o) (readPenalty o) (resolve o s).crossed = readCost o s := by
  unfold costOf readCost bitNat
  cases readPenalty o <;> cases (resolve o s).crossed <;> rfl

/-- A read-class operation writes CPU registers alone and keeps the flag Unused. -/
theorem readEffect_kept {m : Mnemonic} {op : Byte → State → State} (h : readEffect m = some op) (b : Byte) (t : State) :
    InstrKept t (op b t) := by
  have regs : ∀ c : Cpu, getFlag .u c.p = getFlag .u t.cpu.p → InstrKept t { t with cpu := c } := fun c k =>
    .ofCpu t c t.cost fun u => k.trans u
  unfold readEffect at h
  split at h <;> cases h
  · exact regs _ (getFlag_u_setZN _ _)
  · exact regs _ (getFlag_u_setZN _ _)
  · exact regs _ (getFlag_u_setZN _ _)
  · exact regs _ (getFlag_u_adc _ _ _ _)
  · exact regs _ (getFlag_u_sbc _ _ _ _)
  · exact regs _ (getFlag_u_compareFlags _ _ _)
  · exact regs _ (getFlag_u_compareFlags _ _ _)
  · exact regs _ (getFlag_u_compareFlags _ _ _)
  · exact regs _ (getFlag_u_setZN _ _)
  · exact regs _ (getFlag_u_setZN _ _)
  · exact regs _ (getFlag_u_setZN _ _)
  · exact regs _ (getFlag_u_bitTest _ _ _)

theorem modifyEffect_unused {m : Mnemonic} {op : Byte → Byte → Byte × Byte} (h : modifyEffect m = some op) (v p : Byte) :
    getFlag .u (op v p).2 = getFlag .u p := by
  unfold modifyEffect at h
  split at h <;> cases h
  · exact getFlag_u_inc _ _
  · exact getFlag_u_dec _ _
  · exact getFlag_u_asl _ _
  · exact getFlag_u_lsr _ _
  · exact getFlag_u_rol _ _
  · exact getFlag_u_ror _ _

/-- The target of a branch, computed on integers (R115). -/
theorem resolve_rel_addr (d : Byte) (s : State) : (resolve (.rel d) s).addr = branchTarget d s := by
  have h : ∀ d : Byte, sext16 d = BitVec.ofInt 16 d.toInt := by decide
  show s.cpu.pc + sext16 d = _
  rw [h, branchTarget, BitVec.ofInt_add]
  congr 1
  apply BitVec.eq_of_toNat_eq
  have := s.cpu.pc.isLt
  simp

/-- The branch rule in the terms of the spec's numbers (R190). -/
theorem branch_eq (taken : Bool) (d : Byte) (s : State) : branch taken d s = branched taken d s := by
  unfold branch branched
  simp only [resolve_rel_addr, pageDiffers_eq, bitNat]
  split
  · simp only [State.setPC, State.charge]
    congr 1
    by_cases h : s.cpu.pc.toNat / 256 ≠ (branchTarget d s).toNat / 256 <;> simp [h]
  · rfl

theorem branch_kept (taken : Bool) (d : Byte) (s : State) : InstrKept s (branch taken d s) := by
  unfold branch
  split
  · exact ((InstrKept.refl s).setPC _).charge _
  · exact (InstrKept.refl s).charge _

end Sys2Proof.Machine
end

