-- ==== Sys2Proof/Laws/PerInstr.lean ====
section
/-! SUPPORT. Statements made of every instruction, one lemma per constructor. The family `EncodedForm`: the opcode byte
of the instruction has a row in the opcode map, the row carries that very byte, its format is as long as the encoding,
and the format makes the instruction of its own operand bytes. -/

namespace Sys2Proof.Laws.EncodedForm

/-- The row of an instruction's opcode byte is its own, has the length of its encoding, and builds the instruction from
its operand bytes. -/
def Statement (i : Instr) : Prop :=
  ∃ r, opRow i.opcode = some r ∧ r.opcode = i.opcode ∧ r.format.length = (encode i).length ∧
    match r.format, i.operand.bytes with
    | .f1 j, [] => j = i
    | .f2 f, [d] => f d = i
    | .f3 f, [lo, hi] => f (Machine.wordOf lo hi) = i
    | _, _ => False

theorem ldaImm (d : Byte) : Statement (.ldaImm d) := ⟨_, rfl, rfl, rfl, rfl⟩

theorem ldaZp (d : Byte) : Statement (.ldaZp d) := ⟨_, rfl, rfl, rfl, rfl⟩

theorem ldaZpx (d : Byte) : Statement (.ldaZpx d) := ⟨_, rfl, rfl, rfl, rfl⟩

theorem ldaAbs (a : Word) : Statement (.ldaAbs a) := ⟨_, rfl, rfl, rfl, congrArg Instr.ldaAbs (Machine.wordOf_loByte_hiByte a)⟩

theorem ldaAbx (a : Word) : Statement (.ldaAbx a) := ⟨_, rfl, rfl, rfl, congrArg Instr.ldaAbx (Machine.wordOf_loByte_hiByte a)⟩

theorem ldaAby (a : Word) : Statement (.ldaAby a) := ⟨_, rfl, rfl, rfl, congrArg Instr.ldaAby (Machine.wordOf_loByte_hiByte a)⟩

theorem ldaIzx (d : Byte) : Statement (.ldaIzx d) := ⟨_, rfl, rfl, rfl, rfl⟩

theorem ldaIzy (d : Byte) : Statement (.ldaIzy d) := ⟨_, rfl, rfl, rfl, rfl⟩

theorem ldxImm (d : Byte) : Statement (.ldxImm d) := ⟨_, rfl, rfl, rfl, rfl⟩

theorem ldxZp (d : Byte) : Statement (.ldxZp d) := ⟨_, rfl, rfl, rfl, rfl⟩

theorem ldxZpy (d : Byte) : Statement (.ldxZpy d) := ⟨_, rfl, rfl, rfl, rfl⟩

theorem ldxAbs (a : Word) : Statement (.ldxAbs a) := ⟨_, rfl, rfl, rfl, congrArg Instr.ldxAbs (Machine.wordOf_loByte_hiByte a)⟩

theorem ldxAby (a : Word) : Statement (.ldxAby a) := ⟨_, rfl, rfl, rfl, congrArg Instr.ldxAby (Machine.wordOf_loByte_hiByte a)⟩

theorem ldyImm (d : Byte) : Statement (.ldyImm d) := ⟨_, rfl, rfl, rfl, rfl⟩

theorem ldyZp (d : Byte) : Statement (.ldyZp d) := ⟨_, rfl, rfl, rfl, rfl⟩

theorem ldyZpx (d : Byte) : Statement (.ldyZpx d) := ⟨_, rfl, rfl, rfl, rfl⟩

theorem ldyAbs (a : Word) : Statement (.ldyAbs a) := ⟨_, rfl, rfl, rfl, congrArg Instr.ldyAbs (Machine.wordOf_loByte_hiByte a)⟩

theorem ldyAbx (a : Word) : Statement (.ldyAbx a) := ⟨_, rfl, rfl, rfl, congrArg Instr.ldyAbx (Machine.wordOf_loByte_hiByte a)⟩

theorem staZp (d : Byte) : Statement (.staZp d) := ⟨_, rfl, rfl, rfl, rfl⟩

theorem staZpx (d : Byte) : Statement (.staZpx d) := ⟨_, rfl, rfl, rfl, rfl⟩

theorem staAbs (a : Word) : Statement (.staAbs a) := ⟨_, rfl, rfl, rfl, congrArg Instr.staAbs (Machine.wordOf_loByte_hiByte a)⟩

theorem staAbx (a : Word) : Statement (.staAbx a) := ⟨_, rfl, rfl, rfl, congrArg Instr.staAbx (Machine.wordOf_loByte_hiByte a)⟩

theorem staAby (a : Word) : Statement (.staAby a) := ⟨_, rfl, rfl, rfl, congrArg Instr.staAby (Machine.wordOf_loByte_hiByte a)⟩

theorem staIzx (d : Byte) : Statement (.staIzx d) := ⟨_, rfl, rfl, rfl, rfl⟩

theorem staIzy (d : Byte) : Statement (.staIzy d) := ⟨_, rfl, rfl, rfl, rfl⟩

theorem stxZp (d : Byte) : Statement (.stxZp d) := ⟨_, rfl, rfl, rfl, rfl⟩

theorem stxZpy (d : Byte) : Statement (.stxZpy d) := ⟨_, rfl, rfl, rfl, rfl⟩

theorem stxAbs (a : Word) : Statement (.stxAbs a) := ⟨_, rfl, rfl, rfl, congrArg Instr.stxAbs (Machine.wordOf_loByte_hiByte a)⟩

theorem styZp (d : Byte) : Statement (.styZp d) := ⟨_, rfl, rfl, rfl, rfl⟩

theorem styZpx (d : Byte) : Statement (.styZpx d) := ⟨_, rfl, rfl, rfl, rfl⟩

theorem styAbs (a : Word) : Statement (.styAbs a) := ⟨_, rfl, rfl, rfl, congrArg Instr.styAbs (Machine.wordOf_loByte_hiByte a)⟩

theorem tax : Statement .tax := ⟨_, rfl, rfl, rfl, rfl⟩

theorem tay : Statement .tay := ⟨_, rfl, rfl, rfl, rfl⟩

theorem txa : Statement .txa := ⟨_, rfl, rfl, rfl, rfl⟩

theorem tya : Statement .tya := ⟨_, rfl, rfl, rfl, rfl⟩

theorem tsx : Statement .tsx := ⟨_, rfl, rfl, rfl, rfl⟩

theorem txs : Statement .txs := ⟨_, rfl, rfl, rfl, rfl⟩

theorem adcImm (d : Byte) : Statement (.adcImm d) := ⟨_, rfl, rfl, rfl, rfl⟩

theorem adcZp (d : Byte) : Statement (.adcZp d) := ⟨_, rfl, rfl, rfl, rfl⟩

theorem adcZpx (d : Byte) : Statement (.adcZpx d) := ⟨_, rfl, rfl, rfl, rfl⟩

theorem adcAbs (a : Word) : Statement (.adcAbs a) := ⟨_, rfl, rfl, rfl, congrArg Instr.adcAbs (Machine.wordOf_loByte_hiByte a)⟩

theorem adcAbx (a : Word) : Statement (.adcAbx a) := ⟨_, rfl, rfl, rfl, congrArg Instr.adcAbx (Machine.wordOf_loByte_hiByte a)⟩

theorem adcAby (a : Word) : Statement (.adcAby a) := ⟨_, rfl, rfl, rfl, congrArg Instr.adcAby (Machine.wordOf_loByte_hiByte a)⟩

theorem adcIzx (d : Byte) : Statement (.adcIzx d) := ⟨_, rfl, rfl, rfl, rfl⟩

theorem adcIzy (d : Byte) : Statement (.adcIzy d) := ⟨_, rfl, rfl, rfl, rfl⟩

theorem sbcImm (d : Byte) : Statement (.sbcImm d) := ⟨_, rfl, rfl, rfl, rfl⟩

theorem sbcZp (d : Byte) : Statement (.sbcZp d) := ⟨_, rfl, rfl, rfl, rfl⟩

theorem sbcZpx (d : Byte) : Statement (.sbcZpx d) := ⟨_, rfl, rfl, rfl, rfl⟩

theorem sbcAbs (a : Word) : Statement (.sbcAbs a) := ⟨_, rfl, rfl, rfl, congrArg Instr.sbcAbs (Machine.wordOf_loByte_hiByte a)⟩

theorem sbcAbx (a : Word) : Statement (.sbcAbx a) := ⟨_, rfl, rfl, rfl, congrArg Instr.sbcAbx (Machine.wordOf_loByte_hiByte a)⟩

theorem sbcAby (a : Word) : Statement (.sbcAby a) := ⟨_, rfl, rfl, rfl, congrArg Instr.sbcAby (Machine.wordOf_loByte_hiByte a)⟩

theorem sbcIzx (d : Byte) : Statement (.sbcIzx d) := ⟨_, rfl, rfl, rfl, rfl⟩

theorem sbcIzy (d : Byte) : Statement (.sbcIzy d) := ⟨_, rfl, rfl, rfl, rfl⟩

theorem cmpImm (d : Byte) : Statement (.cmpImm d) := ⟨_, rfl, rfl, rfl, rfl⟩

theorem cmpZp (d : Byte) : Statement (.cmpZp d) := ⟨_, rfl, rfl, rfl, rfl⟩

theorem cmpZpx (d : Byte) : Statement (.cmpZpx d) := ⟨_, rfl, rfl, rfl, rfl⟩

theorem cmpAbs (a : Word) : Statement (.cmpAbs a) := ⟨_, rfl, rfl, rfl, congrArg Instr.cmpAbs (Machine.wordOf_loByte_hiByte a)⟩

theorem cmpAbx (a : Word) : Statement (.cmpAbx a) := ⟨_, rfl, rfl, rfl, congrArg Instr.cmpAbx (Machine.wordOf_loByte_hiByte a)⟩

theorem cmpAby (a : Word) : Statement (.cmpAby a) := ⟨_, rfl, rfl, rfl, congrArg Instr.cmpAby (Machine.wordOf_loByte_hiByte a)⟩

theorem cmpIzx (d : Byte) : Statement (.cmpIzx d) := ⟨_, rfl, rfl, rfl, rfl⟩

theorem cmpIzy (d : Byte) : Statement (.cmpIzy d) := ⟨_, rfl, rfl, rfl, rfl⟩

theorem cpxImm (d : Byte) : Statement (.cpxImm d) := ⟨_, rfl, rfl, rfl, rfl⟩

theorem cpxZp (d : Byte) : Statement (.cpxZp d) := ⟨_, rfl, rfl, rfl, rfl⟩

theorem cpxAbs (a : Word) : Statement (.cpxAbs a) := ⟨_, rfl, rfl, rfl, congrArg Instr.cpxAbs (Machine.wordOf_loByte_hiByte a)⟩

theorem cpyImm (d : Byte) : Statement (.cpyImm d) := ⟨_, rfl, rfl, rfl, rfl⟩

theorem cpyZp (d : Byte) : Statement (.cpyZp d) := ⟨_, rfl, rfl, rfl, rfl⟩

theorem cpyAbs (a : Word) : Statement (.cpyAbs a) := ⟨_, rfl, rfl, rfl, congrArg Instr.cpyAbs (Machine.wordOf_loByte_hiByte a)⟩

theorem incZp (d : Byte) : Statement (.incZp d) := ⟨_, rfl, rfl, rfl, rfl⟩

theorem incZpx (d : Byte) : Statement (.incZpx d) := ⟨_, rfl, rfl, rfl, rfl⟩

theorem incAbs (a : Word) : Statement (.incAbs a) := ⟨_, rfl, rfl, rfl, congrArg Instr.incAbs (Machine.wordOf_loByte_hiByte a)⟩

theorem incAbx (a : Word) : Statement (.incAbx a) := ⟨_, rfl, rfl, rfl, congrArg Instr.incAbx (Machine.wordOf_loByte_hiByte a)⟩

theorem inx : Statement .inx := ⟨_, rfl, rfl, rfl, rfl⟩

theorem iny : Statement .iny := ⟨_, rfl, rfl, rfl, rfl⟩

theorem decZp (d : Byte) : Statement (.decZp d) := ⟨_, rfl, rfl, rfl, rfl⟩

theorem decZpx (d : Byte) : Statement (.decZpx d) := ⟨_, rfl, rfl, rfl, rfl⟩

theorem decAbs (a : Word) : Statement (.decAbs a) := ⟨_, rfl, rfl, rfl, congrArg Instr.decAbs (Machine.wordOf_loByte_hiByte a)⟩

theorem decAbx (a : Word) : Statement (.decAbx a) := ⟨_, rfl, rfl, rfl, congrArg Instr.decAbx (Machine.wordOf_loByte_hiByte a)⟩

theorem dex : Statement .dex := ⟨_, rfl, rfl, rfl, rfl⟩

theorem dey : Statement .dey := ⟨_, rfl, rfl, rfl, rfl⟩

theorem andImm (d : Byte) : Statement (.andImm d) := ⟨_, rfl, rfl, rfl, rfl⟩

theorem andZp (d : Byte) : Statement (.andZp d) := ⟨_, rfl, rfl, rfl, rfl⟩

theorem andZpx (d : Byte) : Statement (.andZpx d) := ⟨_, rfl, rfl, rfl, rfl⟩

theorem andAbs (a : Word) : Statement (.andAbs a) := ⟨_, rfl, rfl, rfl, congrArg Instr.andAbs (Machine.wordOf_loByte_hiByte a)⟩

theorem andAbx (a : Word) : Statement (.andAbx a) := ⟨_, rfl, rfl, rfl, congrArg Instr.andAbx (Machine.wordOf_loByte_hiByte a)⟩

theorem andAby (a : Word) : Statement (.andAby a) := ⟨_, rfl, rfl, rfl, congrArg Instr.andAby (Machine.wordOf_loByte_hiByte a)⟩

theorem andIzx (d : Byte) : Statement (.andIzx d) := ⟨_, rfl, rfl, rfl, rfl⟩

theorem andIzy (d : Byte) : Statement (.andIzy d) := ⟨_, rfl, rfl, rfl, rfl⟩

theorem oraImm (d : Byte) : Statement (.oraImm d) := ⟨_, rfl, rfl, rfl, rfl⟩

theorem oraZp (d : Byte) : Statement (.oraZp d) := ⟨_, rfl, rfl, rfl, rfl⟩

theorem oraZpx (d : Byte) : Statement (.oraZpx d) := ⟨_, rfl, rfl, rfl, rfl⟩

theorem oraAbs (a : Word) : Statement (.oraAbs a) := ⟨_, rfl, rfl, rfl, congrArg Instr.oraAbs (Machine.wordOf_loByte_hiByte a)⟩

theorem oraAbx (a : Word) : Statement (.oraAbx a) := ⟨_, rfl, rfl, rfl, congrArg Instr.oraAbx (Machine.wordOf_loByte_hiByte a)⟩

theorem oraAby (a : Word) : Statement (.oraAby a) := ⟨_, rfl, rfl, rfl, congrArg Instr.oraAby (Machine.wordOf_loByte_hiByte a)⟩

theorem oraIzx (d : Byte) : Statement (.oraIzx d) := ⟨_, rfl, rfl, rfl, rfl⟩

theorem oraIzy (d : Byte) : Statement (.oraIzy d) := ⟨_, rfl, rfl, rfl, rfl⟩

theorem eorImm (d : Byte) : Statement (.eorImm d) := ⟨_, rfl, rfl, rfl, rfl⟩

theorem eorZp (d : Byte) : Statement (.eorZp d) := ⟨_, rfl, rfl, rfl, rfl⟩

theorem eorZpx (d : Byte) : Statement (.eorZpx d) := ⟨_, rfl, rfl, rfl, rfl⟩

theorem eorAbs (a : Word) : Statement (.eorAbs a) := ⟨_, rfl, rfl, rfl, congrArg Instr.eorAbs (Machine.wordOf_loByte_hiByte a)⟩

theorem eorAbx (a : Word) : Statement (.eorAbx a) := ⟨_, rfl, rfl, rfl, congrArg Instr.eorAbx (Machine.wordOf_loByte_hiByte a)⟩

theorem eorAby (a : Word) : Statement (.eorAby a) := ⟨_, rfl, rfl, rfl, congrArg Instr.eorAby (Machine.wordOf_loByte_hiByte a)⟩

theorem eorIzx (d : Byte) : Statement (.eorIzx d) := ⟨_, rfl, rfl, rfl, rfl⟩

theorem eorIzy (d : Byte) : Statement (.eorIzy d) := ⟨_, rfl, rfl, rfl, rfl⟩

theorem bitZp (d : Byte) : Statement (.bitZp d) := ⟨_, rfl, rfl, rfl, rfl⟩

theorem bitAbs (a : Word) : Statement (.bitAbs a) := ⟨_, rfl, rfl, rfl, congrArg Instr.bitAbs (Machine.wordOf_loByte_hiByte a)⟩

theorem aslAcc : Statement .aslAcc := ⟨_, rfl, rfl, rfl, rfl⟩

theorem aslZp (d : Byte) : Statement (.aslZp d) := ⟨_, rfl, rfl, rfl, rfl⟩

theorem aslZpx (d : Byte) : Statement (.aslZpx d) := ⟨_, rfl, rfl, rfl, rfl⟩

theorem aslAbs (a : Word) : Statement (.aslAbs a) := ⟨_, rfl, rfl, rfl, congrArg Instr.aslAbs (Machine.wordOf_loByte_hiByte a)⟩

theorem aslAbx (a : Word) : Statement (.aslAbx a) := ⟨_, rfl, rfl, rfl, congrArg Instr.aslAbx (Machine.wordOf_loByte_hiByte a)⟩

theorem lsrAcc : Statement .lsrAcc := ⟨_, rfl, rfl, rfl, rfl⟩

theorem lsrZp (d : Byte) : Statement (.lsrZp d) := ⟨_, rfl, rfl, rfl, rfl⟩

theorem lsrZpx (d : Byte) : Statement (.lsrZpx d) := ⟨_, rfl, rfl, rfl, rfl⟩

theorem lsrAbs (a : Word) : Statement (.lsrAbs a) := ⟨_, rfl, rfl, rfl, congrArg Instr.lsrAbs (Machine.wordOf_loByte_hiByte a)⟩

theorem lsrAbx (a : Word) : Statement (.lsrAbx a) := ⟨_, rfl, rfl, rfl, congrArg Instr.lsrAbx (Machine.wordOf_loByte_hiByte a)⟩

theorem rolAcc : Statement .rolAcc := ⟨_, rfl, rfl, rfl, rfl⟩

theorem rolZp (d : Byte) : Statement (.rolZp d) := ⟨_, rfl, rfl, rfl, rfl⟩

theorem rolZpx (d : Byte) : Statement (.rolZpx d) := ⟨_, rfl, rfl, rfl, rfl⟩

theorem rolAbs (a : Word) : Statement (.rolAbs a) := ⟨_, rfl, rfl, rfl, congrArg Instr.rolAbs (Machine.wordOf_loByte_hiByte a)⟩

theorem rolAbx (a : Word) : Statement (.rolAbx a) := ⟨_, rfl, rfl, rfl, congrArg Instr.rolAbx (Machine.wordOf_loByte_hiByte a)⟩

theorem rorAcc : Statement .rorAcc := ⟨_, rfl, rfl, rfl, rfl⟩

theorem rorZp (d : Byte) : Statement (.rorZp d) := ⟨_, rfl, rfl, rfl, rfl⟩

theorem rorZpx (d : Byte) : Statement (.rorZpx d) := ⟨_, rfl, rfl, rfl, rfl⟩

theorem rorAbs (a : Word) : Statement (.rorAbs a) := ⟨_, rfl, rfl, rfl, congrArg Instr.rorAbs (Machine.wordOf_loByte_hiByte a)⟩

theorem rorAbx (a : Word) : Statement (.rorAbx a) := ⟨_, rfl, rfl, rfl, congrArg Instr.rorAbx (Machine.wordOf_loByte_hiByte a)⟩

theorem jmpAbs (a : Word) : Statement (.jmpAbs a) := ⟨_, rfl, rfl, rfl, congrArg Instr.jmpAbs (Machine.wordOf_loByte_hiByte a)⟩

theorem jmpInd (a : Word) : Statement (.jmpInd a) := ⟨_, rfl, rfl, rfl, congrArg Instr.jmpInd (Machine.wordOf_loByte_hiByte a)⟩

theorem jsr (a : Word) : Statement (.jsr a) := ⟨_, rfl, rfl, rfl, congrArg Instr.jsr (Machine.wordOf_loByte_hiByte a)⟩

theorem rts : Statement .rts := ⟨_, rfl, rfl, rfl, rfl⟩

theorem bcc (d : Byte) : Statement (.bcc d) := ⟨_, rfl, rfl, rfl, rfl⟩

theorem bcs (d : Byte) : Statement (.bcs d) := ⟨_, rfl, rfl, rfl, rfl⟩

theorem beq (d : Byte) : Statement (.beq d) := ⟨_, rfl, rfl, rfl, rfl⟩

theorem bne (d : Byte) : Statement (.bne d) := ⟨_, rfl, rfl, rfl, rfl⟩

theorem bmi (d : Byte) : Statement (.bmi d) := ⟨_, rfl, rfl, rfl, rfl⟩

theorem bpl (d : Byte) : Statement (.bpl d) := ⟨_, rfl, rfl, rfl, rfl⟩

theorem bvc (d : Byte) : Statement (.bvc d) := ⟨_, rfl, rfl, rfl, rfl⟩

theorem bvs (d : Byte) : Statement (.bvs d) := ⟨_, rfl, rfl, rfl, rfl⟩

theorem pha : Statement .pha := ⟨_, rfl, rfl, rfl, rfl⟩

theorem pla : Statement .pla := ⟨_, rfl, rfl, rfl, rfl⟩

theorem php : Statement .php := ⟨_, rfl, rfl, rfl, rfl⟩

theorem plp : Statement .plp := ⟨_, rfl, rfl, rfl, rfl⟩

theorem clc : Statement .clc := ⟨_, rfl, rfl, rfl, rfl⟩

theorem sec : Statement .sec := ⟨_, rfl, rfl, rfl, rfl⟩

theorem cli : Statement .cli := ⟨_, rfl, rfl, rfl, rfl⟩

theorem sei : Statement .sei := ⟨_, rfl, rfl, rfl, rfl⟩

theorem cld : Statement .cld := ⟨_, rfl, rfl, rfl, rfl⟩

theorem sed : Statement .sed := ⟨_, rfl, rfl, rfl, rfl⟩

theorem clv : Statement .clv := ⟨_, rfl, rfl, rfl, rfl⟩

theorem nop : Statement .nop := ⟨_, rfl, rfl, rfl, rfl⟩

theorem brk : Statement .brk := ⟨_, rfl, rfl, rfl, rfl⟩

theorem rti : Statement .rti := ⟨_, rfl, rfl, rfl, rfl⟩

end Sys2Proof.Laws.EncodedForm

namespace Sys2Proof.Laws

/-- The family, put together. -/
theorem encoded_of_every_instruction : ∀ i : Instr, EncodedForm.Statement i
  | .ldaImm d => EncodedForm.ldaImm d
  | .ldaZp d => EncodedForm.ldaZp d
  | .ldaZpx d => EncodedForm.ldaZpx d
  | .ldaAbs a => EncodedForm.ldaAbs a
  | .ldaAbx a => EncodedForm.ldaAbx a
  | .ldaAby a => EncodedForm.ldaAby a
  | .ldaIzx d => EncodedForm.ldaIzx d
  | .ldaIzy d => EncodedForm.ldaIzy d
  | .ldxImm d => EncodedForm.ldxImm d
  | .ldxZp d => EncodedForm.ldxZp d
  | .ldxZpy d => EncodedForm.ldxZpy d
  | .ldxAbs a => EncodedForm.ldxAbs a
  | .ldxAby a => EncodedForm.ldxAby a
  | .ldyImm d => EncodedForm.ldyImm d
  | .ldyZp d => EncodedForm.ldyZp d
  | .ldyZpx d => EncodedForm.ldyZpx d
  | .ldyAbs a => EncodedForm.ldyAbs a
  | .ldyAbx a => EncodedForm.ldyAbx a
  | .staZp d => EncodedForm.staZp d
  | .staZpx d => EncodedForm.staZpx d
  | .staAbs a => EncodedForm.staAbs a
  | .staAbx a => EncodedForm.staAbx a
  | .staAby a => EncodedForm.staAby a
  | .staIzx d => EncodedForm.staIzx d
  | .staIzy d => EncodedForm.staIzy d
  | .stxZp d => EncodedForm.stxZp d
  | .stxZpy d => EncodedForm.stxZpy d
  | .stxAbs a => EncodedForm.stxAbs a
  | .styZp d => EncodedForm.styZp d
  | .styZpx d => EncodedForm.styZpx d
  | .styAbs a => EncodedForm.styAbs a
  | .tax => EncodedForm.tax
  | .tay => EncodedForm.tay
  | .txa => EncodedForm.txa
  | .tya => EncodedForm.tya
  | .tsx => EncodedForm.tsx
  | .txs => EncodedForm.txs
  | .adcImm d => EncodedForm.adcImm d
  | .adcZp d => EncodedForm.adcZp d
  | .adcZpx d => EncodedForm.adcZpx d
  | .adcAbs a => EncodedForm.adcAbs a
  | .adcAbx a => EncodedForm.adcAbx a
  | .adcAby a => EncodedForm.adcAby a
  | .adcIzx d => EncodedForm.adcIzx d
  | .adcIzy d => EncodedForm.adcIzy d
  | .sbcImm d => EncodedForm.sbcImm d
  | .sbcZp d => EncodedForm.sbcZp d
  | .sbcZpx d => EncodedForm.sbcZpx d
  | .sbcAbs a => EncodedForm.sbcAbs a
  | .sbcAbx a => EncodedForm.sbcAbx a
  | .sbcAby a => EncodedForm.sbcAby a
  | .sbcIzx d => EncodedForm.sbcIzx d
  | .sbcIzy d => EncodedForm.sbcIzy d
  | .cmpImm d => EncodedForm.cmpImm d
  | .cmpZp d => EncodedForm.cmpZp d
  | .cmpZpx d => EncodedForm.cmpZpx d
  | .cmpAbs a => EncodedForm.cmpAbs a
  | .cmpAbx a => EncodedForm.cmpAbx a
  | .cmpAby a => EncodedForm.cmpAby a
  | .cmpIzx d => EncodedForm.cmpIzx d
  | .cmpIzy d => EncodedForm.cmpIzy d
  | .cpxImm d => EncodedForm.cpxImm d
  | .cpxZp d => EncodedForm.cpxZp d
  | .cpxAbs a => EncodedForm.cpxAbs a
  | .cpyImm d => EncodedForm.cpyImm d
  | .cpyZp d => EncodedForm.cpyZp d
  | .cpyAbs a => EncodedForm.cpyAbs a
  | .incZp d => EncodedForm.incZp d
  | .incZpx d => EncodedForm.incZpx d
  | .incAbs a => EncodedForm.incAbs a
  | .incAbx a => EncodedForm.incAbx a
  | .inx => EncodedForm.inx
  | .iny => EncodedForm.iny
  | .decZp d => EncodedForm.decZp d
  | .decZpx d => EncodedForm.decZpx d
  | .decAbs a => EncodedForm.decAbs a
  | .decAbx a => EncodedForm.decAbx a
  | .dex => EncodedForm.dex
  | .dey => EncodedForm.dey
  | .andImm d => EncodedForm.andImm d
  | .andZp d => EncodedForm.andZp d
  | .andZpx d => EncodedForm.andZpx d
  | .andAbs a => EncodedForm.andAbs a
  | .andAbx a => EncodedForm.andAbx a
  | .andAby a => EncodedForm.andAby a
  | .andIzx d => EncodedForm.andIzx d
  | .andIzy d => EncodedForm.andIzy d
  | .oraImm d => EncodedForm.oraImm d
  | .oraZp d => EncodedForm.oraZp d
  | .oraZpx d => EncodedForm.oraZpx d
  | .oraAbs a => EncodedForm.oraAbs a
  | .oraAbx a => EncodedForm.oraAbx a
  | .oraAby a => EncodedForm.oraAby a
  | .oraIzx d => EncodedForm.oraIzx d
  | .oraIzy d => EncodedForm.oraIzy d
  | .eorImm d => EncodedForm.eorImm d
  | .eorZp d => EncodedForm.eorZp d
  | .eorZpx d => EncodedForm.eorZpx d
  | .eorAbs a => EncodedForm.eorAbs a
  | .eorAbx a => EncodedForm.eorAbx a
  | .eorAby a => EncodedForm.eorAby a
  | .eorIzx d => EncodedForm.eorIzx d
  | .eorIzy d => EncodedForm.eorIzy d
  | .bitZp d => EncodedForm.bitZp d
  | .bitAbs a => EncodedForm.bitAbs a
  | .aslAcc => EncodedForm.aslAcc
  | .aslZp d => EncodedForm.aslZp d
  | .aslZpx d => EncodedForm.aslZpx d
  | .aslAbs a => EncodedForm.aslAbs a
  | .aslAbx a => EncodedForm.aslAbx a
  | .lsrAcc => EncodedForm.lsrAcc
  | .lsrZp d => EncodedForm.lsrZp d
  | .lsrZpx d => EncodedForm.lsrZpx d
  | .lsrAbs a => EncodedForm.lsrAbs a
  | .lsrAbx a => EncodedForm.lsrAbx a
  | .rolAcc => EncodedForm.rolAcc
  | .rolZp d => EncodedForm.rolZp d
  | .rolZpx d => EncodedForm.rolZpx d
  | .rolAbs a => EncodedForm.rolAbs a
  | .rolAbx a => EncodedForm.rolAbx a
  | .rorAcc => EncodedForm.rorAcc
  | .rorZp d => EncodedForm.rorZp d
  | .rorZpx d => EncodedForm.rorZpx d
  | .rorAbs a => EncodedForm.rorAbs a
  | .rorAbx a => EncodedForm.rorAbx a
  | .jmpAbs a => EncodedForm.jmpAbs a
  | .jmpInd a => EncodedForm.jmpInd a
  | .jsr a => EncodedForm.jsr a
  | .rts => EncodedForm.rts
  | .bcc d => EncodedForm.bcc d
  | .bcs d => EncodedForm.bcs d
  | .beq d => EncodedForm.beq d
  | .bne d => EncodedForm.bne d
  | .bmi d => EncodedForm.bmi d
  | .bpl d => EncodedForm.bpl d
  | .bvc d => EncodedForm.bvc d
  | .bvs d => EncodedForm.bvs d
  | .pha => EncodedForm.pha
  | .pla => EncodedForm.pla
  | .php => EncodedForm.php
  | .plp => EncodedForm.plp
  | .clc => EncodedForm.clc
  | .sec => EncodedForm.sec
  | .cli => EncodedForm.cli
  | .sei => EncodedForm.sei
  | .cld => EncodedForm.cld
  | .sed => EncodedForm.sed
  | .clv => EncodedForm.clv
  | .nop => EncodedForm.nop
  | .brk => EncodedForm.brk
  | .rti => EncodedForm.rti

end Sys2Proof.Laws
end

