-- ==== Sys2Proof/Laws/Ppu.lean ====
section
/-! SUPPORT. What the ticks of the PPU can do: an event changes no part of the machine but the PPU's registers `v`,
`status` and `suppressVbl`, its picture buffers and the InterruptLine; a tick advances the position by one. -/

namespace Sys2Proof.Machine

/-! ### What an event leaves -/

/-- What an event of the PPU leaves. -/
structure EventKept (s t : State) : Prop where
  cpu : t.cpu = s.cpu
  nt0 : t.nt0 = s.nt0
  nt1 : t.nt1 = s.nt1
  mirroring : t.mirroring = s.mirroring
  ram : t.ram = s.ram
  prgRam : t.prgRam = s.prgRam
  chr : t.chr = s.chr
  cart : t.cart = s.cart
  params : t.params = s.params
  stall : t.stall = s.stall
  cpuCycles : t.cpuCycles = s.cpuCycles
  fault : t.fault = s.fault
  cost : t.cost = s.cost
  draws : t.draws = s.draws
  handed : t.handed = s.handed
  ctrl : t.ppu.ctrl = s.ppu.ctrl
  mask : t.ppu.mask = s.ppu.mask
  latch : t.ppu.t = s.ppu.t
  fineX : t.ppu.fineX = s.ppu.fineX
  w : t.ppu.w = s.ppu.w
  oamAddr : t.ppu.oamAddr = s.ppu.oamAddr
  oam : t.ppu.oam = s.ppu.oam
  palette : t.ppu.palette = s.ppu.palette
  readBuffer : t.ppu.readBuffer = s.ppu.readBuffer
  scanline : t.ppu.scanline = s.ppu.scanline
  cycle : t.ppu.cycle = s.ppu.cycle
  frame : t.ppu.frame = s.ppu.frame
  memories : MemoriesOk s → MemoriesOk t
  statusLow : s.ppu.status &&& 0x1F = 0 → t.ppu.status &&& 0x1F = 0

theorem EventKept.refl (s : State) : EventKept s s :=
  ⟨rfl, rfl, rfl, rfl, rfl, rfl, rfl, rfl, rfl, rfl, rfl, rfl, rfl, rfl, rfl, rfl, rfl, rfl, rfl, rfl, rfl, rfl, rfl, rfl,
    rfl, rfl, rfl, id, id⟩

theorem EventKept.trans {s t u : State} (h : EventKept s t) (k : EventKept t u) : EventKept s u :=
  ⟨k.1.trans h.1, k.2.trans h.2, k.3.trans h.3, k.4.trans h.4, k.5.trans h.5, k.6.trans h.6, k.7.trans h.7,
    k.8.trans h.8, k.9.trans h.9, k.10.trans h.10, k.11.trans h.11, k.12.trans h.12, k.13.trans h.13, k.14.trans h.14,
    k.15.trans h.15, k.16.trans h.16, k.17.trans h.17, k.18.trans h.18, k.19.trans h.19, k.20.trans h.20,
    k.21.trans h.21, k.22.trans h.22, k.23.trans h.23, k.24.trans h.24, k.25.trans h.25, k.26.trans h.26,
    k.27.trans h.27, k.28 ∘ h.28, k.29 ∘ h.29⟩

/-- A change of `status`, `v`, `suppressVbl` and the picture buffers, and of the InterruptLine, is an event's. -/
theorem EventKept.ofPpu (s : State) (st : Byte) (v : VAddr) (sv : Bool) (comp : Sparse Pixel) (out : Sparse (BitVec 6))
    (line : Line) (hst : s.ppu.status &&& 0x1F = 0 → st &&& 0x1F = 0)
    (hc : MemoriesOk s → Memory.wf Pixel.clear 61440 comp) (ho : MemoriesOk s → Memory.wf 0 61440 out) :
    EventKept s { s with
      ppu := { s.ppu with status := st, v := v, suppressVbl := sv, comp := comp, out := out }, line := line } :=
  ⟨rfl, rfl, rfl, rfl, rfl, rfl, rfl, rfl, rfl, rfl, rfl, rfl, rfl, rfl, rfl, rfl, rfl, rfl, rfl, rfl, rfl, rfl, rfl, rfl,
    rfl, rfl, rfl, fun h => ⟨h.1, h.2, h.3, h.4, h.5, h.6, h.7, hc h, ho h⟩, hst⟩

theorem EventKept.status (s : State) {st : Byte} (h : s.ppu.status &&& 0x1F = 0 → st &&& 0x1F = 0) :
    EventKept s { s with ppu := { s.ppu with status := st } } :=
  .ofPpu s st s.ppu.v s.ppu.suppressVbl s.ppu.comp s.ppu.out s.line h (·.comp) (·.out)

theorem EventKept.scroll (s : State) (v : VAddr) : EventKept s { s with ppu := { s.ppu with v := v } } :=
  .ofPpu s s.ppu.status v s.ppu.suppressVbl s.ppu.comp s.ppu.out s.line id (·.comp) (·.out)

theorem EventKept.comp (s : State) {c : Sparse Pixel} (h : MemoriesOk s → Memory.wf Pixel.clear 61440 c) :
    EventKept s { s with ppu := { s.ppu with comp := c } } :=
  .ofPpu s s.ppu.status s.ppu.v s.ppu.suppressVbl c s.ppu.out s.line id h (·.out)

/-! ### Rendering -/

theorem renderBackgroundRow_kept {y : Nat} (hy : y < 240) (s : State) : EventKept s (renderBackgroundRow y s) :=
  .comp s fun h => Memory.wf_splice h.comp (by omega)

/-- One column of a sprite in closed form (R274, R275): what it does to the flag and to the entry `e` under it, when it
is drawn at all. -/
theorem spritePixel_eq (i : Fin 64) (y : Nat) (lo hi attr x0 : Byte) (c : Nat) (s : State) {px : BitVec 2} {e : Pixel}
    {drawn : Prop} [Decidable drawn] (hpx : px = patternValue lo hi (if attr.getLsbD 6 then c else 7 - c))
    (he : e = Memory.get Pixel.clear s.ppu.comp (y * 256 + (x0.toNat + c)))
    (hd : drawn ↔ x0.toNat + c ≤ 255 ∧ px ≠ 0 ∧ ¬ (x0.toNat + c < 8 ∧ s.ppu.showSpritesLeft = false)) :
    spritePixel i y lo hi attr x0 c s = { s with ppu := { s.ppu with
      status := if drawn ∧ i = 0 ∧ e.owner = none ∧ e.opacity ≠ 0 then putBit 6 true s.ppu.status else s.ppu.status
      comp := if drawn ∧ e.owner = none ∧ ¬ (e.opacity ≠ 0 ∧ attr.getLsbD 5 = true) then
          Memory.set Pixel.clear s.ppu.comp (y * 256 + (x0.toNat + c))
            ⟨paletteColor (0x10 + 4 * (attr.extractLsb' 0 2).toNat + px.toNat) s, px, some i⟩
        else s.ppu.comp } } := by
  unfold spritePixel
  simp only
  rw [← hpx, ← he]
  by_cases h1 : 255 < x0.toNat + c
  · have : ¬ drawn := by rw [hd]; omega
    simp only [h1, this, if_true, false_and, if_false]
  by_cases h2 : px = 0
  · have : ¬ drawn := by rw [hd]; exact fun h => h.2.1 h2
    rw [if_neg h1, if_pos h2]
    simp only [this, false_and, if_false]
  by_cases h3 : x0.toNat + c < 8 ∧ s.ppu.showSpritesLeft = false
  · have : ¬ drawn := by rw [hd]; exact fun h => h.2.2 h3
    rw [if_neg h1, if_neg h2, if_pos h3]
    simp only [this, false_and, if_false]
  have hdr : drawn := hd.2 ⟨by omega, h2, h3⟩
  rw [if_neg h1, if_neg h2, if_neg h3]
  simp only [hdr, true_and]
  generalize attr.getLsbD 5 = b
  by_cases h4 : e.owner = none
  · by_cases h5 : e.opacity = 0
    · simp only [h4, h5, ne_eq, not_true, and_false, false_and, if_false, not_false_iff, and_true, if_true]
    · by_cases h6 : i = 0 <;> cases b <;>
        (simp only [h4, h5, h6, ne_eq, not_true, and_false, if_false, not_false_iff, and_true, if_true,
          Bool.false_eq_true]; try rfl)
  · simp only [h4, ne_eq, false_and, and_false, if_false, not_false_iff, if_true]

/-- The column of a sprite that is drawn lies on the screen. -/
theorem spritePixel_kept (i : Fin 64) {y : Nat} (hy : y < 240) (lo hi attr x0 : Byte) (c : Nat) (s : State) :
    EventKept s (spritePixel i y lo hi attr x0 c s) := by
  have hit : ∀ q : Prop, [Decidable q] → EventKept s
      (if q then { s with ppu := { s.ppu with status := putBit 6 true s.ppu.status } } else s) := fun q _ => by
    split
    · exact .status s (statusLow_putBit (by omega) (by omega))
    · exact .refl s
  unfold spritePixel
  by_cases h1 : 255 < x0.toNat + c
  · simp only [h1, if_true]
    exact .refl s
  by_cases h2 : patternValue lo hi (if attr.getLsbD 6 = true then c else 7 - c) = 0
  · simp only [h1, h2, if_false, if_true]
    exact .refl s
  by_cases h3 : x0.toNat + c < 8 ∧ s.ppu.showSpritesLeft = false
  · simp only [h1, h2, h3, if_false]
    exact .refl s
  simp only [h1, h2, h3, if_false]
  have hk := hit (i = 0 ∧ (Memory.get Pixel.clear s.ppu.comp (y * 256 + (x0.toNat + c))).owner = none ∧
    (Memory.get Pixel.clear s.ppu.comp (y * 256 + (x0.toNat + c))).opacity ≠ 0)
  generalize (if i = 0 ∧ (Memory.get Pixel.clear s.ppu.comp (y * 256 + (x0.toNat + c))).owner = none ∧
    (Memory.get Pixel.clear s.ppu.comp (y * 256 + (x0.toNat + c))).opacity ≠ 0
    then { s with ppu := { s.ppu with status := putBit 6 true s.ppu.status } } else s) = s' at hk ⊢
  split
  · exact hk
  split
  · exact hk
  · exact hk.trans (.comp s' fun h => Memory.wf_set h.comp (by omega))

theorem spriteColumns_kept (i : Fin 64) {y : Nat} (hy : y < 240) (lo hi attr x0 : Byte) (k : Nat) (s : State) :
    EventKept s (spriteColumns i y lo hi attr x0 k s) := by
  induction k with
  | zero => exact .refl s
  | succ k ih => exact ih.trans (spritePixel_kept i hy lo hi attr x0 k _)

theorem compositeSprite_kept (i : Fin 64) {y : Nat} (hy : y < 240) (h : Nat) (s : State) :
    EventKept s (compositeSprite i y h s) :=
  spriteColumns_kept i hy _ _ _ _ 8 s

theorem evaluateFrom_kept {y : Nat} (hy : y < 240) (h : Nat) (l : List (Fin 64)) (n : Nat) (s : State) :
    EventKept s (evaluateFrom y h l n s) := by
  induction l generalizing n s with
  | nil => exact .refl s
  | cons i l ih =>
    unfold evaluateFrom
    split
    · exact ih n s
    split
    · exact .status s (statusLow_putBit (by omega) (by omega))
    · exact (compositeSprite_kept i hy h s).trans (ih (n + 1) _)

/-- The columns of a sprite write the composition buffer and, of the status, sprite-0 hit alone (R274, R275). -/
theorem spriteColumns_writes (i : Fin 64) (y : Nat) (lo hi attr x0 : Byte) (n : Nat) (s : State) : ∃ st c,
    spriteColumns i y lo hi attr x0 n s = { s with ppu := { s.ppu with status := st, comp := c } } ∧
    ∀ k, k ≠ 6 → st.getLsbD k = s.ppu.status.getLsbD k := by
  have hit : ∀ (q : Prop) [Decidable q] (p : Byte) {k : Nat}, k ≠ 6 →
      (if q then putBit 6 true p else p).getLsbD k = p.getLsbD k := fun q _ p k hk => by
    split
    · by_cases h8 : k < 8
      · rw [getLsbD_putBit _ _ (by omega) h8, if_neg hk]
      · rw [BitVec.getLsbD_of_ge _ _ (by omega), BitVec.getLsbD_of_ge _ _ (by omega)]
    · rfl
  induction n with
  | zero => exact ⟨_, _, rfl, fun _ _ => rfl⟩
  | succ n ih =>
    obtain ⟨st, c, e, hst⟩ := ih
    rw [spriteColumns, e, spritePixel_eq i y lo hi attr x0 n _ rfl rfl Iff.rfl]
    exact ⟨_, _, rfl, fun k hk => (hit _ _ hk).trans (hst k hk)⟩

/-- Compositing a sprite writes the composition buffer and the status alone (R274). -/
theorem compositeSprite_eq (i : Fin 64) (y h : Nat) (s : State) : compositeSprite i y h s = { s with ppu := { s.ppu with
    status := (compositeSprite i y h s).ppu.status, comp := (compositeSprite i y h s).ppu.comp } } := by
  unfold compositeSprite
  obtain ⟨st, c, e, -⟩ := spriteColumns_writes i y _ _ _ _ 8 s
  rw [e]

/-- Compositing a sprite writes no status bit but sprite-0 hit (R274, R275). -/
theorem compositeSprite_status (i : Fin 64) (y h : Nat) (s : State) {k : Nat} (hk : k ≠ 6) :
    (compositeSprite i y h s).ppu.status.getLsbD k = s.ppu.status.getLsbD k := by
  unfold compositeSprite
  obtain ⟨st, c, e, hst⟩ := spriteColumns_writes i y _ _ _ _ 8 s
  rw [e]
  exact hst k hk

/-- What sprite evaluation does (R270, R272): the in-range sprites among `l` are composited in order, under the limit as
many as make eight with the `count` already selected, and overflow is set when the limit leaves one out. -/
theorem evaluateFrom_eq (y h : Nat) (l : List (Fin 64)) {count : Nat} (s : State)
    (hc : s.params.spriteLimitEnabled = true → count ≤ 8) {covering : List (Fin 64)}
    (hl : covering = l.filter fun i => inRange i y h s) {t : State}
    (ht : t = (if s.params.spriteLimitEnabled = true then covering.take (8 - count) else covering).foldl
      (fun u i => compositeSprite i y h u) s) :
    evaluateFrom y h l count s = if s.params.spriteLimitEnabled = true ∧ 9 ≤ count + covering.length
      then { t with ppu := { t.ppu with status := putBit 5 true t.ppu.status } } else t := by
  induction l generalizing count s covering t with
  | nil =>
    subst hl ht
    rw [if_neg (by rintro ⟨h1, h2⟩; have := hc h1; simp at h2; omega)]
    simp [evaluateFrom]
  | cons i l ih =>
    unfold evaluateFrom
    by_cases hi : inRange i y h s = false
    · rw [if_pos hi]
      exact ih s hc (by rw [hl, List.filter_cons_of_neg (by simp [hi])]) ht
    rw [List.filter_cons_of_pos (by simpa using hi)] at hl
    rw [if_neg hi]
    by_cases hlim : s.params.spriteLimitEnabled = true ∧ count = 8
    · rw [if_pos hlim, if_pos ⟨hlim.1, by rw [hl]; simp; omega⟩, ht]
      simp [hlim]
    have he := compositeSprite_eq i y h s
    have hp : (compositeSprite i y h s).params = s.params := by rw [he]
    have hr : (fun j => inRange j y h (compositeSprite i y h s)) = fun j => inRange j y h s := by rw [he]; rfl
    have hlen : count + covering.length = count + 1 + (l.filter fun j => inRange j y h s).length := by
      rw [hl, List.length_cons]; omega
    rw [if_neg hlim, hlen, ← hp]
    refine ih (compositeSprite i y h s) (fun hb => ?_) (by rw [hr]) ?_
    · rw [hp] at hb
      have := hc hb
      have : count ≠ 8 := fun e => hlim ⟨hb, e⟩
      omega
    · rw [ht, hl, hp]
      split
      · rename_i hb
        have := hc hb
        have : count ≠ 8 := fun e => hlim ⟨hb, e⟩
        rw [show 8 - count = 8 - (count + 1) + 1 by omega]
        rfl
      · rfl

theorem renderRow_kept {y : Nat} (hy : y < 240) (s : State) : EventKept s (renderRow y s) := by
  have hb : EventKept s (if s.ppu.showBg then renderBackgroundRow y s else s) := by
    split
    · exact renderBackgroundRow_kept hy s
    · exact .refl s
  unfold renderRow
  simp only
  generalize (if s.ppu.showBg = true then renderBackgroundRow y s else s) = s' at hb ⊢
  split
  · exact hb.trans (evaluateFrom_kept hy _ _ _ _)
  · exact hb

theorem visibleEvents_kept {y : Nat} (hy : y < 240) (s : State) : EventKept s (visibleEvents y s) := by
  have hr : EventKept s (if s.ppu.cycle = s.params.renderCycle then renderRow y s else s) := by
    split
    · exact renderRow_kept hy s
    · exact .refl s
  unfold visibleEvents
  simp only
  generalize (if s.ppu.cycle = s.params.renderCycle then renderRow y s else s) = s' at hr ⊢
  split
  · exact hr.trans (.scroll _ _)
  · exact hr

/-- The row event writes the composition buffer and the status alone (R263). -/
theorem renderRow_eq (y : Nat) (s : State) : renderRow y s = { s with ppu := { s.ppu with
    status := (renderRow y s).ppu.status, comp := (renderRow y s).ppu.comp } } := by
  have sprites : ∀ (h : Nat) (l : List (Fin 64)) (n : Nat) (u : State), evaluateFrom y h l n u = { u with ppu := { u.ppu with
      status := (evaluateFrom y h l n u).ppu.status, comp := (evaluateFrom y h l n u).ppu.comp } } := fun h l => by
    induction l with
    | nil => exact fun _ _ => rfl
    | cons i l ih =>
      intro n u
      unfold evaluateFrom
      split
      · exact ih n u
      split
      · rfl
      · rw [ih, compositeSprite_eq]
  unfold renderRow evaluateSprites
  simp only
  split <;> split
  · rw [sprites, renderBackgroundRow]
  · rfl
  · exact sprites _ _ _ _
  · rfl

/-- On a visible scanline the events of a tick are those of the scanline (R262). -/
theorem ppuEvents_visible {s : State} {y : Nat} (hy : y < 240) (h : s.ppu.scanline = y) :
    ppuEvents s = visibleEvents y s := by
  unfold ppuEvents
  rw [if_pos (by omega), h]
  rfl

/-! ### The drain -/

theorem cropIndex_some {p q : Nat} (h : cropIndex p = some q) : q < 53760 := by
  unfold cropIndex at h
  split at h
  · simp only [Option.some.injEq] at h
    omega
  · simp at h

theorem cropIndex_strictMono {p p' q q' : Nat} (hp : p < p') (h : cropIndex p = some q) (h' : cropIndex p' = some q') :
    q < q' := by
  unfold cropIndex at h h'
  split at h
  · split at h'
    · simp only [Option.some.injEq] at h h'
      omega
    · simp at h'
  · simp at h

/-- The output buffer of a drain is in canonical form. -/
theorem wf_drainedOut (crop : Bool) {comp : Sparse Pixel} (h : Memory.wf Pixel.clear 61440 comp) :
    Memory.wf 0 61440 (drainedOut crop comp) := by
  constructor
  · unfold drainedOut
    refine List.Pairwise.filterMap _ (fun a a' haa' b hb b' hb' => ?_) h.1
    split at hb; · simp at hb
    split at hb'; · simp at hb'
    cases crop
    · simp only [Bool.false_eq_true, if_false, Option.some.injEq] at hb hb'
      rw [← hb, ← hb']
      exact haa'
    · simp only [if_true, Option.map_eq_some_iff] at hb hb'
      obtain ⟨q, hq, rfl⟩ := hb
      obtain ⟨q', hq', rfl⟩ := hb'
      exact cropIndex_strictMono haa' hq hq'
  · intro c hc
    unfold drainedOut at hc
    obtain ⟨a, ha, hb⟩ := List.mem_filterMap.1 hc
    split at hb; · simp at hb
    have hlt := (h.2 a ha).1
    cases crop
    · simp only [Bool.false_eq_true, if_false, Option.some.injEq] at hb
      rw [← hb]
      exact ⟨hlt, ‹_›⟩
    · simp only [if_true, Option.map_eq_some_iff] at hb
      obtain ⟨q, hq, rfl⟩ := hb
      exact ⟨(cropIndex_some hq).trans (by omega), ‹_›⟩

theorem startVblank_kept (s : State) : EventKept s (startVblank s) := by
  have hs : ∀ st : Byte, ∀ l : Line, (s.ppu.status &&& 0x1F = 0 → st &&& 0x1F = 0) → EventKept s
      { s with ppu := { s.ppu with status := st, suppressVbl := false }, line := l } := fun st l h =>
    .ofPpu s st s.ppu.v false s.ppu.comp s.ppu.out l h (·.comp) (·.out)
  have h7 : s.ppu.status &&& 0x1F = 0 → putBit 7 true s.ppu.status &&& 0x1F = 0 :=
    statusLow_putBit (by omega) (by omega)
  unfold startVblank
  simp only
  split
  · exact hs s.ppu.status s.line id
  · split
    · unfold requestInterrupt
      split
      · exact hs _ .nmi h7
      · exact hs _ s.line h7
    · exact hs _ s.line h7

theorem drain_kept (s : State) : EventKept s (drain s) :=
  .ofPpu s s.ppu.status s.ppu.v s.ppu.suppressVbl [] _ s.line id (fun _ => Memory.wf_nil) fun h => wf_drainedOut _ h.comp

/-- What the events of a tick leave. -/
theorem ppuEvents_kept (s : State) : EventKept s (ppuEvents s) := by
  unfold ppuEvents
  split
  · exact visibleEvents_kept (by omega) s
  split
  · exact (startVblank_kept s).trans (drain_kept _)
  split
  · exact .status s (statusLow_putBit (by omega) (by omega))
  split
  · exact .status s fun h => statusLow_putBit (by omega) (by omega) (statusLow_putBit (by omega) (by omega) h)
  split
  · unfold reloadScroll
    split
    · exact .scroll s _
    · exact .refl s
  · exact .refl s

/-! ### The tick -/

/-- The position moves to a legal position. -/
theorem advance_positionOk {s : State} (h : PositionOk s) : PositionOk { s with ppu := s.ppu.advance } := by
  obtain ⟨h1, h2, h3⟩ := h
  unfold Ppu.advance Config.cyclesPerScanline
  split
  · split
    · exact ⟨by simp, by simp, by simp⟩
    · exact ⟨by simp; omega, by simp; omega, by simp⟩
  · exact ⟨h1, h2, by simp; omega⟩

/-- The position and the frame counter grow by one tick. -/
theorem advance_tickNumber (s : State) : tickNumber { s with ppu := s.ppu.advance } = tickNumber s + 1 := by
  unfold tickNumber framePosition Ppu.advance Config.cyclesPerScanline
  split
  · split
    · rename_i hc hs
      have : (s.ppu.cycle : Int) = 340 := by omega
      simp only [hs, this]
      push_cast
      ring
    · rename_i hc hs
      have : (s.ppu.cycle : Int) = 340 := by omega
      simp only [this]
      push_cast
      ring
  · simp only
    push_cast
    ring

/-- What ticks leave: everything an event leaves but the position. -/
structure TicksKept (s t : State) : Prop where
  cpu : t.cpu = s.cpu
  nt0 : t.nt0 = s.nt0
  nt1 : t.nt1 = s.nt1
  mirroring : t.mirroring = s.mirroring
  ram : t.ram = s.ram
  prgRam : t.prgRam = s.prgRam
  chr : t.chr = s.chr
  cart : t.cart = s.cart
  params : t.params = s.params
  stall : t.stall = s.stall
  cpuCycles : t.cpuCycles = s.cpuCycles
  fault : t.fault = s.fault
  cost : t.cost = s.cost
  draws : t.draws = s.draws
  handed : t.handed = s.handed
  oam : t.ppu.oam = s.ppu.oam
  palette : t.ppu.palette = s.ppu.palette
  memories : MemoriesOk s → MemoriesOk t
  statusLow : s.ppu.status &&& 0x1F = 0 → t.ppu.status &&& 0x1F = 0
  position : PositionOk s → PositionOk t

theorem TicksKept.refl (s : State) : TicksKept s s :=
  ⟨rfl, rfl, rfl, rfl, rfl, rfl, rfl, rfl, rfl, rfl, rfl, rfl, rfl, rfl, rfl, rfl, rfl, id, id, id⟩

theorem TicksKept.trans {s t u : State} (h : TicksKept s t) (k : TicksKept t u) : TicksKept s u :=
  ⟨k.1.trans h.1, k.2.trans h.2, k.3.trans h.3, k.4.trans h.4, k.5.trans h.5, k.6.trans h.6, k.7.trans h.7,
    k.8.trans h.8, k.9.trans h.9, k.10.trans h.10, k.11.trans h.11, k.12.trans h.12, k.13.trans h.13, k.14.trans h.14,
    k.15.trans h.15, k.16.trans h.16, k.17.trans h.17, k.18 ∘ h.18, k.19 ∘ h.19, k.20 ∘ h.20⟩

theorem advance_comp (r : Ppu) : r.advance.comp = r.comp ∧ r.advance.out = r.out ∧ r.advance.oam = r.oam ∧
    r.advance.palette = r.palette ∧ r.advance.status = r.status := by
  unfold Ppu.advance
  split
  · split <;> exact ⟨rfl, rfl, rfl, rfl, rfl⟩
  · exact ⟨rfl, rfl, rfl, rfl, rfl⟩

/-- The advance writes the position and the frame counter alone. -/
theorem advance_eq (r : Ppu) :
    r.advance = { r with cycle := r.advance.cycle, scanline := r.advance.scanline, frame := r.advance.frame } := by
  unfold Ppu.advance
  split
  · split <;> rfl
  · rfl

/-- A tick is its events and the advance of the position. -/
theorem ppuTick_eq (s : State) : ppuTick s = { ppuEvents s with ppu := { (ppuEvents s).ppu with
    cycle := (ppuTick s).ppu.cycle, scanline := (ppuTick s).ppu.scanline, frame := (ppuTick s).ppu.frame } } :=
  congrArg (fun r => { ppuEvents s with ppu := r }) (advance_eq (ppuEvents s).ppu)

theorem ppuTick_kept (s : State) : TicksKept s (ppuTick s) := by
  have h := ppuEvents_kept s
  obtain ⟨hc, ho, ha, hp, hs⟩ := advance_comp (ppuEvents s).ppu
  refine ⟨h.cpu, h.nt0, h.nt1, h.mirroring, h.ram, h.prgRam, h.chr, h.cart, h.params, h.stall, h.cpuCycles, h.fault,
    h.cost, h.draws, h.handed, ha.trans h.oam, hp.trans h.palette, fun k => ?_, fun k => ?_, fun k => ?_⟩
  · exact (h.memories k).of_eq rfl rfl rfl rfl rfl ha hp hc ho
  · show (ppuEvents s).ppu.advance.status &&& 0x1F = 0
    rw [hs]
    exact h.statusLow k
  · refine advance_positionOk (s := ppuEvents s) ⟨?_, ?_, ?_⟩
    · rw [h.scanline]; exact k.low
    · rw [h.scanline]; exact k.high
    · rw [h.cycle]; exact k.cycle

theorem ppuTick_tickNumber (s : State) : tickNumber (ppuTick s) = tickNumber s + 1 := by
  have h := ppuEvents_kept s
  have := advance_tickNumber (ppuEvents s)
  rw [show ppuTick s = { ppuEvents s with ppu := (ppuEvents s).ppu.advance } from rfl, this]
  unfold tickNumber framePosition
  rw [h.scanline, h.cycle, h.frame]

/-- What any number of ticks leaves. -/
theorem ppuTicks_kept (k : Nat) (s : State) : TicksKept s (ppuTicks k s) := by
  induction k generalizing s with
  | zero => exact .refl s
  | succ k ih => exact (ppuTick_kept s).trans (ih _)

/-- `k` ticks move the position by `k`. -/
theorem ppuTicks_tickNumber (k : Nat) (s : State) : tickNumber (ppuTicks k s) = tickNumber s + k := by
  induction k generalizing s with
  | zero => simp [ppuTicks]
  | succ k ih =>
    rw [ppuTicks, ih, ppuTick_tickNumber]
    push_cast
    ring

end Sys2Proof.Machine
end

