-- ==== Sys2Proof/Laws/Step.lean ====
section
/-! SUPPORT. The synchronizer: fetching, spending cycles, the dispatch check and one step, each said once. -/

namespace Sys2Proof.Machine

/-! ### Fetching -/

theorem fetch8_kept (s : State) : InstrKept s (fetch8 s).2 ∧ (fetch8 s).2.cost = s.cost :=
  ⟨(memRead_kept _ s).toBusKept.instr.setPC _, (memRead_kept _ s).cost⟩

theorem fetchBytes_kept (k : Nat) (s : State) : InstrKept s (fetchBytes k s).2 ∧ (fetchBytes k s).2.cost = s.cost := by
  induction k generalizing s with
  | zero => exact ⟨.refl s, rfl⟩
  | succ k ih =>
    obtain ⟨h1, h2⟩ := fetch8_kept s
    obtain ⟨k1, k2⟩ := ih (fetch8 s).2
    exact ⟨h1.trans k1, k2.trans h2⟩

/-- Fetching reads the bus and moves `PC`. -/
theorem fetch_kept (s : State) : InstrKept s (fetch s).2 ∧ (fetch s).2.cost = s.cost := by
  have h := memRead_kept s.cpu.pc s
  have hpc : InstrKept s ((memRead s.cpu.pc s).2.setPC ((memRead s.cpu.pc s).2.cpu.pc + 1)) := h.toBusKept.instr.setPC _
  unfold fetch
  simp only
  split
  · exact ⟨h.toBusKept.instr, h.cost⟩
  · rename_i row _
    obtain ⟨k1, k2⟩ := fetchBytes_kept (row.format.length - 1)
      ((memRead s.cpu.pc s).2.setPC ((memRead s.cpu.pc s).2.cpu.pc + 1))
    split
    · exact ⟨hpc.trans k1, k2.trans h.cost⟩
    · exact ⟨h.toBusKept.instr, h.cost⟩

/-- A format reads exactly the bytes its length says. -/
theorem Format.read_nil {f : Format} {bs : List Byte} {i : Instr} (h : f.read bs = .ok (i, [])) :
    bs.length = f.length - 1 := by
  cases f <;> cases bs with
  | nil => simp_all [Format.read, Format.length]
  | cons b bs => cases bs <;> simp_all [Format.read, Format.length]

/-- Fetching reads the bytes of the instruction one after another. -/
theorem fetch_of_fetchBytes {s : State} {n : Nat} {i : Instr} (h : decode (fetchBytes n s).1 = .ok (i, [])) :
    fetch s = (.ok i, (fetchBytes n s).2) := by
  cases n with
  | zero => simp [fetchBytes, decode] at h
  | succ n =>
    have hlen : ∀ (k : Nat) (t : State), (fetchBytes k t).1.length = k := fun k => by
      induction k with
      | zero => intro t; rfl
      | succ k ih => intro t; simp [fetchBytes, ih]
    have h8 : fetch8 s = ((memRead s.cpu.pc s).1, (memRead s.cpu.pc s).2.setPC ((memRead s.cpu.pc s).2.cpu.pc + 1)) := rfl
    simp only [fetchBytes, h8, decode] at h
    split at h
    · simp at h
    · rename_i row hrow
      have hn := Format.read_nil h
      rw [hlen] at hn
      simp only [fetch, hrow, ← hn, h, fetchBytes, h8]

/-- Fetching from storage gives the bytes there and has no side effect. -/
theorem fetchBytes_of_storage {n : Nat} {s : State} (h : ∀ k < n, storageCell (s.cpu.pc + BitVec.ofNat 16 k) s ≠ none) :
    fetchBytes n s =
      ((List.range n).map fun k => peek (s.cpu.pc + BitVec.ofNat 16 k) s, s.setPC (s.cpu.pc + BitVec.ofNat 16 n)) := by
  induction n generalizing s with
  | zero => simp [fetchBytes, State.setPC]
  | succ n ih =>
    have h0 := h 0 (by omega)
    simp only [BitVec.add_zero] at h0
    have hadd : ∀ k, s.cpu.pc + 1 + BitVec.ofNat 16 k = s.cpu.pc + BitVec.ofNat 16 (k + 1) := fun k => by
      rw [BitVec.add_assoc]
      congr 1
      apply BitVec.eq_of_toNat_eq
      simp [BitVec.toNat_add, BitVec.toNat_ofNat]
      omega
    have hr : fetch8 s = (peek s.cpu.pc s, s.setPC (s.cpu.pc + 1)) := by
      simp only [fetch8, memRead_of_storageCell h0]
    have hs : ∀ a, storageCell a (s.setPC (s.cpu.pc + 1)) = storageCell a s := fun a => storageCell_congr rfl a
    have hp : ∀ a, peek a (s.setPC (s.cpu.pc + 1)) = peek a s := fun a => peek_congr rfl rfl rfl a
    have := ih (s := s.setPC (s.cpu.pc + 1)) fun k hk => by
      rw [State.setPC_pc, hadd, hs]
      exact h (k + 1) (by omega)
    simp only [fetchBytes, hr, this, State.setPC_pc, hadd, hp]
    rw [List.range_succ_eq_map, List.map_cons, List.map_map]
    simp [State.setPC, Function.comp_def]

/-! ### After the instruction -/

/-- Spending the cycles of an instruction: the ticks, `stall` and `cost` emptied, `cpuCycles` grown (R331, R333). -/
theorem spendCycles_kept (s : State) : TicksKept { s with cost := 0, stall := 0, cpuCycles := s.cpuCycles + (s.cost + s.stall) }
    (spendCycles s) := ppuTicks_kept _ _

theorem spendCycles_tickNumber (s : State) :
    tickNumber (spendCycles s) = tickNumber s + 3 * ((s.cost + s.stall : Nat) : Int) := by
  unfold spendCycles
  simp only [Config.ticksPerCycle]
  rw [ppuTicks_tickNumber]
  simp [tickNumber, framePosition]

/-- What the dispatch check leaves. -/
structure DispatchKept (s t : State) : Prop where
  ppu : t.ppu = s.ppu
  cpuCycles : t.cpuCycles = s.cpuCycles
  cost : t.cost = s.cost
  fault : t.fault = s.fault
  cart : t.cart = s.cart
  params : t.params = s.params
  mirroring : t.mirroring = s.mirroring
  memories : MemoriesOk s → MemoriesOk t
  unused : getFlag .u s.cpu.p = true → getFlag .u t.cpu.p = true

theorem DispatchKept.refl (s : State) : DispatchKept s s := ⟨rfl, rfl, rfl, rfl, rfl, rfl, rfl, id, id⟩

theorem enterHandler_dispatchKept (ret : Word) (status : Byte) (setI : Bool) {vector : Word} (h : 0x8000 ≤ vector.toNat)
    (h' : vector.toNat < 0xFFFF) (s : State) (line : Line) (stall : Nat) :
    DispatchKept s { enterHandler ret status setI vector s with line := line, stall := stall } := by
  have hm := (enterHandler_kept ret status setI vector s).memories
  have hu := (enterHandler_kept ret status setI vector s).unused
  rw [enterHandler_eq ret status setI h h'] at hm hu ⊢
  exact ⟨rfl, rfl, rfl, rfl, rfl, rfl, rfl, fun k => (hm k).of_eq rfl rfl rfl rfl rfl rfl rfl rfl rfl, hu⟩

theorem dispatchCheck_kept (s : State) : DispatchKept s (dispatchCheck s) := by
  unfold dispatchCheck
  split
  · exact .refl s
  · rw [cpuReset_eq]
    exact ⟨rfl, rfl, rfl, rfl, rfl, rfl, rfl, fun k => k.of_eq rfl rfl rfl rfl rfl rfl rfl rfl rfl, fun _ => show getFlag .u 0x22 = true from by decide⟩
  · exact enterHandler_dispatchKept _ _ _ (by decide) (by decide) s _ _
  · by_cases hi : s.flag .i
    · simp only [hi, if_true]
      exact .refl s
    · simp only [hi, enterIrq]
      exact enterHandler_dispatchKept _ _ _ (by decide) (by decide) s _ _

/-! ### One step -/

/-- The one way a step answers a next state: an undefined opcode latches, or the fetched instruction runs. -/
theorem step_next {s t : State} (h : step s = .next t) : s.fault = none ∧
    ((∃ op, (fetch s).1 = .error op ∧ t = latchFault s.cpu.pc op (fetch s).2) ∨
      ∃ i u, (fetch s).1 = .ok i ∧ exec i (fetch s).2 = .next u ∧ t = afterInstruction u) := by
  unfold step at h
  split at h
  · cases h
  · rename_i hf
    refine ⟨hf, ?_⟩
    simp only at h
    split at h
    · rename_i op hop
      cases h
      exact .inl ⟨op, hop, rfl⟩
    · rename_i i hi
      split at h
      · rename_i u hu
        cases h
        exact .inr ⟨i, u, hi, hu, rfl⟩
      · cases h
      · cases h

end Sys2Proof.Machine
end

