-- ==== Sys2Proof/Tests/Slice0.lean ====
section
/-! SUPPORT. Tests of the model against words and results the spec writes out, ill-formed terms that the checks refuse,
and for every statement with hypotheses a concrete input that meets them all. -/

open Sys2Proof Sys2Proof.Machine

/-! ### Well-formedness -/

/-- R311: an identifier with no registry entry. -/
theorem test_wellFormed_mapper : (!({ Cartridge.blank with mapperId := 1 } : Cartridge).wellFormed) = true := by decide

/-- R311: three PRG banks. -/
theorem test_wellFormed_prgBanks : (!({ Cartridge.blank with prgBanks := 3 } : Cartridge).wellFormed) = true := by decide

/-- R311: no PRG bank. -/
theorem test_wellFormed_noPrg : (!({ Cartridge.blank with prgBanks := 0 } : Cartridge).wellFormed) = true := by decide

/-- R311: two CHR banks. -/
theorem test_wellFormed_chrBanks : (!({ Cartridge.blank with chrBanks := 2 } : Cartridge).wellFormed) = true := by decide

/-- R305: the four-screen flag. -/
theorem test_wellFormed_fourScreen : (!({ Cartridge.blank with fourScreen := true } : Cartridge).wellFormed) = true := by
  decide

theorem test_wellFormed_blank : Cartridge.blank.wellFormed = true := by decide

/-- R121: every operand byte is legal. -/
theorem test_wellFormed_instr : (Instr.brk.wellFormed && (Instr.ldaImm 0xFF).wellFormed && (Instr.jmpInd 0xFFFF).wellFormed) = true := by
  decide

/-- R380: `PowerOn` of the blank cartridge is the state after reset. -/
theorem test_powerOn_blank : powerOn Params.standard Cartridge.blank LaunchMemory.blank = .ok State.reset := by rfl

/-! ### Decoding: the words are written from the table of R118 and the layouts of R119 -/

/-- Each word decodes to its instruction, with nothing left over. -/
abbrev decodesTo (words : List (List Byte)) (is : List Instr) : Prop :=
  words.length = is.length ∧ ((words.zip is).all fun p =>
    match decode p.1 with
    | .ok (i, []) => decide (i = p.2)
    | _ => false) = true

theorem test_decode_loadstore_1 : decodesTo
    [[0xA9, 0xC5], [0xA5, 0xC5], [0xB5, 0xC5], [0xAD, 0x34, 0x12], [0xBD, 0x34, 0x12], [0xB9, 0x34, 0x12],
      [0xA1, 0xC5], [0xB1, 0xC5], [0xA2, 0xC5], [0xA6, 0xC5], [0xB6, 0xC5], [0xAE, 0x34, 0x12], [0xBE, 0x34, 0x12],
      [0xA0, 0xC5]]
    [.ldaImm 0xC5, .ldaZp 0xC5, .ldaZpx 0xC5, .ldaAbs 0x1234, .ldaAbx 0x1234, .ldaAby 0x1234, .ldaIzx 0xC5,
      .ldaIzy 0xC5, .ldxImm 0xC5, .ldxZp 0xC5, .ldxZpy 0xC5, .ldxAbs 0x1234, .ldxAby 0x1234, .ldyImm 0xC5] := by decide

theorem test_decode_loadstore_2 : decodesTo
    [[0xA4, 0xC5], [0xB4, 0xC5], [0xAC, 0x34, 0x12], [0xBC, 0x34, 0x12], [0x85, 0xC5], [0x95, 0xC5],
      [0x8D, 0x34, 0x12], [0x9D, 0x34, 0x12], [0x99, 0x34, 0x12], [0x81, 0xC5], [0x91, 0xC5], [0x86, 0xC5],
      [0x96, 0xC5], [0x8E, 0x34, 0x12]]
    [.ldyZp 0xC5, .ldyZpx 0xC5, .ldyAbs 0x1234, .ldyAbx 0x1234, .staZp 0xC5, .staZpx 0xC5, .staAbs 0x1234,
      .staAbx 0x1234, .staAby 0x1234, .staIzx 0xC5, .staIzy 0xC5, .stxZp 0xC5, .stxZpy 0xC5, .stxAbs 0x1234] := by decide

theorem test_decode_loadstore_3 : decodesTo
    [[0x84, 0xC5], [0x94, 0xC5], [0x8C, 0x34, 0x12], [0xAA], [0xA8], [0x8A], [0x98], [0xBA], [0x9A]]
    [.styZp 0xC5, .styZpx 0xC5, .styAbs 0x1234, .tax, .tay, .txa, .tya, .tsx, .txs] := by decide

theorem test_decode_arith_1 : decodesTo
    [[0x69, 0xC5], [0x65, 0xC5], [0x75, 0xC5], [0x6D, 0x34, 0x12], [0x7D, 0x34, 0x12], [0x79, 0x34, 0x12],
      [0x61, 0xC5], [0x71, 0xC5], [0xE9, 0xC5], [0xE5, 0xC5], [0xF5, 0xC5], [0xED, 0x34, 0x12], [0xFD, 0x34, 0x12],
      [0xF9, 0x34, 0x12]]
    [.adcImm 0xC5, .adcZp 0xC5, .adcZpx 0xC5, .adcAbs 0x1234, .adcAbx 0x1234, .adcAby 0x1234, .adcIzx 0xC5,
      .adcIzy 0xC5, .sbcImm 0xC5, .sbcZp 0xC5, .sbcZpx 0xC5, .sbcAbs 0x1234, .sbcAbx 0x1234, .sbcAby 0x1234] := by decide

theorem test_decode_arith_2 : decodesTo
    [[0xE1, 0xC5], [0xF1, 0xC5], [0xC9, 0xC5], [0xC5, 0xC5], [0xD5, 0xC5], [0xCD, 0x34, 0x12], [0xDD, 0x34, 0x12],
      [0xD9, 0x34, 0x12], [0xC1, 0xC5], [0xD1, 0xC5], [0xE0, 0xC5], [0xE4, 0xC5], [0xEC, 0x34, 0x12], [0xC0, 0xC5]]
    [.sbcIzx 0xC5, .sbcIzy 0xC5, .cmpImm 0xC5, .cmpZp 0xC5, .cmpZpx 0xC5, .cmpAbs 0x1234, .cmpAbx 0x1234,
      .cmpAby 0x1234, .cmpIzx 0xC5, .cmpIzy 0xC5, .cpxImm 0xC5, .cpxZp 0xC5, .cpxAbs 0x1234, .cpyImm 0xC5] := by decide

theorem test_decode_arith_3 : decodesTo
    [[0xC4, 0xC5], [0xCC, 0x34, 0x12], [0xE6, 0xC5], [0xF6, 0xC5], [0xEE, 0x34, 0x12], [0xFE, 0x34, 0x12], [0xE8],
      [0xC8], [0xC6, 0xC5], [0xD6, 0xC5], [0xCE, 0x34, 0x12], [0xDE, 0x34, 0x12], [0xCA], [0x88]]
    [.cpyZp 0xC5, .cpyAbs 0x1234, .incZp 0xC5, .incZpx 0xC5, .incAbs 0x1234, .incAbx 0x1234, .inx, .iny,
      .decZp 0xC5, .decZpx 0xC5, .decAbs 0x1234, .decAbx 0x1234, .dex, .dey] := by decide

theorem test_decode_logic_1 : decodesTo
    [[0x29, 0xC5], [0x25, 0xC5], [0x35, 0xC5], [0x2D, 0x34, 0x12], [0x3D, 0x34, 0x12], [0x39, 0x34, 0x12],
      [0x21, 0xC5], [0x31, 0xC5], [0x09, 0xC5], [0x05, 0xC5], [0x15, 0xC5], [0x0D, 0x34, 0x12], [0x1D, 0x34, 0x12],
      [0x19, 0x34, 0x12]]
    [.andImm 0xC5, .andZp 0xC5, .andZpx 0xC5, .andAbs 0x1234, .andAbx 0x1234, .andAby 0x1234, .andIzx 0xC5,
      .andIzy 0xC5, .oraImm 0xC5, .oraZp 0xC5, .oraZpx 0xC5, .oraAbs 0x1234, .oraAbx 0x1234, .oraAby 0x1234] := by decide

theorem test_decode_logic_2 : decodesTo
    [[0x01, 0xC5], [0x11, 0xC5], [0x49, 0xC5], [0x45, 0xC5], [0x55, 0xC5], [0x4D, 0x34, 0x12], [0x5D, 0x34, 0x12],
      [0x59, 0x34, 0x12], [0x41, 0xC5], [0x51, 0xC5], [0x24, 0xC5], [0x2C, 0x34, 0x12], [0x0A], [0x06, 0xC5]]
    [.oraIzx 0xC5, .oraIzy 0xC5, .eorImm 0xC5, .eorZp 0xC5, .eorZpx 0xC5, .eorAbs 0x1234, .eorAbx 0x1234,
      .eorAby 0x1234, .eorIzx 0xC5, .eorIzy 0xC5, .bitZp 0xC5, .bitAbs 0x1234, .aslAcc, .aslZp 0xC5] := by decide

theorem test_decode_logic_3 : decodesTo
    [[0x16, 0xC5], [0x0E, 0x34, 0x12], [0x1E, 0x34, 0x12], [0x4A], [0x46, 0xC5], [0x56, 0xC5], [0x4E, 0x34, 0x12],
      [0x5E, 0x34, 0x12], [0x2A], [0x26, 0xC5], [0x36, 0xC5], [0x2E, 0x34, 0x12], [0x3E, 0x34, 0x12], [0x6A]]
    [.aslZpx 0xC5, .aslAbs 0x1234, .aslAbx 0x1234, .lsrAcc, .lsrZp 0xC5, .lsrZpx 0xC5, .lsrAbs 0x1234,
      .lsrAbx 0x1234, .rolAcc, .rolZp 0xC5, .rolZpx 0xC5, .rolAbs 0x1234, .rolAbx 0x1234, .rorAcc] := by decide

theorem test_decode_logic_4 : decodesTo
    [[0x66, 0xC5], [0x76, 0xC5], [0x6E, 0x34, 0x12], [0x7E, 0x34, 0x12]]
    [.rorZp 0xC5, .rorZpx 0xC5, .rorAbs 0x1234, .rorAbx 0x1234] := by decide

theorem test_decode_control_1 : decodesTo
    [[0x4C, 0x34, 0x12], [0x6C, 0x34, 0x12], [0x20, 0x34, 0x12], [0x60], [0x90, 0xC5], [0xB0, 0xC5], [0xF0, 0xC5],
      [0xD0, 0xC5], [0x30, 0xC5], [0x10, 0xC5], [0x50, 0xC5], [0x70, 0xC5]]
    [.jmpAbs 0x1234, .jmpInd 0x1234, .jsr 0x1234, .rts, .bcc 0xC5, .bcs 0xC5, .beq 0xC5, .bne 0xC5, .bmi 0xC5,
      .bpl 0xC5, .bvc 0xC5, .bvs 0xC5] := by decide

theorem test_decode_system_1 : decodesTo
    [[0x48], [0x68], [0x08], [0x28], [0x18], [0x38], [0x58], [0x78], [0xD8], [0xF8], [0xB8], [0xEA], [0x00], [0x40]]
    [.pha, .pla, .php, .plp, .clc, .sec, .cli, .sei, .cld, .sed, .clv, .nop, .brk, .rti] := by decide

/-- R120: some of the undefined opcodes, each rejected by name. -/
theorem test_decode_undefined : ([0x02#8, 0x1A, 0x80, 0xA7, 0xEB, 0xFF].all fun op =>
    match decode [op, 0, 0] with
    | .error (.undefinedOpcode b) => decide (b = op)
    | _ => false) = true := by decide

/-- An instruction cut short is rejected by name. -/
theorem test_decode_truncated : decode [0xAD, 0x34] = .error .truncated := by rfl

/-! ### Instructions: start and end states of the vectors of spec/95 -/

/-- A machine with the given registers and with bytes placed in its memory. -/
def started (params : Params) (c : Cpu) (mem : List (Word × List Byte)) : State :=
  mem.foldl (fun s p => placeAll p.1 p.2 s) { State.reset with cpu := c, params := params }

/-- The registers, the cycle count and the probed bytes after the instruction at `PC`. -/
def after (params : Params) (c : Cpu) (mem : List (Word × List Byte)) (probe : List Word) :
    Option (Cpu × Nat × List Byte) :=
  let r := fetch (started params c mem)
  match r.1 with
  | .ok i =>
    match exec i r.2 with
    | .next t => some (t.cpu, t.cost, probe.map fun a => peek a t)
    | _ => none
  | .error _ => none

/-- V104 of spec/95, `LDA $F0,X` (R130, R107). -/
theorem test_lda :
    after Params.standard ⟨0x00, 0x20, 0x00, 0xFD, 0x8000, 0x20⟩ [(0x8000, [0xB5, 0xF0]), (0x0010, [0x42])] [] =
    some (⟨0x42, 0x20, 0x00, 0xFD, 0x8002, 0x20⟩, 4, []) := by decide

/-- V105 of spec/95, `LDA $12FF,X` (R130, R117). -/
theorem test_lda_2 :
    after Params.standard ⟨0x00, 0x01, 0x00, 0xFD, 0x8000, 0x20⟩
      [(0x8000, [0xBD, 0xFF, 0x12]), (0x1300, [0x99])] [0x0300] =
    some (⟨0x99, 0x01, 0x00, 0xFD, 0x8003, 0xA0⟩, 5, [0x99]) := by decide

/-- V112 of spec/95, `LDX $10,Y` (R131, R108). -/
theorem test_ldx :
    after Params.standard ⟨0x00, 0x00, 0xF5, 0xFD, 0x8000, 0x20⟩ [(0x8000, [0xB6, 0x10]), (0x0005, [0x80])] [] =
    some (⟨0x00, 0x80, 0xF5, 0xFD, 0x8002, 0xA0⟩, 4, []) := by decide

/-- V115 of spec/95, `LDY $02FF,X` (R132). -/
theorem test_ldy :
    after Params.standard ⟨0x00, 0x02, 0x00, 0xFD, 0x8000, 0x20⟩ [(0x8000, [0xBC, 0xFF, 0x02]), (0x0301, [0xFF])] [] =
    some (⟨0x00, 0x02, 0xFF, 0xFD, 0x8003, 0xA0⟩, 5, []) := by decide

/-- V117 of spec/95, `STA $02FF,X` (R133). -/
theorem test_sta :
    after Params.standard ⟨0xCD, 0x01, 0x00, 0xFD, 0x8000, 0x20⟩ [(0x8000, [0x9D, 0xFF, 0x02])] [0x0300] =
    some (⟨0xCD, 0x01, 0x00, 0xFD, 0x8003, 0x20⟩, 5, [0xCD]) := by decide

/-- V123 of spec/95, `STX $10,Y` (R134). -/
theorem test_stx : after Params.standard ⟨0x00, 0x3C, 0xFF, 0xFD, 0x8000, 0x20⟩ [(0x8000, [0x96, 0x10])] [0x000F] =
    some (⟨0x00, 0x3C, 0xFF, 0xFD, 0x8002, 0x20⟩, 4, [0x3C]) := by decide

/-- V124 of spec/95, `STY $10,X` (R135). -/
theorem test_sty : after Params.standard ⟨0x00, 0x01, 0x3D, 0xFD, 0x8000, 0x20⟩ [(0x8000, [0x94, 0x10])] [0x0011] =
    some (⟨0x00, 0x01, 0x3D, 0xFD, 0x8002, 0x20⟩, 4, [0x3D]) := by decide

/-- V127 of spec/95, `TAX` (R136). -/
theorem test_tax : after Params.standard ⟨0x00, 0x55, 0x00, 0xFD, 0x8000, 0x20⟩ [(0x8000, [0xAA])] [] =
    some (⟨0x00, 0x00, 0x00, 0xFD, 0x8001, 0x22⟩, 2, []) := by decide

/-- V128 of spec/95, `TAY` (R137). -/
theorem test_tay : after Params.standard ⟨0x80, 0x00, 0x00, 0xFD, 0x8000, 0x20⟩ [(0x8000, [0xA8])] [] =
    some (⟨0x80, 0x00, 0x80, 0xFD, 0x8001, 0xA0⟩, 2, []) := by decide

/-- V129 of spec/95, `TXA` (R138). -/
theorem test_txa : after Params.standard ⟨0x00, 0x7F, 0x00, 0xFD, 0x8000, 0xA0⟩ [(0x8000, [0x8A])] [] =
    some (⟨0x7F, 0x7F, 0x00, 0xFD, 0x8001, 0x20⟩, 2, []) := by decide

/-- V130 of spec/95, `TYA` (R139). -/
theorem test_tya : after Params.standard ⟨0x44, 0x00, 0x00, 0xFD, 0x8000, 0x20⟩ [(0x8000, [0x98])] [] =
    some (⟨0x00, 0x00, 0x00, 0xFD, 0x8001, 0x22⟩, 2, []) := by decide

/-- V131 of spec/95, `TSX` (R140). -/
theorem test_tsx : after Params.standard ⟨0x00, 0x00, 0x00, 0xFD, 0x8000, 0x20⟩ [(0x8000, [0xBA])] [] =
    some (⟨0x00, 0xFD, 0x00, 0xFD, 0x8001, 0xA0⟩, 2, []) := by decide

/-- V132 of spec/95, `TXS` (R141). -/
theorem test_txs : after Params.standard ⟨0x00, 0x00, 0x00, 0xFD, 0x8000, 0x20⟩ [(0x8000, [0x9A])] [] =
    some (⟨0x00, 0x00, 0x00, 0x00, 0x8001, 0x20⟩, 2, []) := by decide

/-- V135 of spec/95, `ADC #$01` (R150). -/
theorem test_adc : after Params.standard ⟨0x7F, 0x00, 0x00, 0xFD, 0x8000, 0x20⟩ [(0x8000, [0x69, 0x01])] [] =
    some (⟨0x80, 0x00, 0x00, 0xFD, 0x8002, 0xE0⟩, 2, []) := by decide

/-- V138 of spec/95, `ADC #$80` (R150). -/
theorem test_adc_2 : after Params.standard ⟨0x80, 0x00, 0x00, 0xFD, 0x8000, 0x20⟩ [(0x8000, [0x69, 0x80])] [] =
    some (⟨0x00, 0x00, 0x00, 0xFD, 0x8002, 0x63⟩, 2, []) := by decide

/-- V146 of spec/95, `SBC #$01` (R151). -/
theorem test_sbc : after Params.standard ⟨0x05, 0x00, 0x00, 0xFD, 0x8000, 0x20⟩ [(0x8000, [0xE9, 0x01])] [] =
    some (⟨0x03, 0x00, 0x00, 0xFD, 0x8002, 0x21⟩, 2, []) := by decide

/-- V148 of spec/95, `SBC #$01` (R151). -/
theorem test_sbc_2 : after Params.standard ⟨0x80, 0x00, 0x00, 0xFD, 0x8000, 0x21⟩ [(0x8000, [0xE9, 0x01])] [] =
    some (⟨0x7F, 0x00, 0x00, 0xFD, 0x8002, 0x61⟩, 2, []) := by decide

/-- V153 of spec/95, `CMP #$20` (R152). -/
theorem test_cmp : after Params.standard ⟨0x10, 0x00, 0x00, 0xFD, 0x8000, 0x21⟩ [(0x8000, [0xC9, 0x20])] [] =
    some (⟨0x10, 0x00, 0x00, 0xFD, 0x8002, 0xA0⟩, 2, []) := by decide

/-- V154 of spec/95, `CMP #$7F` (R152). -/
theorem test_cmp_2 : after Params.standard ⟨0x80, 0x00, 0x00, 0xFD, 0x8000, 0x60⟩ [(0x8000, [0xC9, 0x7F])] [] =
    some (⟨0x80, 0x00, 0x00, 0xFD, 0x8002, 0x61⟩, 2, []) := by decide

/-- V157 of spec/95, `CPX #$05` (R153). -/
theorem test_cpx : after Params.standard ⟨0x00, 0x06, 0x00, 0xFD, 0x8000, 0x20⟩ [(0x8000, [0xE0, 0x05])] [] =
    some (⟨0x00, 0x06, 0x00, 0xFD, 0x8002, 0x21⟩, 2, []) := by decide

/-- V160 of spec/95, `CPY $0200` (R154). -/
theorem test_cpy :
    after Params.standard ⟨0x00, 0x00, 0x80, 0xFD, 0x8000, 0x20⟩ [(0x8000, [0xCC, 0x00, 0x02]), (0x0200, [0x7F])] [] =
    some (⟨0x00, 0x00, 0x80, 0xFD, 0x8003, 0x21⟩, 4, []) := by decide

/-- V161 of spec/95, `INC $10` (R155). -/
theorem test_inc :
    after Params.standard ⟨0x00, 0x00, 0x00, 0xFD, 0x8000, 0x21⟩ [(0x8000, [0xE6, 0x10]), (0x0010, [0xFF])] [0x0010] =
    some (⟨0x00, 0x00, 0x00, 0xFD, 0x8002, 0x23⟩, 5, [0x00]) := by decide

/-- V164 of spec/95, `DEC $10` (R158). -/
theorem test_dec :
    after Params.standard ⟨0x00, 0x00, 0x00, 0xFD, 0x8000, 0x20⟩ [(0x8000, [0xC6, 0x10]), (0x0010, [0x00])] [0x0010] =
    some (⟨0x00, 0x00, 0x00, 0xFD, 0x8002, 0xA0⟩, 5, [0xFF]) := by decide

/-- V167 of spec/95, `INX` (R156). -/
theorem test_inx : after Params.standard ⟨0x00, 0xFF, 0x00, 0xFD, 0x8000, 0x20⟩ [(0x8000, [0xE8])] [] =
    some (⟨0x00, 0x00, 0x00, 0xFD, 0x8001, 0x22⟩, 2, []) := by decide

/-- V169 of spec/95, `INY` (R157). -/
theorem test_iny : after Params.standard ⟨0x00, 0x00, 0x00, 0xFD, 0x8000, 0x22⟩ [(0x8000, [0xC8])] [] =
    some (⟨0x00, 0x00, 0x01, 0xFD, 0x8001, 0x20⟩, 2, []) := by decide

/-- V170 of spec/95, `DEX` (R159). -/
theorem test_dex : after Params.standard ⟨0x00, 0x00, 0x00, 0xFD, 0x8000, 0x20⟩ [(0x8000, [0xCA])] [] =
    some (⟨0x00, 0xFF, 0x00, 0xFD, 0x8001, 0xA0⟩, 2, []) := by decide

/-- V172 of spec/95, `DEY` (R160). -/
theorem test_dey : after Params.standard ⟨0x00, 0x00, 0x80, 0xFD, 0x8000, 0x20⟩ [(0x8000, [0x88])] [] =
    some (⟨0x00, 0x00, 0x7F, 0xFD, 0x8001, 0x20⟩, 2, []) := by decide

/-- V174 of spec/95, `AND #$F0` (R170). -/
theorem test_and : after Params.standard ⟨0x9C, 0x00, 0x00, 0xFD, 0x8000, 0x20⟩ [(0x8000, [0x29, 0xF0])] [] =
    some (⟨0x90, 0x00, 0x00, 0xFD, 0x8002, 0xA0⟩, 2, []) := by decide

/-- V176 of spec/95, `ORA #$80` (R171). -/
theorem test_ora : after Params.standard ⟨0x01, 0x00, 0x00, 0xFD, 0x8000, 0x20⟩ [(0x8000, [0x09, 0x80])] [] =
    some (⟨0x81, 0x00, 0x00, 0xFD, 0x8002, 0xA0⟩, 2, []) := by decide

/-- V180 of spec/95, `EOR #$FF` (R172). -/
theorem test_eor : after Params.standard ⟨0x0F, 0x00, 0x00, 0xFD, 0x8000, 0x20⟩ [(0x8000, [0x49, 0xFF])] [] =
    some (⟨0xF0, 0x00, 0x00, 0xFD, 0x8002, 0xA0⟩, 2, []) := by decide

/-- V182 of spec/95, `BIT $10` (R173). -/
theorem test_bit :
    after Params.standard ⟨0x01, 0x00, 0x00, 0xFD, 0x8000, 0x20⟩ [(0x8000, [0x24, 0x10]), (0x0010, [0xC0])] [] =
    some (⟨0x01, 0x00, 0x00, 0xFD, 0x8002, 0xE2⟩, 3, []) := by decide

/-- V189 of spec/95, `ASL $0200,X` (R174). -/
theorem test_asl :
    after Params.standard ⟨0x00, 0x01, 0x00, 0xFD, 0x8000, 0x20⟩
      [(0x8000, [0x1E, 0x00, 0x02]), (0x0201, [0x01])] [0x0201] =
    some (⟨0x00, 0x01, 0x00, 0xFD, 0x8003, 0x20⟩, 7, [0x02]) := by decide

/-- V187 of spec/95, `ASL A` (R174). -/
theorem test_asl_2 : after Params.standard ⟨0x41, 0x00, 0x00, 0xFD, 0x8000, 0x21⟩ [(0x8000, [0x0A])] [] =
    some (⟨0x82, 0x00, 0x00, 0xFD, 0x8001, 0xA0⟩, 2, []) := by decide

/-- V190 of spec/95, `LSR A` (R175). -/
theorem test_lsr : after Params.standard ⟨0x01, 0x00, 0x00, 0xFD, 0x8000, 0xA0⟩ [(0x8000, [0x4A])] [] =
    some (⟨0x00, 0x00, 0x00, 0xFD, 0x8001, 0x23⟩, 2, []) := by decide

/-- V192 of spec/95, `LSR $10,X` (R175). -/
theorem test_lsr_2 :
    after Params.standard ⟨0x00, 0x01, 0x00, 0xFD, 0x8000, 0x20⟩ [(0x8000, [0x56, 0x10]), (0x0011, [0x03])] [0x0011] =
    some (⟨0x00, 0x01, 0x00, 0xFD, 0x8002, 0x21⟩, 6, [0x01]) := by decide

/-- V193 of spec/95, `ROL A` (R176). -/
theorem test_rol : after Params.standard ⟨0x80, 0x00, 0x00, 0xFD, 0x8000, 0x21⟩ [(0x8000, [0x2A])] [] =
    some (⟨0x01, 0x00, 0x00, 0xFD, 0x8001, 0x21⟩, 2, []) := by decide

/-- V195 of spec/95, `ROL $0200` (R176). -/
theorem test_rol_2 :
    after Params.standard ⟨0x00, 0x00, 0x00, 0xFD, 0x8000, 0x21⟩
      [(0x8000, [0x2E, 0x00, 0x02]), (0x0200, [0x40])] [0x0200] =
    some (⟨0x00, 0x00, 0x00, 0xFD, 0x8003, 0xA0⟩, 6, [0x81]) := by decide

/-- V196 of spec/95, `ROR A` (R177). -/
theorem test_ror : after Params.standard ⟨0x01, 0x00, 0x00, 0xFD, 0x8000, 0x21⟩ [(0x8000, [0x6A])] [] =
    some (⟨0x80, 0x00, 0x00, 0xFD, 0x8001, 0xA1⟩, 2, []) := by decide

/-- V198 of spec/95, `ROR $10` (R177). -/
theorem test_ror_2 :
    after Params.standard ⟨0x00, 0x00, 0x00, 0xFD, 0x8000, 0x21⟩ [(0x8000, [0x66, 0x10]), (0x0010, [0x00])] [0x0010] =
    some (⟨0x00, 0x00, 0x00, 0xFD, 0x8002, 0xA0⟩, 5, [0x80]) := by decide

/-- V201 of spec/95, `JMP ($02FF)` (R191, R112). -/
theorem test_jmp :
    after Params.standard ⟨0x00, 0x00, 0x00, 0xFD, 0x8000, 0x20⟩
      [(0x8000, [0x6C, 0xFF, 0x02]), (0x02FF, [0x00]), (0x0200, [0x90]), (0x0300, [0x40])] [] =
    some (⟨0x00, 0x00, 0x00, 0xFD, 0x9000, 0x20⟩, 5, []) := by decide

/-- V202 of spec/95, `JMP ($02FF)` (R191, R112). -/
theorem test_jmp_2 :
    after { Params.standard with jmpIndirectPageWrap := false } ⟨0x00, 0x00, 0x00, 0xFD, 0x8000, 0x20⟩
      [(0x8000, [0x6C, 0xFF, 0x02]), (0x02FF, [0x00]), (0x0200, [0x90]), (0x0300, [0x40])] [] =
    some (⟨0x00, 0x00, 0x00, 0xFD, 0x4000, 0x20⟩, 5, []) := by decide

/-- V203 of spec/95, `JSR $9000` (R192). -/
theorem test_jsr :
    after Params.standard ⟨0x00, 0x00, 0x00, 0xFD, 0x8000, 0x20⟩ [(0x8000, [0x20, 0x00, 0x90])] [0x01FD, 0x01FC] =
    some (⟨0x00, 0x00, 0x00, 0xFB, 0x9000, 0x20⟩, 6, [0x80, 0x02]) := by decide

/-- V206 of spec/95, `RTS` (R193). -/
theorem test_rts :
    after Params.standard ⟨0x00, 0x00, 0x00, 0xFE, 0x8000, 0x20⟩
      [(0x8000, [0x60]), (0x01FF, [0xFF]), (0x0100, [0xFF])] [] =
    some (⟨0x00, 0x00, 0x00, 0x00, 0x0000, 0x20⟩, 6, []) := by decide

/-- V226 of spec/95, `BCC -$80` (R194, R190). -/
theorem test_bcc : after Params.standard ⟨0x00, 0x00, 0x00, 0xFD, 0x8080, 0x20⟩ [(0x8080, [0x90, 0x80])] [] =
    some (⟨0x00, 0x00, 0x00, 0xFD, 0x8002, 0x20⟩, 3, []) := by decide

/-- V209 of spec/95, `BCS +$10` (R195, R190). -/
theorem test_bcs : after Params.standard ⟨0x00, 0x00, 0x00, 0xFD, 0x8000, 0x21⟩ [(0x8000, [0xB0, 0x10])] [] =
    some (⟨0x00, 0x00, 0x00, 0xFD, 0x8012, 0x21⟩, 3, []) := by decide

/-- V225 of spec/95, `BEQ +$7F` (R196, R190). -/
theorem test_beq : after Params.standard ⟨0x00, 0x00, 0x00, 0xFD, 0x80F0, 0x22⟩ [(0x80F0, [0xF0, 0x7F])] [] =
    some (⟨0x00, 0x00, 0x00, 0xFD, 0x8171, 0x22⟩, 4, []) := by decide

/-- V224 of spec/95, `BNE -$04` (R197, R190). -/
theorem test_bne : after Params.standard ⟨0x00, 0x00, 0x00, 0xFD, 0x8100, 0x20⟩ [(0x8100, [0xD0, 0xFC])] [] =
    some (⟨0x00, 0x00, 0x00, 0xFD, 0x80FE, 0x20⟩, 4, []) := by decide

/-- V215 of spec/95, `BMI +$10` (R198, R190). -/
theorem test_bmi : after Params.standard ⟨0x00, 0x00, 0x00, 0xFD, 0x8000, 0xA0⟩ [(0x8000, [0x30, 0x10])] [] =
    some (⟨0x00, 0x00, 0x00, 0xFD, 0x8012, 0xA0⟩, 3, []) := by decide

/-- V217 of spec/95, `BPL +$10` (R199, R190). -/
theorem test_bpl : after Params.standard ⟨0x00, 0x00, 0x00, 0xFD, 0x8000, 0x20⟩ [(0x8000, [0x10, 0x10])] [] =
    some (⟨0x00, 0x00, 0x00, 0xFD, 0x8012, 0x20⟩, 3, []) := by decide

/-- V219 of spec/95, `BVC +$10` (R200, R190). -/
theorem test_bvc : after Params.standard ⟨0x00, 0x00, 0x00, 0xFD, 0x8000, 0x20⟩ [(0x8000, [0x50, 0x10])] [] =
    some (⟨0x00, 0x00, 0x00, 0xFD, 0x8012, 0x20⟩, 3, []) := by decide

/-- V221 of spec/95, `BVS +$10` (R201, R190). -/
theorem test_bvs : after Params.standard ⟨0x00, 0x00, 0x00, 0xFD, 0x8000, 0x60⟩ [(0x8000, [0x70, 0x10])] [] =
    some (⟨0x00, 0x00, 0x00, 0xFD, 0x8012, 0x60⟩, 3, []) := by decide

/-- V230 of spec/95, `PHA` (R210). -/
theorem test_pha : after Params.standard ⟨0x01, 0x00, 0x00, 0x00, 0x8000, 0x20⟩ [(0x8000, [0x48])] [0x0100] =
    some (⟨0x01, 0x00, 0x00, 0xFF, 0x8001, 0x20⟩, 3, [0x01]) := by decide

/-- V232 of spec/95, `PLA` (R211). -/
theorem test_pla :
    after Params.standard ⟨0x00, 0x00, 0x00, 0xFF, 0x8000, 0x20⟩ [(0x8000, [0x68]), (0x0100, [0x80])] [] =
    some (⟨0x80, 0x00, 0x00, 0x00, 0x8001, 0xA0⟩, 4, []) := by decide

/-- V234 of spec/95, `PHP` (R212). -/
theorem test_php : after Params.standard ⟨0x00, 0x00, 0x00, 0xFD, 0x8000, 0xEF⟩ [(0x8000, [0x08])] [0x01FD] =
    some (⟨0x00, 0x00, 0x00, 0xFC, 0x8001, 0xEF⟩, 3, [0xFF]) := by decide

/-- V236 of spec/95, `PLP` (R213). -/
theorem test_plp :
    after Params.standard ⟨0x00, 0x00, 0x00, 0xFC, 0x8000, 0xEF⟩ [(0x8000, [0x28]), (0x01FD, [0x00])] [] =
    some (⟨0x00, 0x00, 0x00, 0xFD, 0x8001, 0x20⟩, 4, []) := by decide

/-- V237 of spec/95, `CLC` (R214). -/
theorem test_clc : after Params.standard ⟨0x00, 0x00, 0x00, 0xFD, 0x8000, 0xEF⟩ [(0x8000, [0x18])] [] =
    some (⟨0x00, 0x00, 0x00, 0xFD, 0x8001, 0xEE⟩, 2, []) := by decide

/-- V238 of spec/95, `SEC` (R215). -/
theorem test_sec : after Params.standard ⟨0x00, 0x00, 0x00, 0xFD, 0x8000, 0x20⟩ [(0x8000, [0x38])] [] =
    some (⟨0x00, 0x00, 0x00, 0xFD, 0x8001, 0x21⟩, 2, []) := by decide

/-- V239 of spec/95, `CLI` (R216). -/
theorem test_cli : after Params.standard ⟨0x00, 0x00, 0x00, 0xFD, 0x8000, 0xEF⟩ [(0x8000, [0x58])] [] =
    some (⟨0x00, 0x00, 0x00, 0xFD, 0x8001, 0xEB⟩, 2, []) := by decide

/-- V240 of spec/95, `SEI` (R217). -/
theorem test_sei : after Params.standard ⟨0x00, 0x00, 0x00, 0xFD, 0x8000, 0x20⟩ [(0x8000, [0x78])] [] =
    some (⟨0x00, 0x00, 0x00, 0xFD, 0x8001, 0x24⟩, 2, []) := by decide

/-- V241 of spec/95, `CLD` (R218). -/
theorem test_cld : after Params.standard ⟨0x00, 0x00, 0x00, 0xFD, 0x8000, 0xEF⟩ [(0x8000, [0xD8])] [] =
    some (⟨0x00, 0x00, 0x00, 0xFD, 0x8001, 0xE7⟩, 2, []) := by decide

/-- V242 of spec/95, `SED` (R219). -/
theorem test_sed : after Params.standard ⟨0x00, 0x00, 0x00, 0xFD, 0x8000, 0x20⟩ [(0x8000, [0xF8])] [] =
    some (⟨0x00, 0x00, 0x00, 0xFD, 0x8001, 0x28⟩, 2, []) := by decide

/-- V243 of spec/95, `CLV` (R220). -/
theorem test_clv : after Params.standard ⟨0x00, 0x00, 0x00, 0xFD, 0x8000, 0xEF⟩ [(0x8000, [0xB8])] [] =
    some (⟨0x00, 0x00, 0x00, 0xFD, 0x8001, 0xAF⟩, 2, []) := by decide

/-- V244 of spec/95, `NOP` (R221). -/
theorem test_nop : after Params.standard ⟨0x01, 0x02, 0x03, 0xFD, 0x8000, 0xEF⟩ [(0x8000, [0xEA])] [] =
    some (⟨0x01, 0x02, 0x03, 0xFD, 0x8001, 0xEF⟩, 2, []) := by decide

/-- V245 of spec/95, `BRK` (R222). -/
theorem test_brk :
    after Params.standard ⟨0x00, 0x00, 0x00, 0xFD, 0x8000, 0x2B⟩
      [(0x8000, [0x00, 0xFF]), (0xFFFF, [0xA0])] [0x01FD, 0x01FC, 0x01FB] =
    some (⟨0x00, 0x00, 0x00, 0xFA, 0xA000, 0x27⟩, 7, [0x80, 0x02, 0x3B]) := by decide

/-- V247 of spec/95, `RTI` (R223). -/
theorem test_rti :
    after Params.standard ⟨0x00, 0x00, 0x00, 0xFA, 0x8000, 0x24⟩
      [(0x8000, [0x40]), (0x01FB, [0xA3]), (0x01FC, [0x23]), (0x01FD, [0x81])] [] =
    some (⟨0x00, 0x00, 0x00, 0xFD, 0x8123, 0xA3⟩, 6, []) := by decide

/-! ### The ports, the PPU and the step: vectors of spec/95 -/

/-- The state after reset with another PPU. -/
def withPpu (r : Ppu) : State := { State.reset with ppu := r }

/-- The state after reset with the PPU at a position. -/
def atPosition (scanline : Int) (cycle : Nat) (r : Ppu) : State := withPpu { r with scanline := scanline, cycle := cycle }

/-- Q10: the two scroll writes of the example of R237. -/
theorem test_scroll_writes : (memWrite 0x2005 0x5E (memWrite 0x2005 0x7D State.reset)).ppu.t = 0x616F := by decide

/-- Q13: the two address writes; the first drops bits 7:6. -/
theorem test_address_writes : (memWrite 0x2006 0xFF (memWrite 0x2006 0xFF State.reset)).ppu.v = 0x3FFF := by decide

/-- Q6: the status port. -/
theorem test_status_read : ((memRead 0x2002 (withPpu { Ppu.reset with status := 0xE0 })).1,
    (memRead 0x2002 (withPpu { Ppu.reset with status := 0xE0 })).2.ppu.status) = (0xE0, 0x60) := by decide

/-- Q19: the data port at the top of the video address space. -/
theorem test_data_write_wraps : (fun s : State => (s.ppu.v, s.ppu.palette))
    (memWrite 0x2007 0x2C (withPpu { Ppu.reset with v := 0x7FFF })) = (0, [(0x1F, 0x2C)]) := by decide

/-- Section 3.5: 3F14 and 3F04 are one cell. -/
theorem test_palette_alias : ppuMemRead 0x3F04 (ppuMemWrite 0x3F14 0x24 State.reset) = 0x24 := by decide

/-- Section 3.6: the 0x3000 mirror under horizontal mirroring. -/
theorem test_nametable_mirror : ppuMemRead 0x2AFF (ppuMemWrite 0x3EFF 0x66 State.reset) = 0x66 := by decide

/-- Q25: the OAM address wraps. -/
theorem test_oam_write : (fun s : State => (s.ppu.oamAddr, s.ppu.oam))
    (memWrite 0x2004 0x34 (memWrite 0x2004 0x12 (withPpu { Ppu.reset with oamAddr := 0xFF }))) =
      (1, [(0, 0x34), (0xFF, 0x12)]) := by decide

/-- Section 5.1: rows of the tables of `VUpdate` and `IncCoarseX`. -/
theorem test_scroll_steps : reloadHorizontal 0x0005 (incFineY 0x73A5) = 0x0805 ∧
    reloadHorizontal 0x001F (incFineY 0x73E0) = 0x001F ∧ incCoarseX 0x041F = 0 ∧ incCoarseX 0x003F = 0x0420 := by decide

/-- Section 5.1: the attribute address and shift. -/
theorem test_attribute_address : attrAddr 0x0C63 = 0x2FC0 ∧ attrShift 0x0C63 = 6 ∧ attrAddr 0x03BF = 0x23FF := by decide

/-- G13: the tick (-1,304) copies all of `t`. -/
theorem test_reload_tick : (ppuTick (atPosition (-1) 304 { Ppu.reset with mask := 0x10, v := 0x1234, t := 0x5A5A })).ppu.v =
    0x5A5A := by decide

/-- R278: the tick (240,1) sets `vblank` and requests the NMI. -/
theorem test_vblank_tick : (fun s : State => (s.ppu.status, s.line, s.ppu.cycle))
    (ppuTick (atPosition 240 1 { Ppu.reset with ctrl := 0x80 })) = (0x80, .nmi, 2) := by decide

/-- R337: byte 255 of the DMA copy lands at `oam[(oamAddr + 255) mod 256]`. -/
theorem test_dma_byte : (dmaByte 0x02 0xFF (place 0x02FF 0x77 (withPpu { Ppu.reset with oamAddr := 0x0F }))).ppu.oam =
    [(0x0F, 0x77)] := by decide

/-- R331, R333, R359: a `NOP` with an NMI pending takes 2 cycles, then the NMI is entered. -/
theorem test_step_nmi : (match step { started Params.standard ⟨0, 0, 0, 0xFD, 0x8000, 0x23⟩ [(0x8000, [0xEA]), (0xFFFB, [0x90])]
      with line := .nmi } with
    | .next t => some (t.cpu.pc, t.cpu.sp, t.cpuCycles, t.stall, t.ppu.cycle, peek 0x01FB t)
    | _ => none) = some (0x9000, 0xFA, 2, 7, 6, 0x23) := by decide

/-- V249: an undefined opcode latches the fault. -/
theorem test_step_undefined : (match step (started Params.standard ⟨1, 2, 3, 0xFD, 0x8000, 0x20⟩ [(0x8000, [0x02])]) with
    | .next t => t.fault
    | _ => none) = some (.unsupportedOpcode 0x8000 0x02) := by decide

/-- R340: the host's write is the CPU's. -/
theorem test_hostCall_write : peek 0x1801 (hostCall (.cpuWrite 0x0001 0x42) State.reset).2 = 0x42 := by decide

/-- The very next step runs the placed instruction: `LDA #$7F` placed after reset. -/
theorem test_withFetchWord : (match step (State.reset.withFetchWord 16 0x7FA9) with
    | .next t => some t.cpu.a
    | _ => none) = some 0x7F := by decide

/-! ### Inputs that meet the hypotheses of the statements -/

theorem witness_DecodeOfEncode : (Instr.ldaImm 5).wellFormed = true := by decide

theorem witness_EncodeOfDecode : decode [0xA9, 0x05, 0x07] = .ok (.ldaImm 0x05, [0x07]) := by rfl

theorem witness_UndefinedOpcodesRefused : undefinedOpcode 0x02 = true ∧ undefinedOpcode 0xFF = true ∧
    undefinedOpcode 0xA9 = false := by decide

theorem witness_RamMirrored : (0x1FFF#16).toNat < 0x2000 ∧ (0x07FF#16).toNat < 0x2000 ∧
    (0x1FFF#16).toNat % 2048 = (0x07FF#16).toNat % 2048 ∧ (0x1FFF#16).toNat % 2048 ≠ (0x0000#16).toNat % 2048 := by decide

/-- Each clause at its first and last address: 0x4014 and 0x4016 fall under the read clause at most once. -/
theorem witness_StubbedAddresses : (memRead 0x4000 State.reset = (0, State.reset) ∧ memRead 0x4015 State.reset = (0, State.reset) ∧
    memRead 0x4018 State.reset = (0, State.reset) ∧ memRead 0x5FFF State.reset = (0, State.reset)) ∧
    (memWrite 0x4000 1 State.reset = State.reset ∧ memWrite 0x4013 1 State.reset = State.reset ∧
      memWrite 0x4015 1 State.reset = State.reset ∧ memWrite 0x4017 1 State.reset = State.reset ∧
      memWrite 0x4018 1 State.reset = State.reset ∧ memWrite 0x5FFF 1 State.reset = State.reset) :=
  ⟨⟨rfl, rfl, rfl, rfl⟩, rfl, rfl, rfl, rfl, rfl, rfl⟩

theorem witness_CartridgeMemory :
    (0x6000 ≤ (0x6000#16).toNat ∧ (0x6000#16).toNat < 0x8000 ∧ 0x6000 ≤ (0x7FFF#16).toNat ∧ (0x7FFF#16).toNat < 0x8000) ∧
    0x8000 ≤ (0xFFFF#16).toNat ∧ State.reset.cart.prgBanks = 2 ∧
    ({ State.reset with cart := { Cartridge.blank with prgBanks := 1 } } : State).cart.prgBanks = 1 ∧
    0x8000 ≤ (0xBFFF#16).toNat ∧ (0xBFFF#16).toNat < 0xC000 := by decide

theorem witness_ReadSideEffects : (0x3FFA#16).toNat % 8 = 2 ∧ (0x3FFF#16).toNat % 8 = 7 ∧ (0x3FFF#16).toNat < 0x4000 ∧
    (0x4016#16).toNat = 0x4016 ∧ ¬ (0x2000 ≤ (0x2000#16).toNat ∧ (0x2000#16).toNat < 0x4000 ∧
      ((0x2000#16).toNat % 8 = 2 ∨ (0x2000#16).toNat % 8 = 7)) ∧ storageCell 0x1FFF State.reset ≠ none ∧
    storageCell 0x6000 State.reset ≠ none ∧ storageCell 0xFFFF State.reset ≠ none ∧
    storageCell 0x2000 State.reset = none ∧ storageCell 0x5FFF State.reset = none := by decide

/-- Both settings of the page wrap at the boundary 0x02FF, and the zero-page base. -/
theorem witness_PointerAddressing :
    (0x0200#16).toNat = (if State.reset.params.jmpIndirectPageWrap then (0x02FF#16).toNat / 256 * 256 + ((0x02FF#16).toNat + 1) % 256
      else ((0x02FF#16).toNat + 1) % 65536) ∧
    (0x0300#16).toNat = (if ({ Params.standard with jmpIndirectPageWrap := false } : Params).jmpIndirectPageWrap then
        (0x02FF#16).toNat / 256 * 256 + ((0x02FF#16).toNat + 1) % 256
      else ((0x02FF#16).toNat + 1) % 65536) ∧
    (0#16) = wordOf (peek (BitVec.ofNat 16 (0xFF#8).toNat) State.reset) (peek (BitVec.ofNat 16 (((0xFF#8).toNat + 1) % 256)) State.reset) ∧
    (0x02FE#16).toNat % 256 ≠ 255 := by decide

theorem witness_LoadsFillTheirRegister : (Instr.ldaIzy 0xFF).mnemonic = .lda ∧ (Instr.ldxZpy 1).mnemonic = .ldx ∧
    (Instr.ldyAbx 0xFFFF).mnemonic = .ldy := by decide

theorem witness_StoresWriteOneByte : (Instr.staIzx 2).mnemonic = .sta ∧ (Instr.stxZpy 2).mnemonic = .stx ∧
    (Instr.styAbs 0x7FFF).mnemonic = .sty ∧ storageCell 0x7FFF State.reset ≠ none ∧ storageCell 0x1FFF State.reset ≠ none ∧
    (resolve (Instr.styAbs 0x7FFF).operand State.reset).addr = 0x7FFF := by decide

theorem witness_AdcAddsWithCarry : (Instr.adcImm 1).mnemonic = .adc ∧ State.reset.params.decimalEnabled = false ∧
    (1#8) = (readOperand (Instr.adcImm 1).operand State.reset).1 ∧ 0 = (if getFlag .c State.reset.cpu.p then 1 else 0) := by
  decide

theorem witness_SbcSubtractsWithBorrow : (Instr.sbcImm 1).mnemonic = .sbc ∧ State.reset.params.decimalEnabled = false ∧
    (1#8) = (readOperand (Instr.sbcImm 1).operand State.reset).1 ∧ 1 = (if getFlag .c State.reset.cpu.p then 0 else 1) := by
  decide

/-- A machine with decimal mode compiled in and `P.D` set, with digits in `A` and in the operand. -/
def decimalMachine : State := { State.reset with
  cpu := { State.reset.cpu with a := 0x99, p := 0x29 }, params := { Params.standard with decimalEnabled := true } }

theorem witness_DecimalArithmetic : ∃ (a n c al sum : Nat) (dl diff : Int), decimalMachine.params.decimalEnabled = true ∧
    getFlag .d decimalMachine.cpu.p = true ∧ (0x01#8) = (readOperand (Instr.adcImm 1).operand decimalMachine).1 ∧
    (0x01#8) = (readOperand (Instr.sbcImm 1).operand decimalMachine).1 ∧
    a = decimalMachine.cpu.a.toNat ∧ n = (0x01#8).toNat ∧ c = (if getFlag .c decimalMachine.cpu.p then 1 else 0) ∧
    al = (if 10 ≤ a % 16 + n % 16 + c then (a % 16 + n % 16 + c + 6) % 16 + 16 else a % 16 + n % 16 + c) ∧
    sum = a / 16 * 16 + n / 16 * 16 + al ∧
    dl = (if ((a % 16 : Nat) : Int) - (n % 16 : Nat) + c - 1 < 0
      then (((a % 16 : Nat) : Int) - (n % 16 : Nat) + c - 1 - 6) % 16 - 16
      else ((a % 16 : Nat) : Int) - (n % 16 : Nat) + c - 1) ∧
    diff = ((a / 16 * 16 : Nat) : Int) - (n / 16 * 16 : Nat) + dl ∧
    a % 16 < 10 ∧ a / 16 < 10 ∧ n % 16 < 10 ∧ n / 16 < 10 :=
  ⟨_, _, _, _, _, _, _, by decide, by decide, by decide, by decide, rfl, rfl, rfl, rfl, rfl, rfl, rfl, by decide, by decide,
    by decide, by decide⟩

theorem witness_ComparesSetFlagsOnly : (Instr.cmpImm 1).mnemonic = .cmp ∧ (Instr.cpxImm 1).mnemonic = .cpx ∧
    (Instr.cpyImm 1).mnemonic = .cpy ∧ (1#8) = (readOperand (.imm 1) State.reset).1 := by decide

theorem witness_IncDecMemory : (Instr.incAbx 0x0200).mnemonic = .inc ∧ (Instr.decZp 0x10).mnemonic = .dec ∧
    (1#8) = (memRead (resolve (Instr.incAbx 0x0200).operand State.reset).addr State.reset).1 + 1 ∧
    (0xFF#8) = (memRead (resolve (Instr.decZp 0x10).operand State.reset).addr State.reset).1 - 1 ∧
    (resolve (Instr.decZp 0x10).operand State.reset).addr.toNat < 0x2000 := by decide

theorem witness_LogicAndBitTest : (Instr.andImm 1).mnemonic = .and ∧ (Instr.oraImm 1).mnemonic = .ora ∧
    (Instr.eorImm 1).mnemonic = .eor ∧ (Instr.bitZp 1).mnemonic = .bit ∧
    (0#8) = (readOperand (Instr.bitZp 1).operand State.reset).1 := by decide

theorem witness_ShiftAccumulator : 0 = (if getFlag .c State.reset.cpu.p then 1 else 0) ∧
    1 = (if getFlag .c decimalMachine.cpu.p then 1 else 0) := by decide

/-- All four shifts of a zero byte: `out` is 0, and the result is 0 or the Carry rotated in. -/
theorem witness_ShiftMemory : (Instr.aslZp 1).operand ≠ .acc ∧ (Instr.aslZp 1).mnemonic = .asl ∧ (Instr.lsrAbs 1).mnemonic = .lsr ∧
    (Instr.rolZpx 1).mnemonic = .rol ∧ (Instr.rorAbx 1).mnemonic = .ror ∧
    0 = (memRead (resolve (Instr.aslZp 1).operand State.reset).addr State.reset).1.toNat := by decide

theorem witness_PullInstructions : (0#8) = peek (stackAddr (State.reset.cpu.sp + 1)) State.reset := by decide

/-- Reset meets the inner premises of the statement, and an instruction takes it to a next state. -/
theorem witness_EveryInstructionCompletes : getFlag .u State.reset.cpu.p = true ∧ Memory.wf 0 2048 State.reset.ram := by decide

theorem witness_InstructionCycles : (Instr.bne 0xFB).operand = .rel 0xFB ∧ (Instr.jmpInd 0).operand = .ind 0 := by decide

/-- `LDA $1234` in PRG, all three bytes in storage. -/
theorem witness_StepRunsTheDecodedInstruction :
    (started Params.standard ⟨0, 0, 0, 0xFD, 0x8000, 0x20⟩ [(0x8000, [0xAD, 0x34, 0x12])]).fault = none ∧
    decode (fetchBytes 3 (started Params.standard ⟨0, 0, 0, 0xFD, 0x8000, 0x20⟩ [(0x8000, [0xAD, 0x34, 0x12])])).1 =
      .ok (.ldaAbs 0x1234, []) ∧
    (∃ t, exec (.ldaAbs 0x1234)
      (fetchBytes 3 (started Params.standard ⟨0, 0, 0, 0xFD, 0x8000, 0x20⟩ [(0x8000, [0xAD, 0x34, 0x12])])).2 = .next t) ∧
    storageCell 0x8000 State.reset ≠ none ∧ storageCell 0x8001 State.reset ≠ none ∧ storageCell 0x8002 State.reset ≠ none :=
  ⟨rfl, rfl, ⟨_, rfl⟩, by decide⟩

theorem witness_UndefinedOpcodeLatches : (place 0x0000 0x02 State.reset).fault = none ∧
    undefinedOpcode (memRead (place 0x0000 0x02 State.reset).cpu.pc (place 0x0000 0x02 State.reset)).1 = true ∧
    storageCell (place 0x0000 0x02 State.reset).cpu.pc (place 0x0000 0x02 State.reset) ≠ none ∧
    ({ State.reset with fault := some (.unsupportedOpcode 0 2) } : State).fault = some (.unsupportedOpcode 0 2) := by decide

theorem witness_DispatchTakesOneRequest : ({ State.reset with line := .reset } : State).line = .reset ∧
    ({ State.reset with line := .nmi } : State).line = .nmi ∧
    (({ State.reset with line := .irq } : State).line = .irq ∧ getFlag .i State.reset.cpu.p = false) ∧
    getFlag .i (State.reset.setP 0x26).cpu.p = true ∧ State.reset.line = .none := by decide

theorem witness_InterruptEntry : (0xFFFA#16) = (if true then 0xFFFA else 0xFFFE) ∧ getFlag .i State.reset.cpu.p = false ∧
    getFlag .i (State.reset.setP 0x26).cpu.p = true ∧ enterIrq (State.reset.setP 0x26) = State.reset.setP 0x26 :=
  ⟨by decide, by decide, by decide, rfl⟩

theorem witness_RequestByPriority : (requestInterrupt .nmi { State.reset with line := .irq }).line = .nmi ∧
    (requestInterrupt .irq { State.reset with line := .nmi }).line = .nmi := by decide

/-- Reset meets the invariant's parts that can be written out, and steps. -/
theorem witness_StepKeepsInvariant : State.reset.Inv ∧ ∃ t, step State.reset = .next t :=
  ⟨⟨⟨Memory.wf_nil, Memory.wf_nil, Memory.wf_nil, Memory.wf_nil, Memory.wf_nil, Memory.wf_nil, Memory.wf_nil, Memory.wf_nil,
    Memory.wf_nil⟩, ⟨by decide, by decide, by decide⟩, by decide, by decide, rfl⟩, _, rfl⟩

theorem witness_ThreeTicksPerCycle : State.reset.cost = 0 ∧ ∃ t, step State.reset = .next t := ⟨rfl, _, rfl⟩

theorem witness_StepCycleBounds : State.reset.cost = 0 ∧ State.reset.params.interruptCycles = 7 ∧ State.reset.stall ≤ 7 ∧
    ∃ t, step State.reset = .next t ∧ t.fault = none :=
  ⟨rfl, rfl, by decide, _, rfl, (dispatchCheck_kept _).fault.trans (spendCycles_kept _).fault⟩

theorem witness_StepKeepsConfiguration : (∃ t, step State.reset = .next t) ∧ 0x8000 ≤ (0x8000#16).toNat := ⟨⟨_, rfl⟩, by decide⟩

theorem witness_PowerOnBuildsTheMachine :
    (Cartridge.blank.mapperId = 0 ∧ (Cartridge.blank.prgBanks = 1 ∨ Cartridge.blank.prgBanks = 2) ∧
      (Cartridge.blank.chrBanks = 0 ∨ Cartridge.blank.chrBanks = 1) ∧ Cartridge.blank.fourScreen = false) ∧
    ¬ (({ Cartridge.blank with mapperId := 1 } : Cartridge).mapperId = 0) := by decide

theorem witness_StatusPortRead : 0x2000 ≤ (0x3FFA#16).toNat ∧ (0x3FFA#16).toNat < 0x4000 ∧ (0x3FFA#16).toNat % 8 = 2 := by decide

/-- The data port below the palette at 0x3EFF and in it at 0x3F00, both increments. -/
theorem witness_DataPort : (0x2007#16).toNat % 8 = 7 ∧ (0x3EFF#14).toNat = (0x3EFF#15).toNat % 0x4000 ∧ (0x3EFF#14).toNat < 0x3F00 ∧
    (0x3F00#14).toNat = (0x7F00#15).toNat % 0x4000 ∧ 0x3F00 ≤ (0x3F00#14).toNat ∧
    (0x3F00#15).toNat = ((0x3EFF#15).toNat + if (0x00#8).toNat / 4 % 2 = 1 then 32 else 1) % 0x8000 ∧
    (0x0000#15).toNat = ((0x7FE0#15).toNat + if (0x04#8).toNat / 4 % 2 = 1 then 32 else 1) % 0x8000 := by decide

theorem witness_ScrollAndAddressPorts : (0x2005#16).toNat % 8 = 5 ∧ (0x3FFE#16).toNat % 8 = 6 ∧ State.reset.ppu.w = false ∧
    (withPpu { Ppu.reset with w := true }).ppu.w = true := by decide

theorem witness_ControlMaskAndOamPorts : (0x2000#16).toNat % 8 = 0 ∧ (0x2001#16).toNat % 8 = 1 ∧ (0x2002#16).toNat % 8 = 2 ∧
    (0x2003#16).toNat % 8 = 3 ∧ (0x2004#16).toNat % 8 = 4 ∧ (0x3FFD#16).toNat % 8 = 5 ∧ (0x3FFE#16).toNat % 8 = 6 := by decide

/-- The two functions of the statement exist for every mirroring mode. -/
theorem witness_PpuMemoryAliasing (s : State) : ∃ page entry : Nat → Nat,
    page = (fun n => match s.mirroring with
      | .horizontal => n / 0x400 % 4 / 2
      | .vertical => n / 0x400 % 2
      | .singleLower => 0
      | .singleUpper => 1) ∧
    entry = (fun n => if n % 32 = 0x10 ∨ n % 32 = 0x14 ∨ n % 32 = 0x18 ∨ n % 32 = 0x1C then n % 16 else n % 32) :=
  ⟨_, _, rfl, rfl⟩

theorem witness_OamDmaCopiesAPage : (∃ t, t = memWrite 0x4014 0x02 State.reset) ∧ (0x1F#8).toNat < 0x20 ∧ 0x41 ≤ (0x41#8).toNat :=
  ⟨⟨_, rfl⟩, by decide⟩

/-- A position with no event: (241,0), where the machine starts. -/
theorem witness_TickAdvancesThePosition : ¬ (0 ≤ State.reset.ppu.scanline ∧ State.reset.ppu.scanline ≤ 239 ∧
      (State.reset.ppu.cycle = State.reset.params.renderCycle ∨ State.reset.ppu.cycle = State.reset.params.vupdateCycle)) ∧
    ¬ (State.reset.ppu.scanline = 240 ∧ State.reset.ppu.cycle = 1) ∧ ¬ (State.reset.ppu.scanline = 260 ∧ State.reset.ppu.cycle = 1) ∧
    ¬ (State.reset.ppu.scanline = -1 ∧ State.reset.ppu.cycle = 1) ∧
    ¬ (State.reset.ppu.scanline = -1 ∧ State.reset.ppu.cycle = 304) := by decide

theorem witness_VblankAndPreRenderTicks : (atPosition 240 1 Ppu.reset).ppu.scanline = 240 ∧ (atPosition 240 1 Ppu.reset).ppu.cycle = 1 ∧
    (atPosition 240 1 Ppu.reset).ppu.suppressVbl = false ∧
    (atPosition 240 1 { Ppu.reset with suppressVbl := true }).ppu.suppressVbl = true ∧
    (atPosition 260 1 Ppu.reset).ppu.scanline = 260 ∧ (atPosition (-1) 1 Ppu.reset).ppu.scanline = -1 ∧
    (atPosition (-1) 304 Ppu.reset).ppu.cycle = 304 ∧ ¬ (State.reset.ppu.scanline = 240 ∧ State.reset.ppu.cycle = 1) := by decide

/-- One opaque background pixel at (8,8), the first that a cropped drain keeps. -/
theorem witness_DrainHandsOffTheFrame :
    Memory.wf Pixel.clear 61440 (atPosition 240 1 { Ppu.reset with comp := [(8 * 256 + 8, ⟨0x21, 1, none⟩)] }).ppu.comp ∧
    State.reset.params.overscanCrop = false ∧ ({ Params.standard with overscanCrop := true } : Params).overscanCrop = true := by
  decide

/-- A state at the row event with the background shown, and the tile addresses and tiles of its row. -/
theorem witness_BackgroundRow : ∃ (s : State) (addr : Nat → VAddr) (tile : Nat → TileRow) (px : BitVec 2),
    s.ppu.scanline = (0 : Nat) ∧ s.ppu.cycle = s.params.renderCycle ∧ s.ppu.mask.getLsbD 3 = true ∧ s.ppu.mask.getLsbD 4 = false ∧
    addr 0 = s.ppu.v ∧ (∀ k, addr (k + 1) = incCoarseX (addr k)) ∧ (∀ k, tile k = fetchTile (addr k) s) ∧
    px = (if 255 < 8 ∧ s.ppu.mask.getLsbD 1 = false then 0
      else BitVec.ofNat 2
        ((if (tile ((255 + s.ppu.fineX.toNat) / 8)).lo.getLsbD (7 - (255 + s.ppu.fineX.toNat) % 8) then 1 else 0) +
         (if (tile ((255 + s.ppu.fineX.toNat) / 8)).hi.getLsbD (7 - (255 + s.ppu.fineX.toNat) % 8) then 2 else 0))) :=
  ⟨atPosition 0 254 { Ppu.reset with mask := 0x0A }, fun k => Nat.rec 0 (fun _ a => incCoarseX a) k, _, _, rfl, rfl, by decide,
    by decide, rfl, fun _ => rfl, fun _ => rfl, rfl⟩

theorem witness_TileFetch : ∃ (a : VAddr) (s : State) (cx cy slot : Nat) (tile attr : Byte) (pa : PAddr),
    cx = a.toNat % 32 ∧ cy = a.toNat / 32 % 32 ∧ slot = a.toNat / 0x400 % 4 ∧
    tile = ppuMemRead (BitVec.ofNat 14 (0x2000 + a.toNat % 0x1000)) s ∧
    attr = ppuMemRead (BitVec.ofNat 14 (0x2000 + slot * 0x400 + 0x3C0 + cy / 4 * 8 + cx / 4)) s ∧
    pa.toNat = tile.toNat * 16 + (if s.ppu.ctrl.getLsbD 4 then 4096 else 0) + a.toNat / 0x1000 :=
  ⟨0x7FFF, atPosition 0 254 { Ppu.reset with ctrl := 0x10 }, _, _, _, _, _, 0x1007, rfl, rfl, rfl, rfl, rfl, by decide⟩

theorem witness_ScrollUpdate : (fun s : State => decide (0 ≤ s.ppu.scanline ∧ s.ppu.scanline ≤ 239 ∧ s.ppu.cycle = s.params.vupdateCycle ∧
      s.params.renderCycle ≠ s.params.vupdateCycle ∧ (s.ppu.mask.getLsbD 3 || s.ppu.mask.getLsbD 4) = true))
    (atPosition 239 256 { Ppu.reset with mask := 0x10, v := 0x73A0 }) = true := by decide

/-- Rendering off, and a visible tick with no scroll event. -/
theorem witness_ScrollUpdate_kept : State.reset.ppu.mask.getLsbD 3 = false ∧ State.reset.ppu.mask.getLsbD 4 = false ∧
    (atPosition 239 255 Ppu.reset).ppu.scanline ≤ 239 ∧ 0 ≤ (atPosition 0 255 Ppu.reset).ppu.scanline ∧
    (atPosition 0 255 Ppu.reset).ppu.cycle ≠ (atPosition 0 255 Ppu.reset).params.vupdateCycle := by decide

/-- Every sprite of an empty OAM has Y = 0 and covers scanline 1, none covers scanline 0. -/
theorem witness_SpriteOverflow : 8 = (if State.reset.ppu.ctrl.getLsbD 5 then 16 else 8) ∧
    64 = ((List.range 64).filter fun i => decide ((Memory.get 0 State.reset.ppu.oam (4 * i)).toNat + 1 ≤ 1 ∧
      1 ≤ (Memory.get 0 State.reset.ppu.oam (4 * i)).toNat + 8)).length ∧
    0 = ((List.range 64).filter fun i => decide ((Memory.get 0 State.reset.ppu.oam (4 * i)).toNat + 1 ≤ 0 ∧
      0 ≤ (Memory.get 0 State.reset.ppu.oam (4 * i)).toNat + 8)).length := by decide

/-- On scanline 1 every sprite of an empty OAM covers the line, so the limit takes eight and leaves some out. -/
theorem witness_SpriteCompositing_order : ∃ (covers : Fin 64 → Bool) (covering drawn : List (Fin 64)) (t : State),
    8 = (if State.reset.ppu.ctrl.getLsbD 5 then 16 else 8) ∧
    (∀ i : Fin 64, covers i = decide ((Memory.get 0 State.reset.ppu.oam (4 * i.val)).toNat + 1 ≤ 1 ∧
      1 ≤ (Memory.get 0 State.reset.ppu.oam (4 * i.val)).toNat + 8)) ∧
    covering = (List.finRange 64).filter covers ∧
    drawn = (if State.reset.params.spriteLimitEnabled = true then covering.take 8 else covering) ∧
    t = drawn.foldl (fun u i => compositeSprite i 1 8 u) State.reset ∧ covers 0 = true ∧ covers 63 = true :=
  ⟨_, _, _, _, rfl, fun _ => rfl, rfl, rfl, rfl, by decide, by decide⟩

/-- A sprite that changes an entry and hits: tile 0 all opaque over an opaque background pixel at (0,1). -/
theorem witness_SpriteCompositing : (fun s : State =>
      (Memory.get Pixel.clear s.ppu.comp 256).owner ≠ none ∧ s.ppu.status.getLsbD 6 = true)
    (evaluateSprites 1 { withPpu { Ppu.reset with mask := 0x1E, comp := [(256, ⟨0x21, 1, none⟩)] } with
      chr := [(0, 0xFF), (1, 0xFF)] }) := by decide

/-- Sprite 0 of an empty OAM on scanline 1: height 8, row 0, pattern address 0. -/
theorem witness_SpriteRow : ∃ (px : Nat → BitVec 2) (shown : Nat → Bool),
    8 = (if State.reset.ppu.ctrl.getLsbD 5 then 16 else 8) ∧ (Memory.get 0 State.reset.ppu.oam (4 * (0 : Fin 64).val)).toNat + 1 ≤ 1 ∧
    1 ≤ (Memory.get 0 State.reset.ppu.oam (4 * (0 : Fin 64).val)).toNat + 8 ∧
    (0#14).toNat = (if 8 = 8 then (if State.reset.ppu.ctrl.getLsbD 3 then 4096 else 0) + (0#8).toNat * 16 + 0
      else (0#8).toNat % 2 * 4096 + ((0#8).toNat / 2 * 2 + (if 8 ≤ 0 then 1 else 0)) * 16 + 0 % 8) ∧
    (∀ x, px x = if 0 ≤ x ∧ x < 0 + 8 then
        BitVec.ofNat 2
          ((if (ppuMemRead 0 State.reset).getLsbD (if (0#8).getLsbD 6 then x - 0 else 7 - (x - 0)) then 1 else 0) +
           (if (ppuMemRead (0 + 8) State.reset).getLsbD (if (0#8).getLsbD 6 then x - 0 else 7 - (x - 0)) then 2 else 0))
      else 0) ∧
    ∀ x, shown x = decide (px x ≠ 0 ∧ ¬ (x < 8 ∧ State.reset.ppu.mask.getLsbD 2 = false)) :=
  ⟨_, _, by decide, by decide, by decide, by decide, fun _ => rfl, fun _ => rfl⟩

/-- The row event of scanline 239 with background and sprites shown, and a tick beside it. -/
theorem witness_RowCompositing : (atPosition 239 254 { Ppu.reset with mask := 0x1E }).ppu.scanline = (239 : Nat) ∧
    (atPosition 239 254 { Ppu.reset with mask := 0x1E }).ppu.cycle = State.reset.params.renderCycle ∧
    State.reset.params.renderCycle ≠ State.reset.params.vupdateCycle ∧
    (atPosition 0 253 { Ppu.reset with mask := 0x1E }).ppu.cycle ≠ State.reset.params.renderCycle := by decide

/-- The same with equal event cycles, where the order is the model's choice (log 16). -/
theorem witness_RowCompositing_equal : (fun s : State => decide (s.ppu.scanline = (0 : Nat) ∧
      s.ppu.cycle = s.params.renderCycle ∧ s.params.renderCycle = s.params.vupdateCycle))
    { atPosition 0 254 { Ppu.reset with mask := 0x0A } with params := { Params.standard with vupdateCycle := 254 } } = true := by
  decide
end

/-! The state: the stack operations, what an instruction and a step keep, and the invariant (spec 10). -/

namespace Sys2Proof.Machine

/-! ### The stack slot by its number -/

/-- The slot `0x0100 | SP` as the number 256 + `SP` (R22). -/
theorem ofNat_stackSlot (sp : Byte) : BitVec.ofNat 16 (0x100 + sp.toNat) = stackAddr sp := by
  apply BitVec.eq_of_toNat_eq
  have := sp.isLt
  rw [stackAddr_toNat, BitVec.toNat_ofNat]
  omega

/-- `SP + 1` wraps in the page (R23). -/
theorem sp_add_one_toNat (sp : Byte) : (sp + 1).toNat = (sp.toNat + 1) % 256 := BitVec.toNat_add sp 1

/-- `SP - 1` wraps in the page (R23). -/
theorem sp_sub_one_toNat (sp : Byte) : (sp - 1).toNat = (sp.toNat + 255) % 256 := by
  rw [BitVec.toNat_sub, Nat.add_comm]
  rfl

/-- A pull takes back what a push stored, `SP` with it (R23). -/
theorem pull_push (v : Byte) (s : State) : (pull (push v s)).1 = v ∧ (pull (push v s)).2.cpu = s.cpu := by
  have hsp : s.cpu.sp - 1 + 1 = s.cpu.sp := BitVec.sub_add_cancel _ _
  rw [pull_eq, push_eq]
  simp only [hsp, Memory.get_set_same, and_self]

/-! ### What every instruction keeps -/

/-- Every flag but Unused may be written. -/
theorem InstrKept.setFlag {s t : State} (h : InstrKept s t) {f : Flag} (hf : .u ≠ f) (b : Bool) :
    InstrKept s (t.setFlag f b) :=
  h.trans (.ofCpu t { t.cpu with p := putFlag f b t.cpu.p } t.cost (getFlag_putFlag_other hf b t.cpu.p).trans)

theorem jump_kept (o : Operand) (base : Nat) (s : State) : InstrKept s (jump o base s) :=
  ((resolve_kept o s).toBusKept.instr.setPC _).charge base

theorem call_kept (a : Word) (base : Nat) (s : State) : InstrKept s (call a base s) :=
  ((pushWord_instrKept _ s).setPC a).charge base

theorem returnFromCall_kept (base : Nat) (s : State) : InstrKept s (returnFromCall base s) :=
  ((pullWord_instrKept s).setPC _).charge base

theorem loadA_kept (v : Byte) (s : State) : InstrKept s (loadA v s) := readEffect_kept (m := .lda) rfl v s

theorem loadX_kept (v : Byte) (s : State) : InstrKept s (loadX v s) := readEffect_kept (m := .ldx) rfl v s

theorem loadY_kept (v : Byte) (s : State) : InstrKept s (loadY v s) := readEffect_kept (m := .ldy) rfl v s

/-- The instructions of no memory class of R124: transfers, counts on a register, jumps, branches, stack and flags. -/
theorem exec_other_kept {i : Instr} (hr : readEffect i.mnemonic = none) (hs : storedRegister i.mnemonic = none)
    (hm : modifyEffect i.mnemonic = none) (s : State) : ∃ t, exec i s = .next t ∧ InstrKept s t := by
  have flag : ∀ {f : Flag} {b : Bool}, .u ≠ f → InstrKept s ((s.setFlag f b).charge 2) :=
    fun hf => ((InstrKept.refl s).setFlag hf _).charge 2
  cases i with
  | tax => exact ⟨_, rfl, (loadX_kept _ s).charge 2⟩
  | tay => exact ⟨_, rfl, (loadY_kept _ s).charge 2⟩
  | txa => exact ⟨_, rfl, (loadA_kept _ s).charge 2⟩
  | tya => exact ⟨_, rfl, (loadA_kept _ s).charge 2⟩
  | tsx => exact ⟨_, rfl, (loadX_kept _ s).charge 2⟩
  | txs => exact ⟨_, rfl, .ofCpu s { s.cpu with sp := s.cpu.x } 2 id⟩
  | inx => exact ⟨_, rfl, (loadX_kept _ s).charge 2⟩
  | iny => exact ⟨_, rfl, (loadY_kept _ s).charge 2⟩
  | dex => exact ⟨_, rfl, (loadX_kept _ s).charge 2⟩
  | dey => exact ⟨_, rfl, (loadY_kept _ s).charge 2⟩
  | jmpAbs a => exact ⟨_, rfl, jump_kept _ 3 s⟩
  | jmpInd a => exact ⟨_, rfl, jump_kept _ 5 s⟩
  | jsr a => exact ⟨_, rfl, call_kept a 6 s⟩
  | rts => exact ⟨_, rfl, returnFromCall_kept 6 s⟩
  | bcc d | bcs d | beq d | bne d | bmi d | bpl d | bvc d | bvs d => exact ⟨_, rfl, branch_kept _ d s⟩
  | pha => exact ⟨_, rfl, (push_instrKept _ s).charge 3⟩
  | pla => exact ⟨_, rfl, ((pull_instrKept s).trans (loadA_kept _ _)).charge 4⟩
  | php => exact ⟨_, rfl, (push_instrKept _ s).charge 3⟩
  | plp =>
    have hp : InstrKept (pull s).2 ((pull s).2.setP (withUnused (pull s).1)) :=
      .ofCpu _ { (pull s).2.cpu with p := withUnused (pull s).1 } (pull s).2.cost fun _ => by simp [getFlag_withUnused]
    exact ⟨_, rfl, ((pull_instrKept s).trans hp).charge 4⟩
  | clc | sec | cli | sei | cld | sed | clv => exact ⟨_, rfl, flag (by decide)⟩
  | nop => exact ⟨_, rfl, (InstrKept.refl s).charge 2⟩
  | brk => exact ⟨_, rfl, (enterHandler_kept _ _ _ _ s).charge 7⟩
  | rti => exact ⟨_, rfl, (returnFromInterrupt_kept s).charge 6⟩
  | _ => contradiction

/-- Every instruction answers a next state and leaves what `InstrKept` says, by its operand class (R124). -/
theorem exec_kept (i : Instr) (s : State) : ∃ t, exec i s = .next t ∧ InstrKept s t := by
  cases hr : readEffect i.mnemonic with
  | some op => exact ⟨_, exec_read hr s, readClass_kept (readEffect_kept hr) _ _ _ s⟩
  | none =>
    cases hs : storedRegister i.mnemonic with
    | some reg => exact ⟨_, exec_store hs s, writeClass_kept _ _ _ s⟩
    | none =>
      cases hm : modifyEffect i.mnemonic with
      | some op => exact ⟨_, exec_modify hm s, modifyClass_kept (modifyEffect_unused hm) _ _ s⟩
      | none => exact exec_other_kept hr hs hm s

/-! ### The invariant through the parts of a step -/

theorem PositionOk.of_eq {s t : State} (h : PositionOk s) (scanline : t.ppu.scanline = s.ppu.scanline)
    (cycle : t.ppu.cycle = s.ppu.cycle) : PositionOk t :=
  ⟨scanline ▸ h.low, scanline ▸ h.high, cycle ▸ h.cycle⟩

/-- The invariant speaks of the registers, the PPU, the memories and the cost alone. -/
theorem State.Inv.of_eq {s t : State} (h : s.Inv) (cpu : t.cpu = s.cpu) (ppu : t.ppu = s.ppu) (ram : t.ram = s.ram)
    (prgRam : t.prgRam = s.prgRam) (chr : t.chr = s.chr) (nt0 : t.nt0 = s.nt0) (nt1 : t.nt1 = s.nt1)
    (cost : t.cost = 0) : t.Inv where
  memories := h.memories.of_eq ram prgRam chr nt0 nt1 (ppu ▸ rfl) (ppu ▸ rfl) (ppu ▸ rfl) (ppu ▸ rfl)
  position := h.position.of_eq (ppu ▸ rfl) (ppu ▸ rfl)
  unused := cpu ▸ h.unused
  statusLow := ppu ▸ h.statusLow
  cost := cost

/-- An instruction keeps all of the invariant but the cost, which it sets to its cycles (log 7). -/
theorem InstrKept.inv {s t : State} (h : InstrKept s t) (k : s.Inv) : { t with cost := 0 }.Inv where
  memories := (h.memories k.memories).of_eq rfl rfl rfl rfl rfl rfl rfl rfl rfl
  position := k.position.of_eq h.outside.scanline h.outside.cycle
  unused := h.unused k.unused
  statusLow := h.statusLow k.statusLow
  cost := rfl

theorem TicksKept.inv {s t : State} (h : TicksKept s t) (k : s.Inv) : t.Inv where
  memories := h.memories k.memories
  position := h.position k.position
  unused := h.cpu ▸ k.unused
  statusLow := h.statusLow k.statusLow
  cost := h.cost.trans k.cost

theorem DispatchKept.inv {s t : State} (h : DispatchKept s t) (k : s.Inv) : t.Inv where
  memories := h.memories k.memories
  position := k.position.of_eq (h.ppu ▸ rfl) (h.ppu ▸ rfl)
  unused := h.unused k.unused
  statusLow := h.ppu ▸ k.statusLow
  cost := h.cost.trans k.cost

/-- What follows the instruction empties the cost and keeps the rest of the invariant (R331). -/
theorem afterInstruction_inv {s : State} (k : { s with cost := 0 }.Inv) : (afterInstruction s).Inv :=
  (dispatchCheck_kept _).inv ((spendCycles_kept s).inv (k.of_eq rfl rfl rfl rfl rfl rfl rfl rfl))

/-- Latching a fault after the fetch keeps the invariant (R351). -/
theorem latchFault_inv {s : State} (k : s.Inv) (pc : Word) (op : Byte) : (latchFault pc op (fetch s).2).Inv := by
  obtain ⟨h, hcost⟩ := fetch_kept s
  exact (h.inv k).of_eq rfl rfl rfl rfl rfl rfl rfl (hcost.trans k.cost)

/-! ### The statements -/

/-- Settles O39: the step is a fetch followed by a latched fault or by an instruction, the ticks and the dispatch check,
and each of these keeps the invariant, the cost being emptied with the ticks. -/
theorem stepKeepsInvariant : Obligations.StepKeepsInvariant := by
  intro s t hs h
  obtain ⟨-, ⟨op, -, rfl⟩ | ⟨i, u, -, hu, rfl⟩⟩ := step_next h
  · exact latchFault_inv hs s.cpu.pc op
  · obtain ⟨u', hu', hk⟩ := exec_kept i (fetch s).2
    obtain rfl : u' = u := Host.Outcome.next.inj (hu'.symm.trans hu)
    exact afterInstruction_inv (((fetch_kept s).1.trans hk).inv hs)

/-- Settles O11, from the closed forms of `push` and `pull`. -/
theorem pushAndPull : Obligations.PushAndPull := by
  intro v s
  have hslot := ofNat_stackSlot s.cpu.sp
  have hnext : BitVec.ofNat 16 (0x100 + (s.cpu.sp.toNat + 1) % 256) = stackAddr (s.cpu.sp + 1) := by
    rw [← sp_add_one_toNat, ofNat_stackSlot]
  rw [hslot, hnext]
  refine ⟨?_, ?_, ?_, push_memoryKeptBut v s, ?_, ?_, ?_, pull_push v s⟩
  · simp only [push_eq]
  · rw [push_eq]
    exact sp_sub_one_toNat _
  · rw [peek_stackAddr, push_eq]
    exact Memory.get_set_same
  · simp only [pull_eq]
  · rw [pull_eq]
    exact sp_add_one_toNat _
  · rw [pull_eq, peek_stackAddr]

/-- Settles O31, from `exec_kept`. -/
theorem everyInstructionCompletes : Obligations.EveryInstructionCompletes := by
  intro i s
  obtain ⟨t, ht, outside, memories, -, unused⟩ := exec_kept i s
  exact ⟨t, ht, outside, memories, unused⟩

/-- Settles O40: no memory lists anything at reset, and the registers hold the values of R47. -/
theorem resetInvariant : Obligations.ResetInvariant where
  memories := ⟨Memory.wf_nil, Memory.wf_nil, Memory.wf_nil, Memory.wf_nil, Memory.wf_nil, Memory.wf_nil, Memory.wf_nil,
    Memory.wf_nil, Memory.wf_nil⟩
  position := ⟨by decide, by decide, by decide⟩
  unused := by decide
  statusLow := by decide
  cost := rfl

end Sys2Proof.Machine

/-! The memory of the CPU and of the PPU: the bus by region, what the ports change, and the aliases of a written byte
(spec 20, 47, 48). -/

namespace Sys2Proof.Machine

/-! ### The stubbed and unmapped addresses -/

/-- Between the PPU ports and the cartridge a read answers 0, but at the two controller ports (R70). -/
theorem memRead_unmapped {a : Word} (h : 0x4000 ≤ a.toNat) (h' : a.toNat < 0x6000) (h16 : a.toNat ≠ 0x4016)
    (h17 : a.toNat ≠ 0x4017) (s : State) : memRead a s = (0, s) := by
  have hram : ¬ a.toNat < 0x2000 := by omega
  have hport : ¬ a.toNat < 0x4000 := by omega
  simp only [memRead, hram, hport, h16, h17, h', if_false, if_true]

/-- Between the PPU ports and the cartridge a write is swallowed, but at the DMA and the strobe address (R70). -/
theorem memWrite_unmapped {a : Word} (h : 0x4000 ≤ a.toNat) (h' : a.toNat < 0x6000) (h14 : a.toNat ≠ 0x4014)
    (h16 : a.toNat ≠ 0x4016) (v : Byte) (s : State) : memWrite a v s = s := by
  have hram : ¬ a.toNat < 0x2000 := by omega
  have hport : ¬ a.toNat < 0x4000 := by omega
  simp only [memWrite, hram, hport, h14, h16, h', if_false, if_true]

/-! ### What a read changes -/

/-- A data port read changes the buffer and the address alone (R239). -/
theorem readData_state (s : State) : (readData s).2 = { s with ppu := { s.ppu with
    readBuffer := (readData s).2.ppu.readBuffer, v := (readData s).2.ppu.v } } := by
  unfold readData
  by_cases h : s.ppu.dataAddress.toNat < 0x3F00
  · simp only [h, if_true, Ppu.vramIncrement]
  · simp only [h, if_false, Ppu.vramIncrement]

/-- Only the status and the data port have a read with side effects (R64). -/
theorem ppuPortRead_state_of_ne {p : Nat} (h2 : p ≠ 2) (h7 : p ≠ 7) (s : State) : (ppuPortRead p s).2 = s := by
  unfold ppuPortRead
  rw [if_neg h2, if_neg h7]
  split <;> rfl

/-- A controller port draws once (R71). -/
theorem memRead_controller_state {a : Word} (h : a.toNat = 0x4016 ∨ a.toNat = 0x4017) (s : State) :
    (memRead a s).2 = { s with draws := s.draws + 1 } := by
  rcases h with h | h <;> simp [memRead, h, controllerRead]

/-! ### The storage cells -/

/-- The addresses without storage are those of the ports, the stubs and the unmapped range (R63). -/
theorem storageCell_eq_none_iff {a : Word} {s : State} :
    storageCell a s = none ↔ 0x2000 ≤ a.toNat ∧ a.toNat < 0x6000 := by
  unfold storageCell
  split
  · exact iff_of_false (by simp) (by omega)
  split
  · exact iff_of_true rfl (by omega)
  split <;> exact iff_of_false (by simp) (by omega)

theorem storageCell_eq_ram_iff {a : Word} {s : State} {n : Nat} :
    storageCell a s = some (.ram n) ↔ a.toNat < 0x2000 ∧ a.toNat % 0x800 = n := by
  unfold storageCell
  split
  · simp only [Option.some.injEq, StorageCell.ram.injEq, *, true_and]
  split
  · exact iff_of_false (by simp) (by omega)
  split <;> exact iff_of_false (by simp) (by omega)

theorem storageCell_eq_prgRam_iff {a : Word} {s : State} {n : Nat} :
    storageCell a s = some (.prgRam n) ↔ 0x6000 ≤ a.toNat ∧ a.toNat < 0x8000 ∧ a.toNat - 0x6000 = n := by
  unfold storageCell
  split
  · exact iff_of_false (by simp) (by omega)
  split
  · exact iff_of_false (by simp) (by omega)
  split
  · rw [Option.some.injEq, StorageCell.prgRam.injEq]
    omega
  · exact iff_of_false (by simp) (by omega)

theorem storageCell_eq_prg_iff {a : Word} {s : State} {n : Nat} :
    storageCell a s = some (.prg n) ↔ 0x8000 ≤ a.toNat ∧ prgOffset s.cart.prgBanks a = n := by
  unfold storageCell
  split
  · exact iff_of_false (by simp) (by omega)
  split
  · exact iff_of_false (by simp) (by omega)
  split
  · exact iff_of_false (by simp) (by omega)
  · rw [Option.some.injEq, StorageCell.prg.injEq]
    omega

/-- Two addresses name one cell exactly when they are images of one another (R65, R68, R312). -/
theorem storageCell_eq_iff {a : Word} {s : State} (h : storageCell a s ≠ none) (b : Word) :
    storageCell b s = storageCell a s ↔
      (a.toNat < 0x2000 ∧ b.toNat < 0x2000 ∧ b.toNat % 2048 = a.toNat % 2048) ∨
      (0x6000 ≤ a.toNat ∧ a.toNat < 0x8000 ∧ b = a) ∨
      (0x8000 ≤ a.toNat ∧ 0x8000 ≤ b.toNat ∧ prgOffset s.cart.prgBanks b = prgOffset s.cart.prgBanks a) := by
  cases hc : storageCell a s with
  | none => contradiction
  | some c =>
    cases c with
    | ram n =>
      obtain ⟨ha, rfl⟩ := storageCell_eq_ram_iff.1 hc
      rw [storageCell_eq_ram_iff]
      omega
    | prgRam n =>
      obtain ⟨hlo, hhi, rfl⟩ := storageCell_eq_prgRam_iff.1 hc
      rw [storageCell_eq_prgRam_iff, ← BitVec.toNat_inj]
      omega
    | prg n =>
      obtain ⟨ha, rfl⟩ := storageCell_eq_prg_iff.1 hc
      rw [storageCell_eq_prg_iff]
      omega

/-- An address that is no port of R64's table is read without side effect. -/
theorem memRead_state_of_no_port {a : Word}
    (hp : ¬ (0x2000 ≤ a.toNat ∧ a.toNat < 0x4000 ∧ (a.toNat % 8 = 2 ∨ a.toNat % 8 = 7))) (h16 : a.toNat ≠ 0x4016)
    (h17 : a.toNat ≠ 0x4017) (s : State) : (memRead a s).2 = s := by
  by_cases hs : storageCell a s = none
  · obtain ⟨hlo, hhi⟩ := storageCell_eq_none_iff.1 hs
    by_cases hport : a.toNat < 0x4000
    · rw [memRead_port hlo hport]
      exact ppuPortRead_state_of_ne (by omega) (by omega) s
    · rw [memRead_unmapped (by omega) hhi h16 h17]
  · rw [memRead_of_storageCell hs]

/-! ### Read after write on the PPU bus -/

/-- The nametable slot and the offset in it of an address of 0x2000..0x3EFF, the second half repeating the first. -/
theorem ntOffset_slot_and_offset {n : Nat} (h : 0x2000 ≤ n) :
    (n - 0x2000) % 0x1000 / 0x400 = n / 0x400 % 4 ∧ (n - 0x2000) % 0x1000 % 0x400 = n % 0x400 := by omega

theorem ppuMemRead_pattern {a : PAddr} (h : a.toNat < 0x2000) (s : State) :
    ppuMemRead a s = Memory.get 0 s.chr a.toNat := if_pos h

theorem ppuMemRead_nametable {a : PAddr} (h : 0x2000 ≤ a.toNat) (h' : a.toNat < 0x3F00) (s : State) :
    ppuMemRead a s = Memory.get 0 (if ntPage s.mirroring (a.toNat / 0x400 % 4) then s.nt1 else s.nt0)
      (a.toNat % 0x400) := by
  obtain ⟨hslot, hoff⟩ := ntOffset_slot_and_offset h
  rw [ppuMemRead, if_neg (by omega), if_pos h', ntRead, hslot, hoff]

theorem ppuMemRead_palette {a : PAddr} (h : 0x3F00 ≤ a.toNat) (s : State) :
    ppuMemRead a s = Memory.get 0 s.ppu.palette (palIndex a) := by
  rw [ppuMemRead, if_neg (by omega), if_neg (by omega)]

theorem ppuMemWrite_pattern {a : PAddr} (h : a.toNat < 0x2000) (d : Byte) (s : State) :
    ppuMemWrite a d s = if s.cart.chrBanks = 0 then { s with chr := Memory.set 0 s.chr a.toNat d } else s := if_pos h

theorem ppuMemWrite_nametable {a : PAddr} (h : 0x2000 ≤ a.toNat) (h' : a.toNat < 0x3F00) (d : Byte) (s : State) :
    ppuMemWrite a d s =
      if ntPage s.mirroring (a.toNat / 0x400 % 4) then { s with nt1 := Memory.set 0 s.nt1 (a.toNat % 0x400) d }
      else { s with nt0 := Memory.set 0 s.nt0 (a.toNat % 0x400) d } := by
  obtain ⟨hslot, hoff⟩ := ntOffset_slot_and_offset h
  rw [ppuMemWrite, if_neg (by omega), if_pos h', ntWrite, hslot, hoff]

theorem ppuMemWrite_palette {a : PAddr} (h : 0x3F00 ≤ a.toNat) (d : Byte) (s : State) :
    ppuMemWrite a d s =
      { s with ppu := { s.ppu with palette := Memory.set 0 s.ppu.palette (palIndex a) d } } := by
  rw [ppuMemWrite, if_neg (by omega), if_neg (by omega)]

/-- The three regions of the PPU bus (R80). -/
theorem ppuRegion_cases (b : PAddr) :
    b.toNat < 0x2000 ∨ (0x2000 ≤ b.toNat ∧ b.toNat < 0x3F00) ∨ 0x3F00 ≤ b.toNat := by omega

/-- A pattern byte is read back at its own address, where the cartridge has CHR RAM (R81, R314). -/
theorem ppuMemRead_ppuMemWrite_pattern {a : PAddr} (h : a.toNat < 0x2000) (b : PAddr) (d : Byte) (s : State) :
    ppuMemRead b (ppuMemWrite a d s) = if s.cart.chrBanks = 0 ∧ b = a then d else ppuMemRead b s := by
  rw [ppuMemWrite_pattern h]
  by_cases hb : s.cart.chrBanks = 0
  · rw [if_pos hb]
    rcases ppuRegion_cases b with hr | ⟨hlo, hhi⟩ | hr
    · simp only [ppuMemRead_pattern hr, Memory.get_set, hb, true_and, BitVec.toNat_inj]
    · have hne : b ≠ a := by rintro rfl; omega
      simp only [ppuMemRead_nametable hlo hhi, hne, and_false, if_false]
    · have hne : b ≠ a := by rintro rfl; omega
      simp only [ppuMemRead_palette hr, hne, and_false, if_false]
  · simp only [hb, if_false, false_and]

/-- A nametable byte is read back at its offset in every slot of the same page (R301, R302). -/
theorem ppuMemRead_ppuMemWrite_nametable {a : PAddr} (h : 0x2000 ≤ a.toNat) (h' : a.toNat < 0x3F00) (b : PAddr)
    (d : Byte) (s : State) :
    ppuMemRead b (ppuMemWrite a d s) =
      if 0x2000 ≤ b.toNat ∧ b.toNat < 0x3F00 ∧
        (ntPage s.mirroring (b.toNat / 0x400 % 4)).toNat = (ntPage s.mirroring (a.toNat / 0x400 % 4)).toNat ∧
        b.toNat % 0x400 = a.toNat % 0x400 then d
      else ppuMemRead b s := by
  rw [ppuMemWrite_nametable h h']
  rcases ppuRegion_cases b with hr | ⟨hlo, hhi⟩ | hr
  · have hb : ¬ 0x2000 ≤ b.toNat := by omega
    simp only [hb, false_and, if_false, ppuMemRead_pattern hr]
    split <;> rfl
  · simp only [ppuMemRead_nametable hlo hhi, hlo, hhi, true_and]
    cases ntPage s.mirroring (a.toNat / 0x400 % 4) <;> cases hb : ntPage s.mirroring (b.toNat / 0x400 % 4) <;>
      simp [hb, Memory.get_set]
  · have hb : ¬ b.toNat < 0x3F00 := by omega
    simp only [hb, false_and, and_false, if_false, ppuMemRead_palette hr]
    split <;> rfl

/-- A palette byte is read back at every address of its entry (R79). -/
theorem ppuMemRead_ppuMemWrite_palette {a : PAddr} (h : 0x3F00 ≤ a.toNat) (b : PAddr) (d : Byte) (s : State) :
    ppuMemRead b (ppuMemWrite a d s) = if 0x3F00 ≤ b.toNat ∧ palIndex b = palIndex a then d else ppuMemRead b s := by
  rw [ppuMemWrite_palette h]
  rcases ppuRegion_cases b with hr | ⟨hlo, hhi⟩ | hr
  · rw [if_neg (by omega), ppuMemRead_pattern hr, ppuMemRead_pattern hr]
  · rw [if_neg (by omega), ppuMemRead_nametable hlo hhi, ppuMemRead_nametable hlo hhi]
  · simp only [ppuMemRead_palette hr, Memory.get_set, hr, true_and]

/-! ### The page and the entry in natural numbers -/

/-- The page of a slot as a number (R301). -/
theorem ntPage_toNat {slot : Nat} (h : slot < 4) (m : Mirroring) :
    (ntPage m slot).toNat = match m with
      | .horizontal => slot / 2
      | .vertical => slot % 2
      | .singleLower => 0
      | .singleUpper => 1 := by
  cases m <;> revert h slot <;> decide

/-- The palette entry with its four aliases listed (R79). -/
theorem palIndex_eq (a : PAddr) :
    palIndex a = if a.toNat % 32 = 0x10 ∨ a.toNat % 32 = 0x14 ∨ a.toNat % 32 = 0x18 ∨ a.toNat % 32 = 0x1C
      then a.toNat % 16 else a.toNat % 32 := by
  simp only [palIndex]
  split <;> split <;> omega

/-! ### The statements -/

/-- Settles O6, from the rules of the unmapped range. -/
theorem stubbedAddresses : Obligations.StubbedAddresses := fun a v s =>
  ⟨fun h => memRead_unmapped (by omega) (by omega) (by omega) (by omega) s,
    fun h => memWrite_unmapped (by omega) (by omega) (by omega) (by omega) v s⟩

/-- Settles O5, from the rules of a read and a write of RAM, whose key is the address modulo 2048. -/
theorem ramMirrored : Obligations.RamMirrored := by
  intro a b v s ha hb
  rw [memRead_ram ha, memRead_ram hb, memWrite_ram ha, memRead_ram hb]
  refine ⟨rfl, rfl, fun h => ?_, fun h => Memory.get_set_other h.symm⟩
  rw [h]
  exact ⟨rfl, by rw [Memory.get_set_same]⟩

/-- Settles O8: the ports one by one, and `memRead_of_storageCell` where there is storage. -/
theorem readSideEffects : Obligations.ReadSideEffects := by
  intro a v s
  refine ⟨?_, ?_, fun h => memRead_controller_state h s, fun hp h16 h17 => memRead_state_of_no_port hp h16 h17 s, rfl,
    storageCell_eq_none_iff, fun h => ⟨memRead_of_storageCell h, storageCell_eq_iff h⟩⟩
  · rintro ⟨hlo, hhi, hp⟩
    rw [memRead_port hlo hhi, hp]
    rfl
  · rintro ⟨hlo, hhi, hp⟩
    rw [memRead_port hlo hhi, hp]
    exact readData_state s

/-- Settles O49, by the region of the PPU bus that the write addresses. -/
theorem ppuMemoryAliasing : Obligations.PpuMemoryAliasing := by
  intro a b d s page entry hpage hentry
  have page_eq (n : Nat) : page n = (ntPage s.mirroring (n / 0x400 % 4)).toNat := by
    rw [ntPage_toNat (Nat.mod_lt _ (by decide)), hpage]
    cases s.mirroring with
    | horizontal | singleLower | singleUpper => rfl
    | vertical => exact (Nat.mod_mod_of_dvd _ (by decide)).symm
  have entry_eq (c : PAddr) : entry c.toNat = palIndex c := by rw [palIndex_eq, hentry]
  rw [page_eq, page_eq, entry_eq, entry_eq]
  rcases ppuRegion_cases a with h | ⟨h, h'⟩ | h
  · rw [ppuMemRead_ppuMemWrite_pattern h]
    exact if_congr (by rw [← BitVec.toNat_inj]; omega) rfl rfl
  · rw [ppuMemRead_ppuMemWrite_nametable h h']
    exact if_congr (by omega) rfl rfl
  · rw [ppuMemRead_ppuMemWrite_palette h]
    exact if_congr (by omega) rfl rfl

end Sys2Proof.Machine

/-! The encoding and what runs an instruction: decoding against encoding, the effective addresses, the cycle counts, and
the step (spec 30, 49). -/

namespace Sys2Proof

/-! ### The decoder -/

theorem opRow_mem {op : Byte} {r : OpRow} (h : opRow op = some r) : r ∈ opTable := List.mem_of_find?_eq_some h

theorem opRow_opcode {op : Byte} {r : OpRow} (h : opRow op = some r) : r.opcode = op := by
  simpa using List.find?_some h

theorem decode_of_row {op : Byte} {r : OpRow} (h : opRow op = some r) (bs : List Byte) :
    decode (op :: bs) = r.format.read bs := by
  simp only [decode, h]

theorem decode_of_no_row {op : Byte} (h : opRow op = none) (bs : List Byte) :
    decode (op :: bs) = .error (.undefinedOpcode op) := by
  simp only [decode, h]

/-- What decodes is an opcode byte with a row, and bytes that the row's format reads. -/
theorem decode_eq_ok {bs rest : List Byte} {i : Instr} (h : decode bs = .ok (i, rest)) :
    ∃ op r ops, bs = op :: ops ∧ opRow op = some r ∧ r.format.read ops = .ok (i, rest) := by
  cases bs with
  | nil => cases h
  | cons op ops =>
    cases hr : opRow op with
    | none => rw [decode_of_no_row hr] at h; cases h
    | some r => exact ⟨op, r, ops, rfl, hr, decode_of_row hr ops ▸ h⟩

/-- The row of an instruction's opcode byte reads the instruction from its operand bytes and leaves the bytes after
them. -/
theorem opRow_read_operand (i : Instr) (rest : List Byte) :
    ∃ r, opRow i.opcode = some r ∧ r.format.read (i.operand.bytes ++ rest) = .ok (i, rest) := by
  obtain ⟨r, hrow, -, -, hread⟩ := Laws.encoded_of_every_instruction i
  refine ⟨r, hrow, ?_⟩
  split at hread
  next hf hb => rw [hf, hb, ← hread]; rfl
  next hf hb => rw [hf, hb, ← hread]; rfl
  next hf hb => rw [hf, hb, ← hread]; rfl
  next => exact hread.elim

/-- The instruction a format makes of two bytes, as many of them as it takes (R100). -/
def Format.build : Format → Byte → Byte → Instr
  | .f1 i, _, _ => i
  | .f2 f, d, _ => f d
  | .f3 f, lo, hi => f (Machine.wordOf lo hi)

/-- Two bytes are enough for every format, and no value of them is refused (R121). -/
theorem Format.read_pair (f : Format) (b1 b2 : Byte) : ∃ rest, f.read [b1, b2] = .ok (f.build b1 b2, rest) := by
  cases f <;> exact ⟨_, rfl⟩

/-- Whatever a format reads, it builds from two bytes. -/
theorem Format.exists_build_of_read {f : Format} {ops rest : List Byte} {i : Instr} (h : f.read ops = .ok (i, rest)) :
    ∃ b1 b2, f.build b1 b2 = i := by
  cases f with
  | f1 j =>
    cases h
    exact ⟨0, 0, rfl⟩
  | f2 f =>
    match ops, h with
    | d :: _, rfl => exact ⟨d, 0, rfl⟩
  | f3 f =>
    match ops, h with
    | lo :: hi :: _, rfl => exact ⟨lo, hi, rfl⟩

end Sys2Proof

namespace Sys2Proof.Machine

/-! ### The opcode map against the encoder and the list of undefined bytes -/

/-- What a row's format reads is encoded as the row's opcode and the bytes read. -/
theorem RowOk.encode_of_read {r : OpRow} (hr : RowOk r) {ops rest : List Byte} {i : Instr}
    (h : r.format.read ops = .ok (i, rest)) : r.opcode :: ops = encode i ++ rest := by
  obtain ⟨op, n, pen, f⟩ := r
  cases f with
  | f1 j =>
    cases h
    exact congrArg (· ++ ops) (Eq.symm hr)
  | f2 f =>
    match ops, h with
    | d :: _, rfl => exact congrArg (· ++ rest) (hr d).symm
  | f3 f =>
    match ops, h with
    | lo :: hi :: _, rfl => exact congrArg (· ++ rest) (hr lo hi).symm

/-- The bytes with no row are the listed ones (R120), byte by byte; opcodes are compared as numbers, which is cheap to
check. -/
theorem opRow_eq_none_iff (op : Byte) : opRow op = none ↔ undefinedOpcode op = true := by
  have listed : ∀ op : Byte, (opTable.all fun r => !(r.opcode.toNat.beq op.toNat)) = undefinedOpcode op := by decide
  rw [← listed op, opRow, List.find?_eq_none, List.all_eq_true]
  refine forall₂_congr fun r _ => ?_
  rw [Bool.not_eq_true', ← Bool.not_eq_true, Nat.beq_eq, beq_iff_eq, BitVec.toNat_inj]

/-! ### Effective addresses in natural numbers -/

/-- A zero-page sum wraps in the zero page (R107, R108, R113). -/
theorem zext16_add_toNat (d x : Byte) : (zext16 (d + x)).toNat = (d.toNat + x.toNat) % 256 := by
  rw [zext16_toNat, BitVec.toNat_add]

/-- A zero-page address from its number. -/
theorem ofNat_eq_zext16 (z : Byte) : BitVec.ofNat 16 z.toNat = zext16 z := by
  rw [← zext16_toNat, BitVec.ofNat_toNat, BitVec.setWidth_eq]

/-- An indexed address wraps at 65536 (R110, R111, R114). -/
theorem indexedAddr_addr_toNat (base : Word) (x : Byte) (s : State) :
    (indexedAddr base x s).addr.toNat = (base.toNat + x.toNat) % 65536 := by
  rw [indexedAddr, BitVec.toNat_add, zext16_toNat]

/-- An indexed address crosses when base and sum differ in their high byte (R110, R111, R114). -/
theorem indexedAddr_crossed (base : Word) (x : Byte) (s : State) : (indexedAddr base x s).crossed =
    decide (base.toNat / 256 ≠ (base.toNat + x.toNat) % 65536 / 256) := by
  rw [← indexedAddr_addr_toNat base x s, ← pageDiffers_eq]
  rfl

/-- A branch target in integers: the offset is signed, the sum wraps (R115). -/
theorem branchTarget_toNat (d : Byte) (s : State) : ((branchTarget d s).toNat : Int) =
    ((s.cpu.pc.toNat : Int) + (if d.toNat < 128 then (d.toNat : Int) else (d.toNat : Int) - 256)) % 65536 := by
  have hd : d.toInt = if d.toNat < 128 then (d.toNat : Int) else (d.toNat : Int) - 256 := by
    rw [BitVec.toInt_eq_toNat_cond]
    exact if_congr (by omega) rfl rfl
  rw [branchTarget, hd, BitVec.toNat_ofInt]
  omega

/-- The pointer of the high byte in `JMP (ind)`, by its number (R112). -/
theorem indirectHigh_toNat (wrap : Bool) (p : Word) : (indirectHigh wrap p).toNat =
    if wrap then p.toNat / 256 * 256 + (p.toNat + 1) % 256 else (p.toNat + 1) % 65536 := by
  cases wrap with
  | false => exact BitVec.toNat_add p 1
  | true =>
    have h : (loByte p + 1).toNat = (p.toNat + 1) % 256 := by
      rw [BitVec.toNat_add, loByte_toNat]
      exact Nat.mod_add_mod _ _ _
    rw [indirectHigh, if_pos rfl, if_pos rfl, wordOf_toNat, h, hiByte_toNat]

/-- The zero-page pointer by the numbers of its two cells (R113, R114). -/
theorem zeroPagePointer_ofNat {z : Byte} {n : Nat} (h : z.toNat = n % 256) (s : State) : zeroPagePointer z s =
    (wordOf (peek (BitVec.ofNat 16 (n % 256)) s) (peek (BitVec.ofNat 16 ((n + 1) % 256)) s), s) := by
  have h1 : (z + 1).toNat = (n + 1) % 256 := by
    rw [BitVec.toNat_add, h]
    exact Nat.mod_add_mod _ _ _
  rw [zeroPagePointer_eq, ← ofNat_eq_zext16, ← ofNat_eq_zext16, h, h1]

/-! ### Cycles -/

/-- The cycles of the instructions of no memory class; those of a branch are its base cycles (R190). -/
def otherCycles : Instr → Nat
  | .jmpAbs _ | .pha | .php => 3
  | .pla | .plp => 4
  | .jmpInd _ => 5
  | .jsr _ | .rts | .rti => 6
  | .brk => 7
  | _ => 2

/-- The base cycles and the `+` mark of an instruction by its operand class (R124), as `exec` charges them. -/
def rowCost (i : Instr) : Nat × Bool :=
  match readEffect i.mnemonic, storedRegister i.mnemonic, modifyEffect i.mnemonic with
  | some _, _, _ => (readCycles i.operand, readPenalty i.operand)
  | none, some _, _ => (writeCycles i.operand, false)
  | none, none, some _ => (modifyCycles i.operand, false)
  | none, none, none => (otherCycles i, false)

/-- The opcode map against the operand classes, row by row and for all operand bytes. -/
theorem opTable_rowCost : ∀ r ∈ opTable, ∀ b1 b2, rowCost (r.format.build b1 b2) = (r.cycles, r.pagePenalty) := by
  repeat refine List.forall_mem_cons.2 ⟨fun _ _ => rfl, ?_⟩
  exact List.forall_mem_nil _

/-- The cycles and the mark of an instruction's row are those of its operand class (R117, R118). -/
theorem rowCost_eq (i : Instr) : rowCost i = (i.baseCycles, i.pagePenalty) := by
  obtain ⟨r, hrow, hread⟩ := opRow_read_operand i []
  obtain ⟨b1, b2, hbuild⟩ := Format.exists_build_of_read hread
  simp only [Instr.baseCycles, Instr.pagePenalty, hrow]
  exact hbuild ▸ opTable_rowCost r (opRow_mem hrow) b1 b2

/-- Every row costs at least 2 and, with its page penalty, at most 7 (R118). -/
theorem opTable_cycles : ∀ r ∈ opTable, 2 ≤ r.cycles ∧ r.cycles + bitNat r.pagePenalty ≤ 7 := by
  have h : (opTable.all fun r => decide (2 ≤ r.cycles ∧ r.cycles + bitNat r.pagePenalty ≤ 7)) = true := by decide
  simpa using h

theorem costOf_bounds (i : Instr) (crossed : Bool) :
    2 ≤ costOf i.baseCycles i.pagePenalty crossed ∧ costOf i.baseCycles i.pagePenalty crossed ≤ 7 := by
  obtain ⟨r, hrow, -⟩ := opRow_read_operand i []
  obtain ⟨low, high⟩ := opTable_cycles r (opRow_mem hrow)
  have hpen : bitNat (r.pagePenalty && crossed) ≤ bitNat r.pagePenalty := by
    cases r.pagePenalty <;> cases crossed <;> decide
  simp only [costOf, Instr.baseCycles, Instr.pagePenalty, hrow]
  omega

theorem costOf_eq (base : Nat) (penalty crossed : Bool) :
    costOf base penalty crossed = base + if penalty = true ∧ crossed = true then 1 else 0 := by
  cases penalty <;> cases crossed <;> rfl

theorem branched_cost_bounds (taken : Bool) (d : Byte) (s : State) :
    2 ≤ (branched taken d s).cost ∧ (branched taken d s).cost ≤ 4 := by
  unfold branched
  split
  · dsimp only
    split <;> decide
  · show 2 ≤ 2 ∧ 2 ≤ 4
    decide

theorem modifyClass_cost (op : Byte → Byte → Byte × Byte) (o : Operand) (base : Nat) (s : State) :
    (modifyClass op o base s).cost = base := by
  cases o <;> rfl

/-- A branch is the common branch rule, at base cost 2 (R190). -/
theorem exec_branch {i : Instr} {d : Byte} (h : i.operand = .rel d) (s : State) :
    rowCost i = (2, false) ∧ ∃ taken, exec i s = .next (branched taken d s) := by
  cases i with
  | bcc _ | bcs _ | beq _ | bne _ | bmi _ | bpl _ | bvc _ | bvs _ =>
    cases h
    exact ⟨rfl, _, congrArg _ (branch_eq _ d s)⟩
  | _ => cases h

/-- The instructions of no memory class, but for the branches: a fixed cost. -/
theorem exec_other_cost {i : Instr} (hr : readEffect i.mnemonic = none) (hs : storedRegister i.mnemonic = none)
    (hm : modifyEffect i.mnemonic = none) (hb : ∀ d, i.operand ≠ .rel d) (s : State) :
    ∃ t, exec i s = .next t ∧ t.cost = otherCycles i := by
  cases i with
  | tax | tay | txa | tya | tsx | txs | inx | iny | dex | dey | jmpAbs _ | jmpInd _ | jsr _ | rts | pha | pla | php
  | plp | clc | sec | cli | sei | cld | sed | clv | nop | brk | rti => exact ⟨_, rfl, rfl⟩
  | bcc d | bcs d | beq d | bne d | bmi d | bpl d | bvc d | bvs d => exact absurd rfl (hb d)
  | _ => contradiction

/-- Outside the branches an instruction costs its base cycles, and one more when it has the mark and crossed a page
(R117), by its operand class. -/
theorem exec_cost {i : Instr} (hb : ∀ d, i.operand ≠ .rel d) (s : State) :
    ∃ t, exec i s = .next t ∧ t.cost = costOf (rowCost i).1 (rowCost i).2 (resolve i.operand s).crossed := by
  unfold rowCost
  cases hr : readEffect i.mnemonic with
  | some op => exact ⟨_, exec_read hr s, rfl⟩
  | none =>
    cases hs : storedRegister i.mnemonic with
    | some reg => exact ⟨_, exec_store hs s, rfl⟩
    | none =>
      cases hm : modifyEffect i.mnemonic with
      | some op => exact ⟨_, exec_modify hm s, modifyClass_cost op i.operand _ s⟩
      | none => exact exec_other_cost hr hs hm hb s

/-! ### The statements -/

/-- Settles O2: the row of the instruction's opcode byte reads it back from its operand bytes. -/
theorem decodeOfEncode : Obligations.DecodeOfEncode := by
  intro i rest _
  obtain ⟨r, hrow, hread⟩ := opRow_read_operand i rest
  exact (decode_of_row hrow _).trans hread

/-- Settles O3: what decodes was read by a row of the opcode map, and every row agrees with the encoder. -/
theorem encodeOfDecode : Obligations.EncodeOfDecode := by
  intro bs rest i h
  obtain ⟨op, r, ops, rfl, hrow, hread⟩ := decode_eq_ok h
  rw [← opRow_opcode hrow]
  exact (opTable_rowOk r (opRow_mem hrow)).encode_of_read hread

/-- Settles O4: the listed bytes are those with no row, and two bytes are enough for every row's format. -/
theorem undefinedOpcodesRefused : Obligations.UndefinedOpcodesRefused := by
  intro op b1 b2
  rw [← Bool.not_eq_true, ← opRow_eq_none_iff]
  refine ⟨fun h => decode_of_no_row h _, fun h => ?_⟩
  obtain ⟨r, hrow⟩ := Option.ne_none_iff_exists'.1 h
  obtain ⟨rest, hread⟩ := r.format.read_pair b1 b2
  exact ⟨_, rest, (decode_of_row hrow _).trans hread⟩

/-- Settles O9, mode by mode. -/
theorem directAddressing : Obligations.DirectAddressing := by
  intro d a s
  refine ⟨⟨zext16_toNat d, rfl, rfl⟩, ⟨zext16_add_toNat _ _, rfl, rfl⟩, ⟨zext16_add_toNat _ _, rfl, rfl⟩,
    ⟨rfl, rfl, rfl⟩,
    ⟨indexedAddr_addr_toNat a _ s, indexedAddr_crossed a _ s, rfl⟩,
    ⟨indexedAddr_addr_toNat a _ s, indexedAddr_crossed a _ s, rfl⟩, ⟨?_, rfl, rfl⟩, rfl, rfl, ?_⟩
  · rw [resolve_rel_addr, branchTarget_toNat]
  · simp only [List.forall_mem_cons]
    exact ⟨rfl, rfl, rfl, rfl, rfl, rfl, rfl, rfl, List.forall_mem_nil _⟩

/-- Settles O10, from the closed form of a zero-page pointer and the number of the second pointer of `JMP (ind)`. -/
theorem pointerAddressing : Obligations.PointerAddressing := by
  intro d p s
  refine ⟨?_, fun base hbase => ?_, fun p2 hp2 => ?_, fun h => by have := p.isLt; omega⟩
  · have hz := zeroPagePointer_ofNat (BitVec.toNat_add d s.cpu.x) s
    simp only [resolve, hz, and_self]
  · have hz : zeroPagePointer d s = (base, s) := by
      rw [hbase, zeroPagePointer_ofNat (Nat.mod_eq_of_lt d.isLt).symm, Nat.mod_eq_of_lt d.isLt]
    simp only [resolve, hz]
    exact ⟨indexedAddr_addr_toNat base _ s, indexedAddr_crossed base _ s, rfl⟩
  · have h2 : indirectHigh s.params.jmpIndirectPageWrap p = p2 :=
      BitVec.eq_of_toNat_eq ((indirectHigh_toNat _ p).trans hp2.symm)
    simp only [resolve, h2, and_self]

/-- Settles O32: a branch is `branched`; every other instruction charges the cost of its operand class, which is that
of its row. -/
theorem instructionCycles : Obligations.InstructionCycles := by
  intro i s
  by_cases hb : ∀ d, i.operand ≠ .rel d
  · obtain ⟨t, ht, hc⟩ := exec_cost hb s
    rw [rowCost_eq] at hc
    obtain ⟨low, high⟩ := costOf_bounds i (resolve i.operand s).crossed
    exact ⟨t, ht, hc ▸ low, hc ▸ high, fun _ => hc.trans (costOf_eq _ _ _), fun d hd => absurd hd (hb d)⟩
  · obtain ⟨d, hd⟩ := not_forall_not.1 hb
    obtain ⟨hrow, taken, ht⟩ := exec_branch hd s
    obtain ⟨hbase, hpen⟩ := Prod.mk.inj ((rowCost_eq i).symm.trans hrow)
    obtain ⟨low, high⟩ := branched_cost_bounds taken d s
    refine ⟨_, ht, low, by omega, fun h => absurd hd (h d), fun e he => ?_⟩
    obtain rfl : d = e := Operand.rel.inj (hd.symm.trans he)
    exact ⟨hbase, hpen, taken, rfl⟩

/-- Settles O1: each word is looked up in the opcode map. -/
theorem decodeOfSpecWords : Obligations.DecodeOfSpecWords :=
  ⟨rfl, rfl, rfl, rfl, rfl, rfl, rfl, rfl, rfl, rfl, rfl, rfl, rfl⟩

/-- Settles O33, from the two laws of `fetchBytes`. -/
theorem stepRunsTheDecodedInstruction : Obligations.StepRunsTheDecodedInstruction := by
  intro s i n hf hd
  refine ⟨fun t ht => ?_, fetchBytes_of_storage⟩
  simp only [step, hf, fetch_of_fetchBytes hd, ht]
  rfl

end Sys2Proof.Machine

/-! Loads, stores and transfers (spec 40): the read class and the write class of R124 run on a whole instruction, and a
bus write where there is storage. -/

namespace Sys2Proof.Machine

/-! ### Loading a register -/

theorem loadA_eq (v : Byte) (s : State) :
    loadA v s = { s with cpu := { s.cpu with a := v, p := setZN v s.cpu.p } } := rfl

theorem loadX_eq (v : Byte) (s : State) :
    loadX v s = { s with cpu := { s.cpu with x := v, p := setZN v s.cpu.p } } := rfl

theorem loadY_eq (v : Byte) (s : State) :
    loadY v s = { s with cpu := { s.cpu with y := v, p := setZN v s.cpu.p } } := rfl

/-! ### The read and the write class on an instruction -/

/-- A read-class instruction whose operation gives the CPU registers `c`: what the read of the operand leaves, the
registers `c`, and the cost of the mode. -/
theorem exec_read_eq {i : Instr} {op : Byte → State → State} {s : State} {c : Cpu}
    (h : readEffect i.mnemonic = some op)
    (hc : ∀ t : State, t.cpu = s.cpu → t.params = s.params →
      op (readOperand i.operand s).1 t = { t with cpu := c }) :
    exec i s = .next { (readOperand i.operand s).2 with cpu := c, cost := readCost i.operand s } := by
  rw [exec_read h, readClass_eq _ _ _ s c hc, costOf_read]

/-- No store has an indirect operand. -/
theorem store_operand_ne_ind {i : Instr} {reg : Cpu → Byte} (h : storedRegister i.mnemonic = some reg) (p : Word) :
    i.operand ≠ .ind p :=
  operand_ne_ind (fun hj => by rw [hj] at h; contradiction) p

/-- A store is one bus write of its register, at the cost of the mode. -/
theorem exec_store_eq {i : Instr} {reg : Cpu → Byte} (h : storedRegister i.mnemonic = some reg) (s : State) :
    exec i s = .next ((memWrite (resolve i.operand s).addr (reg s.cpu) s).charge (writeCycles i.operand)) := by
  rw [exec_store h, writeClass_eq (store_operand_ne_ind h)]
  rfl

/-! ### A bus write where there is storage -/

@[simp] theorem peek_charge (a : Word) (n : Nat) (s : State) : peek a (s.charge n) = peek a s :=
  peek_congr rfl rfl rfl a

/-- Where there is storage a bus write touches no port (R65, R68, R313). -/
theorem memWrite_of_storageCell {a : Word} {s : State} (h : storageCell a s ≠ none) (v : Byte) :
    (memWrite a v s).ppu = s.ppu ∧ (memWrite a v s).stall = s.stall ∧ (memWrite a v s).handed = s.handed := by
  obtain ⟨cell, hc⟩ := Option.ne_none_iff_exists'.1 h
  cases cell with
  | ram n =>
    obtain ⟨ha, -⟩ := storageCell_eq_ram_iff.1 hc
    rw [memWrite_ram ha]
    exact ⟨rfl, rfl, rfl⟩
  | prgRam n =>
    obtain ⟨hlo, hhi, -⟩ := storageCell_eq_prgRam_iff.1 hc
    rw [memWrite_prgRam hlo hhi]
    exact ⟨rfl, rfl, rfl⟩
  | prg n =>
    obtain ⟨ha, -⟩ := storageCell_eq_prg_iff.1 hc
    rw [memWrite_prg ha]
    exact ⟨rfl, rfl, rfl⟩

/-! ### The statements -/

/-- Settles O12: the three loads are read-class instructions whose operation writes one register and `SetZN`. -/
theorem loadsFillTheirRegister : Obligations.LoadsFillTheirRegister := by
  intro i s
  refine ⟨fun h => ?lda, fun h => ?ldx, fun h => ?ldy, (readOperand_kept i.operand s).memory⟩
  case lda =>
    exact ⟨_, zNOf_setZN _ _, exec_read_eq (congrArg readEffect h) fun t ht _ => by rw [loadA_eq, ht]⟩
  case ldx =>
    exact ⟨_, zNOf_setZN _ _, exec_read_eq (congrArg readEffect h) fun t ht _ => by rw [loadX_eq, ht]⟩
  case ldy =>
    exact ⟨_, zNOf_setZN _ _, exec_read_eq (congrArg readEffect h) fun t ht _ => by rw [loadY_eq, ht]⟩

/-- Settles O13: a store is one bus write, so its frame and its read-back are those of the bus. -/
theorem storesWriteOneByte : Obligations.StoresWriteOneByte := by
  intro i s r h
  obtain ⟨reg, hreg, rfl⟩ : ∃ reg, storedRegister i.mnemonic = some reg ∧ r = reg s.cpu := by
    obtain ⟨hm, hr⟩ | ⟨hm, hr⟩ | ⟨hm, hr⟩ := h
    · exact ⟨Cpu.a, congrArg storedRegister hm, hr⟩
    · exact ⟨Cpu.x, congrArg storedRegister hm, hr⟩
    · exact ⟨Cpu.y, congrArg storedRegister hm, hr⟩
  refine ⟨_, exec_store_eq hreg s, rfl, memWrite_cpu _ _ s, fun a ha => ?frame, fun hea => ?stored,
    fun hcell => memWrite_of_storageCell hcell _⟩
  case frame => rw [peek_charge, memWrite_memoryKeptBut _ _ s a ha]
  case stored =>
    have hcell : storageCell (resolve i.operand s).addr s ≠ none := storageCell_eq_none_iff.not.2 (by omega)
    rw [peek_charge, peek_memWrite_same rfl (by omega) hcell]

/-- Settles O14: a transfer is the load of its register from another, without an operand; `TXS` is `SP <- X` alone. -/
theorem transfersCopyRegisters : Obligations.TransfersCopyRegisters := fun _ =>
  ⟨⟨rfl, _, zNOf_setZN _ _, rfl⟩, ⟨rfl, _, zNOf_setZN _ _, rfl⟩, ⟨rfl, _, zNOf_setZN _ _, rfl⟩,
    ⟨rfl, _, zNOf_setZN _ _, rfl⟩, ⟨rfl, _, zNOf_setZN _ _, rfl⟩, ⟨rfl, rfl⟩⟩

end Sys2Proof.Machine

/-! Arithmetic and compare (spec 41): the sum and the difference of two bytes with carry, binary and decimal, with the
flags they set; the compares; the read-modify-write class on a whole instruction. -/

namespace Sys2Proof.Machine

/-! ### The four flags of an addition or a subtraction -/

/-- `p'` is `p` after an operation that writes Carry, Overflow, Zero and Negative and no other flag. -/
def CVZNOf (c v z n : Bool) (p p' : Byte) : Prop :=
  getFlag .c p' = c ∧ getFlag .v p' = v ∧ getFlag .z p' = z ∧ getFlag .n p' = n ∧
    ∀ f, f ≠ .c → f ≠ .v → f ≠ .z → f ≠ .n → getFlag f p' = getFlag f p

theorem cVZNOf_putFlag (c v z n : Bool) (p : Byte) :
    CVZNOf c v z n p (putFlag .c c (putFlag .v v (putFlag .n n (putFlag .z z p)))) := by
  refine ⟨?carry, ?overflow, ?zero, ?negative, fun f hc hv hz hn => ?others⟩
  case others => simp [getFlag_putFlag, hc, hv, hz, hn]
  all_goals simp [getFlag_putFlag]

theorem cVZNOf_setZN (c v : Bool) (r p : Byte) :
    CVZNOf c v (decide (r = 0)) (decide (128 ≤ r.toNat)) p (setZN r (putFlag .v v (putFlag .c c p))) := by
  obtain ⟨hz, hn, hothers⟩ := zNOf_setZN r (putFlag .v v (putFlag .c c p))
  refine ⟨?carry, ?overflow, hz, hn, fun f h1 h2 h3 h4 => ?others⟩
  case carry => simp [hothers, getFlag_putFlag]
  case overflow => simp [hothers]
  case others => simp [hothers, getFlag_putFlag, h1, h2, h3, h4]

/-- The spec's overflow expression (R161): the operands have one sign and the result has the other. -/
theorem overflow_eq (a m r : Byte) : ((a ^^^ r) &&& (m ^^^ r) &&& 0x80 != 0) =
    decide ((128 ≤ a.toNat ↔ 128 ≤ m.toNat) ∧ ¬ (128 ≤ a.toNat ↔ 128 ≤ r.toNat)) := by
  have bit7 : ∀ x : Byte, (x &&& 0x80 != 0) = x.getLsbD 7 := by decide
  rw [bit7, BitVec.getLsbD_and, BitVec.getLsbD_xor, BitVec.getLsbD_xor]
  simp only [byte_getLsbD_7]
  rw [Bool.eq_iff_iff]
  simp only [Bool.and_eq_true, bne_iff_ne, ne_eq, decide_eq_decide, decide_eq_true_eq]
  tauto

/-- A byte as a signed number. -/
theorem byte_toInt (b : Byte) : b.toInt = if 128 ≤ b.toNat then (b.toNat : Int) - 256 else b.toNat := by
  rw [BitVec.toInt_eq_toNat_cond]
  split <;> split <;> omega

theorem bitNat_le_one (b : Bool) : bitNat b ≤ 1 := by cases b <;> decide

/-! ### Binary addition and subtraction -/

theorem adcBinary_result (a m p : Byte) :
    (adcBinary a m p).1 = BitVec.ofNat 8 (a.toNat + m.toNat + bitNat (getFlag .c p)) := rfl

/-- R150, R161: the flags of a binary addition, in natural numbers and, for Overflow, in signed ones. -/
theorem adcBinary_flags (a m p : Byte) {c : Nat} (hc : c = bitNat (getFlag .c p)) :
    CVZNOf (decide (255 < a.toNat + m.toNat + c)) (decide (a.toInt + m.toInt + c < -128 ∨ 127 < a.toInt + m.toInt + c))
      (decide ((a.toNat + m.toNat + c) % 256 = 0)) (decide (128 ≤ (a.toNat + m.toNat + c) % 256)) p
      (adcBinary a m p).2 := by
  have hc1 : c ≤ 1 := hc ▸ bitNat_le_one _
  have hr : (BitVec.ofNat 8 (a.toNat + m.toNat + c)).toNat = (a.toNat + m.toNat + c) % 256 := BitVec.toNat_ofNat ..
  rw [adcBinary, ← hc]
  obtain ⟨hC, hV, hZ, hN, hothers⟩ := cVZNOf_setZN (decide (0xFF < a.toNat + m.toNat + c)) _ _ p
  refine ⟨hC, hV.trans ?overflow, hZ.trans ?zero, hN.trans (by rw [hr]), hothers⟩
  case overflow =>
    rw [overflow_eq, hr, byte_toInt, byte_toInt]
    exact decide_eq_decide.2 (by omega)
  case zero =>
    rw [← hr]
    exact decide_eq_decide.2 BitVec.toNat_inj.symm

theorem byte_xor_ff_toNat (m : Byte) : (m ^^^ 0xFF).toNat = 255 - m.toNat := by
  revert m
  decide

theorem sbcBinary_result (a m p : Byte) {b : Int} (hb : b = 1 - bitNat (getFlag .c p)) :
    ((sbcBinary a m p).1.toNat : Int) = ((a.toNat : Int) - m.toNat - b) % 256 := by
  rw [sbcBinary, adcBinary_result, BitVec.toNat_ofNat, byte_xor_ff_toNat]
  omega

/-- R151, R161: the flags of a binary subtraction, those of adding the complement, read off the difference. -/
theorem sbcBinary_flags (a m p : Byte) {b : Int} (hb : b = 1 - bitNat (getFlag .c p)) :
    CVZNOf (decide (0 ≤ (a.toNat : Int) - m.toNat - b))
      (decide (a.toInt - m.toInt - b < -128 ∨ 127 < a.toInt - m.toInt - b))
      (decide (((a.toNat : Int) - m.toNat - b) % 256 = 0)) (decide (128 ≤ ((a.toNat : Int) - m.toNat - b) % 256)) p
      (sbcBinary a m p).2 := by
  obtain ⟨hc, hv, hz, hn, hothers⟩ := adcBinary_flags a (m ^^^ 0xFF) p rfl
  have hm : (m ^^^ 0xFF).toInt = -1 - m.toInt := by
    rw [byte_toInt, byte_toInt, byte_xor_ff_toNat]
    split <;> split <;> omega
  rw [byte_xor_ff_toNat] at hc hz hn
  rw [hm] at hv
  exact ⟨hc.trans (decide_eq_decide.2 (by omega)), hv.trans (decide_eq_decide.2 (by omega)),
    hz.trans (decide_eq_decide.2 (by omega)), hn.trans (decide_eq_decide.2 (by omega)), hothers⟩

/-! ### Decimal addition and subtraction -/

/-- R163: the result of a decimal addition, and its flags: Negative and Overflow before the high digit is corrected. -/
theorem adcDecimal_eq (a m p : Byte) {c low al sum : Nat} (hc : c = bitNat (getFlag .c p))
    (hlow : low = a.toNat % 16 + m.toNat % 16 + c) (hal : al = if 10 ≤ low then (low + 6) % 16 + 16 else low)
    (hsum : sum = a.toNat / 16 * 16 + m.toNat / 16 * 16 + al) :
    (adcDecimal a m p).1.toNat = (if 0xA0 ≤ sum then sum + 0x60 else sum) % 256 ∧
      CVZNOf (decide (0x100 ≤ if 0xA0 ≤ sum then sum + 0x60 else sum))
        (decide ((128 ≤ a.toNat ↔ 128 ≤ m.toNat) ∧ ¬ (128 ≤ a.toNat ↔ 128 ≤ sum % 256)))
        (decide ((a.toNat + m.toNat + c) % 256 = 0)) (decide (128 ≤ sum % 256)) p (adcDecimal a m p).2 := by
  have hs : (BitVec.ofNat 8 sum).toNat = sum % 256 := BitVec.toNat_ofNat ..
  subst hlow
  rw [adcDecimal, ← hc, ← hal, ← hsum]
  obtain ⟨hC, hV, hZ, hN, hothers⟩ := cVZNOf_putFlag _ _ _ _ p
  exact ⟨BitVec.toNat_ofNat .., hC, hV.trans (by rw [overflow_eq, hs]), hZ, hN.trans (by rw [byte_getLsbD_7, hs]), hothers⟩

/-- R163 on decimal digits: the lines of `ADC` give the digits of the sum modulo 100 and the decimal carry. The carry
out of the low digit is `k`, that out of the high digit `k'`; each is worth 10 in decimal and 16 in the byte. -/
theorem decimalSum_digits {a n c low al sum top r : Nat} (hc : c ≤ 1)
    (hlow : low = a % 16 + n % 16 + c) (hal : al = if 10 ≤ low then (low + 6) % 16 + 16 else low)
    (hsum : sum = a / 16 * 16 + n / 16 * 16 + al) (htop : top = if 0xA0 ≤ sum then sum + 0x60 else sum)
    (hr : r = top % 256)
    (ha : a % 16 < 10) (ha' : a / 16 < 10) (hn : n % 16 < 10) (hn' : n / 16 < 10) :
    r % 16 < 10 ∧ r / 16 < 10 ∧ r / 16 * 10 + r % 16 = (a / 16 * 10 + a % 16 + (n / 16 * 10 + n % 16) + c) % 100 ∧
      (0x100 ≤ top ↔ 100 ≤ a / 16 * 10 + a % 16 + (n / 16 * 10 + n % 16) + c) := by
  obtain ⟨k, hk, hk0, hk9⟩ : ∃ k, al = low + 6 * k ∧ 10 * k ≤ low ∧ low < 10 * k + 10 := by
    split at hal
    · exact ⟨1, by omega⟩
    · exact ⟨0, by omega⟩
  obtain ⟨k', hk', hk0', hk9'⟩ : ∃ k', top = sum + 96 * k' ∧ 10 * k' ≤ a / 16 + n / 16 + k ∧
      a / 16 + n / 16 + k < 10 * k' + 10 := by
    split at htop
    · exact ⟨1, by omega⟩
    · exact ⟨0, by omega⟩
  have hdigits : r % 16 = low - 10 * k ∧ r / 16 = a / 16 + n / 16 + k - 10 * k' := by omega
  omega

/-- R163: the result of a decimal subtraction; its flags are those of the binary one. -/
theorem sbcDecimal_eq (a m p : Byte) {c : Nat} {low dl diff : Int} (hc : c = bitNat (getFlag .c p))
    (hlow : low = ((a.toNat % 16 : Nat) : Int) - (m.toNat % 16 : Nat) + c - 1)
    (hdl : dl = if low < 0 then (low - 6) % 16 - 16 else low)
    (hdiff : diff = ((a.toNat / 16 * 16 : Nat) : Int) - (m.toNat / 16 * 16 : Nat) + dl) :
    sbcDecimal a m p = (BitVec.ofInt 8 (if diff < 0 then diff - 0x60 else diff), (sbcBinary a m p).2) := by
  subst hlow
  rw [sbcDecimal, ← hc, ← hdl, ← hdiff]

/-- R163 on decimal digits: the lines of `SBC` give the digits of the difference modulo 100. The borrow of the low digit
is `k`, that of the high digit `k'`. -/
theorem decimalDifference_digits {a n c r : Nat} {low dl diff top : Int} (hc : c ≤ 1)
    (hlow : low = ((a % 16 : Nat) : Int) - (n % 16 : Nat) + c - 1)
    (hdl : dl = if low < 0 then (low - 6) % 16 - 16 else low)
    (hdiff : diff = ((a / 16 * 16 : Nat) : Int) - (n / 16 * 16 : Nat) + dl)
    (htop : top = if diff < 0 then diff - 0x60 else diff) (hr : (r : Int) = top % 256)
    (ha : a % 16 < 10) (ha' : a / 16 < 10) (hn : n % 16 < 10) (hn' : n / 16 < 10) :
    r % 16 < 10 ∧ r / 16 < 10 ∧ ((r / 16 * 10 + r % 16 : Nat) : Int) =
      (((a / 16 * 10 + a % 16 : Nat) : Int) - ((n / 16 * 10 + n % 16 : Nat) : Int) - (1 - c)) % 100 := by
  obtain ⟨k, hk, hk0, hk9⟩ : ∃ k : Int, dl = low - 6 * k ∧ 0 ≤ low + 10 * k ∧ low + 10 * k < 10 := by
    split at hdl
    · exact ⟨1, by omega⟩
    · exact ⟨0, by omega⟩
  obtain ⟨k', hk', hk0', hk9'⟩ : ∃ k', top = diff - 96 * k' ∧ 0 ≤ ((a / 16 : Nat) : Int) - (n / 16 : Nat) - k + 10 * k' ∧
      ((a / 16 : Nat) : Int) - (n / 16 : Nat) - k + 10 * k' < 10 := by
    split at htop
    · exact ⟨1, by omega⟩
    · exact ⟨0, by omega⟩
  have hdigits : ((r % 16 : Nat) : Int) = low + 10 * k ∧
      ((r / 16 : Nat) : Int) = ((a / 16 : Nat) : Int) - (n / 16 : Nat) - k + 10 * k' := by omega
  omega

/-! ### `ADC`, `SBC` and the compares on an instruction -/

theorem adc_of_binary {e : Bool} {p : Byte} (h : e = false ∨ getFlag .d p = false) (a m : Byte) :
    adc e a m p = adcBinary a m p :=
  if_neg (by obtain h | h := h <;> simp [h])

theorem sbc_of_binary {e : Bool} {p : Byte} (h : e = false ∨ getFlag .d p = false) (a m : Byte) :
    sbc e a m p = sbcBinary a m p :=
  if_neg (by obtain h | h := h <;> simp [h])

theorem adc_of_decimal {e : Bool} {p : Byte} (he : e = true) (hd : getFlag .d p = true) (a m : Byte) :
    adc e a m p = adcDecimal a m p :=
  if_pos (by rw [he, hd]; rfl)

theorem sbc_of_decimal {e : Bool} {p : Byte} (he : e = true) (hd : getFlag .d p = true) (a m : Byte) :
    sbc e a m p = sbcDecimal a m p :=
  if_pos (by rw [he, hd]; rfl)

theorem exec_adc {i : Instr} (h : i.mnemonic = .adc) {s : State} {r : Byte × Byte}
    (hr : adc s.params.decimalEnabled s.cpu.a (readOperand i.operand s).1 s.cpu.p = r) :
    exec i s = .next { (readOperand i.operand s).2 with
      cpu := { s.cpu with a := r.1, p := r.2 }, cost := readCost i.operand s } :=
  exec_read_eq (congrArg readEffect h) fun t ht hp => by rw [← hr, ← ht, ← hp]; rfl

theorem exec_sbc {i : Instr} (h : i.mnemonic = .sbc) {s : State} {r : Byte × Byte}
    (hr : sbc s.params.decimalEnabled s.cpu.a (readOperand i.operand s).1 s.cpu.p = r) :
    exec i s = .next { (readOperand i.operand s).2 with
      cpu := { s.cpu with a := r.1, p := r.2 }, cost := readCost i.operand s } :=
  exec_read_eq (congrArg readEffect h) fun t ht hp => by rw [← hr, ← ht, ← hp]; rfl

theorem compareA_eq (m : Byte) (s : State) :
    compareA m s = { s with cpu := { s.cpu with p := compareFlags s.cpu.a m s.cpu.p } } := rfl

theorem compareX_eq (m : Byte) (s : State) :
    compareX m s = { s with cpu := { s.cpu with p := compareFlags s.cpu.x m s.cpu.p } } := rfl

theorem compareY_eq (m : Byte) (s : State) :
    compareY m s = { s with cpu := { s.cpu with p := compareFlags s.cpu.y m s.cpu.p } } := rfl

/-! ### The read-modify-write class on an instruction -/

/-- No increment or decrement of memory has the accumulator form. -/
theorem incDec_operand_ne_acc {i : Instr} (h : i.mnemonic = .inc ∨ i.mnemonic = .dec) : i.operand ≠ .acc := by
  intro ho
  cases i <;> cases ho <;> exact absurd h (by decide)

/-- A read-modify-write instruction in a memory mode: one bus read of the resolved address, the flags, one bus write of
the result to the same address, and the cost of the mode (R76). -/
theorem exec_modify_eq {i : Instr} {op : Byte → Byte → Byte × Byte} (h : modifyEffect i.mnemonic = some op)
    (ha : i.operand ≠ .acc) {s : State} {r : Byte × Byte}
    (hr : op (memRead (resolve i.operand s).addr s).1 s.cpu.p = r) :
    exec i s = .next ((memWrite (resolve i.operand s).addr r.1
      { (memRead (resolve i.operand s).addr s).2 with cpu := { s.cpu with p := r.2 } }).charge
        (modifyCycles i.operand)) := by
  have hind : ∀ p, i.operand ≠ .ind p := operand_ne_ind fun hj => by rw [hj] at h; contradiction
  rw [exec_modify h, modifyClass_eq ha hind, hr]
  rfl

/-- A bus write after operations that left CPU memory alone changes the cell it addresses at most. -/
theorem peek_memWrite_other {s t : State} (h : CpuMemoryKept s t) {a ea : Word}
    (ha : storageCell a s ≠ storageCell ea s) (v : Byte) : peek a (memWrite ea v t) = peek a s :=
  (memWrite_memoryKeptBut ea v t a (by rwa [storageCell_congr h.cart, storageCell_congr h.cart])).trans (h.memory a)

/-! ### A register plus or minus one -/

theorem ofNat_toNat_add_one (v : Byte) : BitVec.ofNat 8 (v.toNat + 1) = v + 1 :=
  BitVec.eq_of_toNat_eq (by rw [BitVec.toNat_ofNat, sp_add_one_toNat])

theorem ofNat_toNat_add_255 (v : Byte) : BitVec.ofNat 8 (v.toNat + 255) = v - 1 :=
  BitVec.eq_of_toNat_eq (by rw [BitVec.toNat_ofNat, sp_sub_one_toNat])

/-! ### The statements -/

/-- Settles O15: `ADC` is a read-class instruction, and its operation in binary mode is `adcBinary`. -/
theorem adcAddsWithCarry : Obligations.AdcAddsWithCarry := by
  rintro i s m c hi hmode rfl hc
  obtain ⟨hC, hV, hZ, hN, hothers⟩ := adcBinary_flags s.cpu.a (readOperand i.operand s).1 s.cpu.p hc
  have hexec := exec_adc hi (adc_of_binary hmode _ _)
  rw [adcBinary_result, ← show c = bitNat (getFlag .c s.cpu.p) from hc] at hexec
  exact ⟨_, hexec, hC, hV, hZ, hN, hothers, (readOperand_kept _ s).memory⟩

/-- Settles O16: binary `SBC` adds the complement; its result and flags are those of the difference less the borrow. -/
theorem sbcSubtractsWithBorrow : Obligations.SbcSubtractsWithBorrow := by
  rintro i s m b hi hmode rfl hb
  have hborrow : (b : Int) = 1 - bitNat (getFlag .c s.cpu.p) := by
    rw [hb]
    cases getFlag .c s.cpu.p <;> rfl
  have hr := sbcBinary_result s.cpu.a (readOperand i.operand s).1 s.cpu.p hborrow
  obtain ⟨hC, hV, hZ, hN, hothers⟩ := sbcBinary_flags s.cpu.a (readOperand i.operand s).1 s.cpu.p hborrow
  rw [← hr] at hZ hN
  exact ⟨_, _, exec_sbc hi (sbc_of_binary hmode _ _), hr, hC.trans (decide_eq_decide.2 (by omega)), hV,
    hZ.trans (decide_eq_decide.2 (by omega)), hN.trans (decide_eq_decide.2 (by omega)), hothers,
    (readOperand_kept _ s).memory⟩

/-- Settles O17: the lines of R163 are `adcDecimal` and `sbcDecimal`; on decimal digits they are the decimal sum and
difference. -/
theorem decimalArithmetic : Obligations.DecimalArithmetic := by
  rintro i s m a n c al sum dl diff he hd rfl rfl rfl hc hal hsum hdl hdiff
  have hc1 : c ≤ 1 := hc.trans_le (bitNat_le_one _)
  refine ⟨fun hi => ?adc, fun hi => ?sbc, (readOperand_kept _ s).memory⟩
  case adc =>
    obtain ⟨hr, hC, hV, hZ, hN, hothers⟩ := adcDecimal_eq _ _ s.cpu.p hc rfl hal hsum
    refine ⟨_, _, exec_adc hi (adc_of_decimal he hd _ _), hr, hC, hZ, hN, hV, hothers, fun ha ha' hn hn' => ?_⟩
    obtain ⟨hlow, hhigh, hdigits, hcarry⟩ := decimalSum_digits hc1 rfl hal hsum rfl hr ha ha' hn hn'
    exact ⟨hlow, hhigh, hdigits, hC.trans (decide_eq_decide.2 hcarry)⟩
  case sbc =>
    have hborrow : (1 - c : Int) = 1 - bitNat (getFlag .c s.cpu.p) := by rw [hc]; rfl
    obtain ⟨hC, hV, hZ, hN, hothers⟩ := sbcBinary_flags s.cpu.a (readOperand i.operand s).1 s.cpu.p hborrow
    have hr : ((BitVec.ofInt 8 (if diff < 0 then diff - 0x60 else diff)).toNat : Int) =
        (if diff < 0 then diff - 0x60 else diff) % 256 := by
      rw [BitVec.toNat_ofInt]
      omega
    refine ⟨_, _, exec_sbc hi ((sbc_of_decimal he hd _ _).trans (sbcDecimal_eq _ _ _ hc rfl hdl hdiff)), hr,
      hC.trans (decide_eq_decide.2 (by omega)), hZ, hN, hV, hothers, fun ha ha' hn hn' => ?_⟩
    obtain ⟨hlow, hhigh, hdigits⟩ := decimalDifference_digits hc1 rfl hdl hdiff rfl hr ha ha' hn hn'
    exact ⟨hlow, hhigh, hdigits, hC.trans (decide_eq_decide.2 (by omega))⟩

/-- Settles O18: a compare writes `P` alone, with `SetZN` of the difference and Carry from the order of the bytes. -/
theorem comparesSetFlagsOnly : Obligations.ComparesSetFlagsOnly := by
  rintro i s r m rfl h
  refine ⟨_, cZNOf_setZN _ _ _, ?_, (readOperand_kept _ s).memory⟩
  obtain ⟨hi, rfl⟩ | ⟨hi, rfl⟩ | ⟨hi, rfl⟩ := h
  · exact exec_read_eq (congrArg readEffect hi) fun t ht _ => by rw [compareA_eq, ht]; rfl
  · exact exec_read_eq (congrArg readEffect hi) fun t ht _ => by rw [compareX_eq, ht]; rfl
  · exact exec_read_eq (congrArg readEffect hi) fun t ht _ => by rw [compareY_eq, ht]; rfl

/-- Settles O19: both are the read-modify-write class with an operation that gives `r` and `SetZN(r)`. -/
theorem incDecMemory : Obligations.IncDecMemory := by
  intro i s r h
  obtain ⟨op, hop, hr⟩ : ∃ op, modifyEffect i.mnemonic = some op ∧
      op (memRead (resolve i.operand s).addr s).1 s.cpu.p = (r, setZN r s.cpu.p) := by
    obtain ⟨hi, rfl⟩ | ⟨hi, rfl⟩ := h
    · exact ⟨inc, congrArg modifyEffect hi, rfl⟩
    · exact ⟨dec, congrArg modifyEffect hi, rfl⟩
  have hread := memRead_kept (resolve i.operand s).addr s
  have hacc : i.operand ≠ .acc := incDec_operand_ne_acc (h.imp And.left And.left)
  refine ⟨_, _, zNOf_setZN r s.cpu.p, exec_modify_eq hop hacc hr, rfl, memWrite_cpu _ _ _, fun a ha => ?frame,
    fun hea => ?stored⟩
  case frame =>
    rw [peek_charge]
    refine peek_memWrite_other ?_ ha r
    exact ⟨hread.ram, hread.prgRam, hread.outside.cart⟩
  case stored =>
    rw [peek_charge]
    refine peek_memWrite_same rfl (by omega) ?_ r
    exact storageCell_eq_none_iff.not.2 (by omega)

/-- Settles O20: the register plus or minus one modulo 256, then `SetZN`. -/
theorem incDecRegisters : Obligations.IncDecRegisters := by
  intro s
  rw [ofNat_toNat_add_one, ofNat_toNat_add_one, ofNat_toNat_add_255, ofNat_toNat_add_255]
  exact ⟨⟨rfl, _, zNOf_setZN _ _, rfl⟩, ⟨rfl, _, zNOf_setZN _ _, rfl⟩, ⟨rfl, _, zNOf_setZN _ _, rfl⟩,
    ⟨rfl, _, zNOf_setZN _ _, rfl⟩⟩

end Sys2Proof.Machine

/-! Logic and shifts (spec 42): the bitwise operations and `BIT`; the four shifts in natural numbers; the
read-modify-write class in the accumulator mode, and in the memory modes with its frame. -/

namespace Sys2Proof.Machine

/-! ### Bitwise operations on `A` -/

theorem andOp_eq (m : Byte) (s : State) : andOp m s = loadA (s.cpu.a &&& m) s := rfl

theorem orOp_eq (m : Byte) (s : State) : orOp m s = loadA (s.cpu.a ||| m) s := rfl

theorem xorOp_eq (m : Byte) (s : State) : xorOp m s = loadA (s.cpu.a ^^^ m) s := rfl

theorem bitOp_eq (m : Byte) (s : State) :
    bitOp m s = { s with cpu := { s.cpu with p := bitTest s.cpu.a m s.cpu.p } } := rfl

/-- A read-class instruction whose operation loads `A` with the byte `r`. -/
theorem exec_read_loadA {i : Instr} {op : Byte → State → State} {s : State} {r : Byte}
    (h : readEffect i.mnemonic = some op)
    (hop : ∀ t : State, t.cpu = s.cpu → op (readOperand i.operand s).1 t = loadA r t) :
    exec i s = .next { (readOperand i.operand s).2 with
      cpu := { s.cpu with a := r, p := setZN r s.cpu.p }, cost := readCost i.operand s } :=
  exec_read_eq h fun t ht _ => by rw [hop t ht, loadA_eq, ht]

theorem byte_getLsbD_6 (v : Byte) : v.getLsbD 6 = decide (64 ≤ v.toNat % 128) := by
  revert v
  decide

/-- R173: the flags of `BIT`. -/
theorem bitTest_flags (a m p : Byte) :
    getFlag .z (bitTest a m p) = decide (a &&& m = 0) ∧ getFlag .n (bitTest a m p) = decide (128 ≤ m.toNat) ∧
      getFlag .v (bitTest a m p) = decide (64 ≤ m.toNat % 128) ∧
      ∀ f, f ≠ .z → f ≠ .n → f ≠ .v → getFlag f (bitTest a m p) = getFlag f p := by
  rw [← byte_getLsbD_7, ← byte_getLsbD_6]
  refine ⟨?zero, ?negative, ?overflow, fun f hz hn hv => ?others⟩
  case zero => simp [bitTest, getFlag_putFlag, beq_eq_decide]
  case negative => simp [bitTest, getFlag_putFlag]
  case overflow => simp [bitTest]
  case others => simp [bitTest, getFlag_putFlag, hz, hn, hv]

/-! ### The shifts in natural numbers -/

theorem byte_getLsbD_0 (v : Byte) : v.getLsbD 0 = decide (v.toNat % 2 = 1) := by
  revert v
  decide

theorem byte_shiftLeft_one (v : Byte) : v <<< 1 = BitVec.ofNat 8 (2 * v.toNat) := by
  apply BitVec.eq_of_toNat_eq
  rw [BitVec.toNat_shiftLeft, BitVec.toNat_ofNat, Nat.shiftLeft_eq, Nat.mul_comm]

theorem byte_ushiftRight_one (v : Byte) : v >>> 1 = BitVec.ofNat 8 (v.toNat / 2) := by
  have := v.isLt
  apply BitVec.eq_of_toNat_eq
  rw [BitVec.toNat_ushiftRight, BitVec.toNat_ofNat, Nat.shiftRight_eq_div_pow]
  omega

/-- A bit rotated in at the right is added, since a left shift leaves bit 0 clear. -/
theorem putBit_0_shiftLeft_one (b : Bool) (v : Byte) :
    putBit 0 b (v <<< 1) = BitVec.ofNat 8 (2 * v.toNat + bitNat b) := by
  revert b v
  decide

/-- A bit rotated in at the left is worth 128, since a right shift leaves bit 7 clear. -/
theorem putBit_7_ushiftRight_one (b : Bool) (v : Byte) :
    putBit 7 b (v >>> 1) = BitVec.ofNat 8 (v.toNat / 2 + 128 * bitNat b) := by
  revert b v
  decide

/-- What every shift answers: the byte `r`, with Carry from the bit `out` shifted out and `SetZN(r)`. -/
def shifted (out : Bool) (r p : Byte) : Byte × Byte := (r, setZN r (putFlag .c out p))

theorem shifted_flags (out : Bool) (r p : Byte) : CZNOf out r p (shifted out r p).2 := cZNOf_setZN out r p

theorem asl_eq (v p : Byte) : asl v p = shifted (decide (128 ≤ v.toNat)) (BitVec.ofNat 8 (2 * v.toNat)) p := by
  rw [asl, byte_shiftLeft_one, byte_getLsbD_7, shifted]

theorem lsr_eq (v p : Byte) : lsr v p = shifted (decide (v.toNat % 2 = 1)) (BitVec.ofNat 8 (v.toNat / 2)) p := by
  rw [lsr, byte_ushiftRight_one, byte_getLsbD_0, shifted]

theorem rol_eq (v p : Byte) {c : Nat} (hc : c = bitNat (getFlag .c p)) :
    rol v p = shifted (decide (128 ≤ v.toNat)) (BitVec.ofNat 8 (2 * v.toNat + c)) p := by
  rw [rol, putBit_0_shiftLeft_one, byte_getLsbD_7, shifted, hc]

theorem ror_eq (v p : Byte) {c : Nat} (hc : c = bitNat (getFlag .c p)) :
    ror v p = shifted (decide (v.toNat % 2 = 1)) (BitVec.ofNat 8 (v.toNat / 2 + 128 * c)) p := by
  rw [ror, putBit_7_ushiftRight_one, byte_getLsbD_0, shifted, hc]

/-- Bit 7 of a byte as the quotient by 128. -/
theorem byte_div_128_eq_one (v : Byte) : v.toNat / 128 = 1 ↔ 128 ≤ v.toNat := by
  have := v.isLt
  omega

/-! ### The read-modify-write class: accumulator, and memory with its frame -/

/-- A read-modify-write instruction in the accumulator mode: operand and destination are `A` (R104). -/
theorem exec_modify_acc {i : Instr} {op : Byte → Byte → Byte × Byte} (h : modifyEffect i.mnemonic = some op)
    (ha : i.operand = .acc) {s : State} {r : Byte × Byte} (hr : op s.cpu.a s.cpu.p = r) :
    exec i s = .next { s with cpu := { s.cpu with a := r.1, p := r.2 }, cost := 2 } := by
  rw [exec_modify h, ha, ← hr]
  rfl

/-- A read-modify-write instruction in a memory mode, with its frame: the flags alone among the registers, the named
cell alone in CPU memory, and the result there afterwards where the cell is RAM. -/
theorem exec_modify_frame {i : Instr} {op : Byte → Byte → Byte × Byte} (h : modifyEffect i.mnemonic = some op)
    (ha : i.operand ≠ .acc) {s : State} {r : Byte × Byte}
    (hr : op (memRead (resolve i.operand s).addr s).1 s.cpu.p = r) :
    ∃ t, exec i s = .next t ∧
      t = { memWrite (resolve i.operand s).addr r.1
              { (memRead (resolve i.operand s).addr s).2 with cpu := { s.cpu with p := r.2 } } with
            cost := modifyCycles i.operand } ∧
      t.cpu = { s.cpu with p := r.2 } ∧
      MemoryKeptBut (resolve i.operand s).addr s t ∧
      ((resolve i.operand s).addr.toNat < 0x2000 ∨
          0x6000 ≤ (resolve i.operand s).addr.toNat ∧ (resolve i.operand s).addr.toNat < 0x8000 →
        peek (resolve i.operand s).addr t = r.1) := by
  have hread := memRead_kept (resolve i.operand s).addr s
  have hmemory : ∀ c, CpuMemoryKept s { (memRead (resolve i.operand s).addr s).2 with cpu := c } := fun _ =>
    ⟨hread.ram, hread.prgRam, hread.outside.cart⟩
  refine ⟨_, exec_modify_eq h ha hr, rfl, memWrite_cpu _ _ _, fun a hcell => ?frame, fun hea => ?stored⟩
  case frame =>
    rw [peek_charge]
    exact peek_memWrite_other (hmemory _) hcell r.1
  case stored =>
    rw [peek_charge]
    exact peek_memWrite_same rfl (by omega) (storageCell_eq_none_iff.not.2 (by omega)) r.1

/-! ### The statements -/

/-- Settles O21: the bitwise operations load `A` with their result; `BIT` writes `P` alone. -/
theorem logicAndBitTest : Obligations.LogicAndBitTest := by
  rintro i s m rfl
  refine ⟨fun r h => ⟨_, zNOf_setZN r _, ?logic⟩, fun h => ?bit, (readOperand_kept _ s).memory⟩
  case logic =>
    obtain ⟨hi, rfl⟩ | ⟨hi, rfl⟩ | ⟨hi, rfl⟩ := h
    · exact exec_read_loadA (congrArg readEffect hi) fun t ht => by rw [andOp_eq, ht]
    · exact exec_read_loadA (congrArg readEffect hi) fun t ht => by rw [orOp_eq, ht]
    · exact exec_read_loadA (congrArg readEffect hi) fun t ht => by rw [xorOp_eq, ht]
  case bit =>
    obtain ⟨hz, hn, hv, hothers⟩ := bitTest_flags s.cpu.a (readOperand i.operand s).1 s.cpu.p
    exact ⟨_, hz, hn, hv, hothers, exec_read_eq (congrArg readEffect h) fun t ht _ => by rw [bitOp_eq, ht]⟩

/-- Settles O22: each is the accumulator form of the read-modify-write class with its shift in natural numbers. -/
theorem shiftAccumulator : Obligations.ShiftAccumulator := fun _ _ hc =>
  ⟨⟨rfl, _, shifted_flags _ _ _, exec_modify_acc rfl rfl (asl_eq _ _)⟩,
    ⟨rfl, _, shifted_flags _ _ _, exec_modify_acc rfl rfl (lsr_eq _ _)⟩,
    ⟨rfl, _, shifted_flags _ _ _, exec_modify_acc rfl rfl (rol_eq _ _ hc)⟩,
    ⟨rfl, _, shifted_flags _ _ _, exec_modify_acc rfl rfl (ror_eq _ _ hc)⟩⟩

/-- Settles O23: each is the memory form of the read-modify-write class with its shift in natural numbers. -/
theorem shiftMemory : Obligations.ShiftMemory := by
  rintro i s v c out r hacc rfl hc h
  obtain ⟨op, hop, hr⟩ : ∃ op, modifyEffect i.mnemonic = some op ∧
      op (memRead (resolve i.operand s).addr s).1 s.cpu.p = shifted (decide (out = 1)) (BitVec.ofNat 8 r) s.cpu.p := by
    obtain ⟨hi, rfl, rfl⟩ | ⟨hi, rfl, rfl⟩ | ⟨hi, rfl, rfl⟩ | ⟨hi, rfl, rfl⟩ := h
    · exact ⟨asl, congrArg modifyEffect hi, by simp only [byte_div_128_eq_one, asl_eq]⟩
    · exact ⟨lsr, congrArg modifyEffect hi, lsr_eq _ _⟩
    · exact ⟨rol, congrArg modifyEffect hi, by simp only [byte_div_128_eq_one, rol_eq _ _ hc]⟩
    · exact ⟨ror, congrArg modifyEffect hi, ror_eq _ _ hc⟩
  obtain ⟨t, hexec⟩ := exec_modify_frame hop hacc hr
  exact ⟨_, t, shifted_flags _ _ _, hexec⟩

end Sys2Proof.Machine

/-! Control flow (spec 43): the jump, the call and its return in closed form, with the stack bytes of a pushed word; the
branches by the flag they test. -/

namespace Sys2Proof.Machine

/-! ### Jumps -/

/-- A jump in closed form: what addressing leaves, `PC` at the effective address, and the cycles (R191). -/
theorem jump_eq (o : Operand) (base : Nat) (s : State) : jump o base s =
    { (resolve o s).after with cpu := { s.cpu with pc := (resolve o s).addr }, cost := base } := by
  rw [← resolve_cpu o s]
  rfl

/-! ### A word on the stack -/

/-- The high byte of a pushed word lies in the slot that `SP` named before (R73). -/
theorem peek_pushWord_high (w : Word) (s : State) : peek (stackAddr s.cpu.sp) (pushWord w s) = hiByte w := by
  obtain ⟨hslots, -, -⟩ := stack_slots_ne s.cpu.sp
  rw [peek_stackAddr, pushWord_eq, Memory.get_set_other hslots.symm, Memory.get_set_same]

/-- The low byte of a pushed word lies in the slot below (R73). -/
theorem peek_pushWord_low (w : Word) (s : State) : peek (stackAddr (s.cpu.sp - 1)) (pushWord w s) = loByte w := by
  rw [peek_stackAddr, pushWord_eq, Memory.get_set_same]

/-- Pushing a word writes its two stack slots and no other byte of CPU memory. -/
theorem peek_pushWord_other {b : Word} {s : State} (hhigh : storageCell b s ≠ storageCell (stackAddr s.cpu.sp) s)
    (hlow : storageCell b s ≠ storageCell (stackAddr (s.cpu.sp - 1)) s) (w : Word) :
    peek b (pushWord w s) = peek b s := by
  have hcart : (push (hiByte w) s).cart = s.cart := (push_instrKept _ s).outside.cart
  have hsp : (push (hiByte w) s).cpu.sp = s.cpu.sp - 1 := by rw [push_eq]
  calc peek b (pushWord w s)
    _ = peek b (push (hiByte w) s) := by
      refine push_memoryKeptBut (loByte w) _ b ?_
      rwa [hsp, storageCell_congr hcart, storageCell_congr hcart]
    _ = peek b s := push_memoryKeptBut (hiByte w) s b hhigh

/-! ### Calls and returns -/

/-- A call in closed form: the return address less one on the stack, `SP` down by two, `PC` at the operand (R192). -/
theorem call_eq (a : Word) (base : Nat) (s : State) : call a base s =
    { s with
      ram := (pushWord (s.cpu.pc - 1) s).ram
      cpu := { s.cpu with pc := a, sp := s.cpu.sp - 2 }
      cost := base } := by
  simp only [call, pushWord_eq, State.setPC, State.charge]

/-- CPU memory after a call is that after its push. -/
theorem peek_call (b a : Word) (base : Nat) (s : State) :
    peek b (call a base s) = peek b (pushWord (s.cpu.pc - 1) s) :=
  peek_congr rfl rfl rfl b

/-- A return in closed form: `PC` one after the pulled word, `SP` up by two (R193). -/
theorem returnFromCall_eq (base : Nat) (s : State) : returnFromCall base s =
    { s with
      cpu := { s.cpu with
        pc := wordOf (peek (stackAddr (s.cpu.sp + 1)) s) (peek (stackAddr (s.cpu.sp + 2)) s) + 1
        sp := s.cpu.sp + 2 }
      cost := base } := by
  simp only [returnFromCall, pullWord_eq, peek_stackAddr, State.setPC, State.charge]

/-- A return takes back the registers from before the call, wherever it runs: it adds the one that the call took off
(R192, R193). -/
theorem returnFromCall_call_cpu (a w : Word) (m n : Nat) (s : State) :
    (returnFromCall n ((call a m s).setPC w)).cpu = s.cpu := by
  have hlow : s.cpu.sp - 2 + 1 = s.cpu.sp - 1 := by bv_omega
  have hhigh : s.cpu.sp - 2 + 2 = s.cpu.sp := BitVec.sub_add_cancel _ _
  have hsp : ((call a m s).setPC w).cpu.sp = s.cpu.sp - 2 := by rw [State.setPC_sp, call_eq]
  have hpeek : ∀ b, peek b ((call a m s).setPC w) = peek b (pushWord (s.cpu.pc - 1) s) := peek_congr rfl rfl rfl
  rw [returnFromCall_eq, hsp, hlow, hhigh, hpeek, hpeek, peek_pushWord_low, peek_pushWord_high, wordOf_loByte_hiByte,
    BitVec.sub_add_cancel, call_eq]
  rfl

/-! ### Branches -/

/-- A branch taken while its flag is set (R190). -/
theorem branch_of_flag_set (f : Flag) (d : Byte) (s : State) :
    branch (s.flag f) d s = branched (decide (getFlag f s.cpu.p = true)) d s := by
  rw [Bool.decide_eq_true, branch_eq]
  rfl

/-- A branch taken while its flag is clear (R190). -/
theorem branch_of_flag_clear (f : Flag) (d : Byte) (s : State) :
    branch (!s.flag f) d s = branched (decide (getFlag f s.cpu.p = false)) d s := by
  rw [Bool.decide_eq_false, branch_eq]
  rfl

/-! ### The statements -/

/-- Settles O25, from the closed forms of the call and the return and the stack bytes of the pushed word. -/
theorem jsrAndRts : Obligations.JsrAndRts := by
  intro a w s
  refine ⟨⟨rfl, call a 6 s, rfl, call_eq a 6 s, ?high, ?low, fun b hhigh hlow => ?others, _, rfl,
    returnFromCall_call_cpu a w 6 6 s⟩, rfl, congrArg _ (returnFromCall_eq 6 s)⟩
  case high => rw [peek_call, peek_pushWord_high]
  case low => rw [peek_call, peek_pushWord_low]
  case others => rw [peek_call, peek_pushWord_other hhigh hlow]

/-- Settles O26: each branch is the common branch rule on the flag it tests. -/
theorem branchesFollowTheirFlag : Obligations.BranchesFollowTheirFlag := fun d s =>
  ⟨⟨rfl, congrArg _ (branch_of_flag_clear .c d s)⟩, ⟨rfl, congrArg _ (branch_of_flag_set .c d s)⟩,
    ⟨rfl, congrArg _ (branch_of_flag_set .z d s)⟩, ⟨rfl, congrArg _ (branch_of_flag_clear .z d s)⟩,
    ⟨rfl, congrArg _ (branch_of_flag_set .n d s)⟩, ⟨rfl, congrArg _ (branch_of_flag_clear .n d s)⟩,
    ⟨rfl, congrArg _ (branch_of_flag_clear .v d s)⟩, ⟨rfl, congrArg _ (branch_of_flag_set .v d s)⟩⟩

/-- Settles O24: both forms are the closed form of a jump, and addressing changes no byte of CPU memory. -/
theorem jmpGoesToTheAddress : Obligations.JmpGoesToTheAddress := fun a s =>
  ⟨rfl, congrArg Host.Outcome.next (jump_eq (.abs a) 3 s), rfl, congrArg Host.Outcome.next (jump_eq (.ind a) 5 s),
    (resolve_kept (.ind a) s).memory⟩

end Sys2Proof.Machine

/-! Stack, flags and system (spec 44): a push, a pull and the flags of a whole status byte; entering a handler by the
bytes it leaves on the stack, and the return that undoes it. -/

namespace Sys2Proof.Machine

/-! ### One byte on the stack -/

/-- The byte pushed lies in the slot that `SP` named before (R23). -/
theorem peek_push_same (v : Byte) (s : State) : peek (stackAddr s.cpu.sp) (push v s) = v := by
  rw [peek_stackAddr, push_eq, Memory.get_set_same]

/-- An instruction that only pushes: `SP` down by one, the byte in the slot, every other byte kept (R210, R212). -/
theorem push_charge_effect (v : Byte) (n : Nat) (s : State) :
    (push v s).charge n =
      { s with ram := ((push v s).charge n).ram, cpu := { s.cpu with sp := s.cpu.sp - 1 }, cost := n } ∧
    peek (stackAddr s.cpu.sp) ((push v s).charge n) = v ∧
    MemoryKeptBut (stackAddr s.cpu.sp) s ((push v s).charge n) := by
  refine ⟨?closed, ?slot, fun b hb => ?others⟩
  case closed => simp only [push_eq, State.charge]
  case slot => rw [peek_charge, peek_push_same]
  case others => rw [peek_charge, push_memoryKeptBut v s b hb]

/-- `Pull` in closed form, the byte looked at in CPU memory (R23). -/
theorem pull_eq_peek (s : State) :
    pull s = (peek (stackAddr (s.cpu.sp + 1)) s, { s with cpu := { s.cpu with sp := s.cpu.sp + 1 } }) := by
  rw [peek_stackAddr, pull_eq]

/-- `PLA` is a pull and a load of `A` (R211). -/
theorem exec_pla (s : State) : exec .pla s = .next ((loadA (pull s).1 (pull s).2).charge 4) := rfl

/-- `PLP` is a pull and a write of the whole of `P` (R213). -/
theorem exec_plp (s : State) : exec .plp s = .next (((pull s).2.setP (withUnused (pull s).1)).charge 4) := rfl

/-! ### A whole status byte -/

/-- Forcing the Unused bit changes no other flag (R26). -/
theorem withUnused_flags (v : Byte) :
    getFlag .u (withUnused v) = true ∧ ∀ f, f ≠ .u → getFlag f (withUnused v) = getFlag f v :=
  ⟨by simp [getFlag_withUnused], fun f hf => by simp [getFlag_withUnused, hf]⟩

/-- The status byte that `BRK` pushes has the Unused bit already (R222, R223). -/
theorem withUnused_pushedBySoftware (p : Byte) : withUnused (pushedBySoftware p) = p ||| 0x30 := by
  rw [withUnused, pushedBySoftware, BitVec.or_assoc]
  rfl

/-! ### Entering a handler and returning from it -/

/-- Return from an interrupt in closed form, the three bytes looked at in CPU memory (R223). -/
theorem returnFromInterrupt_eq_peek (s : State) : returnFromInterrupt s =
    { s with
      cpu := { s.cpu with
        sp := s.cpu.sp + 3
        p := withUnused (peek (stackAddr (s.cpu.sp + 1)) s)
        pc := wordOf (peek (stackAddr (s.cpu.sp + 2)) s) (peek (stackAddr (s.cpu.sp + 3)) s) } } := by
  simp only [peek_stackAddr, returnFromInterrupt_eq]

section
variable {vector : Word} (h : 0x8000 ≤ vector.toNat) (h' : vector.toNat < 0xFFFF) (ret : Word) (status : Byte)
  (setI : Bool) (s : State)
include h h'

/-- Entering a handler clears Decimal, sets InterruptDisable where the kind does, and keeps every other flag (R222,
R359). -/
theorem enterHandler_flags : getFlag .d (enterHandler ret status setI vector s).cpu.p = false ∧
    getFlag .i (enterHandler ret status setI vector s).cpu.p = (setI || getFlag .i s.cpu.p) ∧
    ∀ f, f ≠ .d → f ≠ .i → getFlag f (enterHandler ret status setI vector s).cpu.p = getFlag f s.cpu.p := by
  rw [enterHandler_eq ret status setI h h']
  cases setI
  · exact ⟨by simp, by simp [getFlag_putFlag], fun f hd _ => by simp [getFlag_putFlag, hd]⟩
  · exact ⟨by simp [getFlag_putFlag], by simp, fun f hd hi => by simp [getFlag_putFlag, hd, hi]⟩

/-- The return address is pushed first, its high byte into the slot that `SP` named before (R73, R222). -/
theorem peek_enterHandler_high :
    peek (stackAddr s.cpu.sp) (enterHandler ret status setI vector s) = hiByte ret := by
  obtain ⟨hlow, hstatus, -⟩ := stack_slots_ne s.cpu.sp
  rw [peek_stackAddr, enterHandler_eq ret status setI h h', Memory.get_set_other hstatus.symm,
    Memory.get_set_other hlow.symm, Memory.get_set_same]

/-- The low byte of the return address lies in the slot below (R73, R222). -/
theorem peek_enterHandler_low :
    peek (stackAddr (s.cpu.sp - 1)) (enterHandler ret status setI vector s) = loByte ret := by
  obtain ⟨-, -, hstatus⟩ := stack_slots_ne s.cpu.sp
  rw [peek_stackAddr, enterHandler_eq ret status setI h h', Memory.get_set_other hstatus.symm, Memory.get_set_same]

/-- The status byte is pushed last (R222, R359). -/
theorem peek_enterHandler_status :
    peek (stackAddr (s.cpu.sp - 2)) (enterHandler ret status setI vector s) = status := by
  rw [peek_stackAddr, enterHandler_eq ret status setI h h', Memory.get_set_same]

/-- Entering a handler writes its three stack slots and no other byte of CPU memory: the vector read has no effect. -/
theorem peek_enterHandler_other {b : Word} (hhigh : storageCell b s ≠ storageCell (stackAddr s.cpu.sp) s)
    (hlow : storageCell b s ≠ storageCell (stackAddr (s.cpu.sp - 1)) s)
    (hstatus : storageCell b s ≠ storageCell (stackAddr (s.cpu.sp - 2)) s) :
    peek b (enterHandler ret status setI vector s) = peek b s := by
  have hcart : (pushWord ret s).cart = s.cart := (pushWord_instrKept ret s).outside.cart
  have hsp : (pushWord ret s).cpu.sp = s.cpu.sp - 2 := by rw [pushWord_eq]
  calc peek b (enterHandler ret status setI vector s)
    _ = peek b (push status (pushWord ret s)) := by
      rw [enterHandler_eq ret status setI h h', push_eq, pushWord_eq]
      exact peek_congr rfl rfl rfl b
    _ = peek b (pushWord ret s) := by
      refine push_memoryKeptBut status _ b ?_
      rwa [hsp, storageCell_congr hcart, storageCell_congr hcart]
    _ = peek b s := peek_pushWord_other hhigh hlow ret

/-- A return takes back the registers from before the entry, wherever it runs, with `PC` and `P` as the entry pushed
them (R223, R365). -/
theorem returnFromInterrupt_enterHandler_cpu (w : Word) (n : Nat) :
    (returnFromInterrupt (((enterHandler ret status setI vector s).charge n).setPC w)).cpu =
      { s.cpu with pc := ret, p := withUnused status } := by
  have hstatus : s.cpu.sp - 3 + 1 = s.cpu.sp - 2 := by bv_omega
  have hlow : s.cpu.sp - 3 + 2 = s.cpu.sp - 1 := by bv_omega
  have hhigh : s.cpu.sp - 3 + 3 = s.cpu.sp := BitVec.sub_add_cancel _ _
  have hsp : (((enterHandler ret status setI vector s).charge n).setPC w).cpu.sp = s.cpu.sp - 3 := by
    rw [State.setPC_sp, State.charge_cpu, enterHandler_eq ret status setI h h']
  have hpeek : ∀ b, peek b (((enterHandler ret status setI vector s).charge n).setPC w) =
      peek b (enterHandler ret status setI vector s) := peek_congr rfl rfl rfl
  rw [returnFromInterrupt_eq_peek, hsp, hstatus, hlow, hhigh, hpeek, hpeek, hpeek, peek_enterHandler_status h h',
    peek_enterHandler_low h h', peek_enterHandler_high h h', wordOf_loByte_hiByte,
    enterHandler_eq ret status setI h h']
  rfl

end

/-! ### The statements -/

/-- Settles O30: `BRK` is the entry of a handler with the bytes it leaves on the stack, `RTI` the return in closed form,
and the return takes back what the entry pushed. -/
theorem brkAndRti : Obligations.BrkAndRti := by
  intro s w
  have h : 0x8000 ≤ irqVector.toNat := by decide
  have h' : irqVector.toNat < 0xFFFF := by decide
  obtain ⟨hd, hi, hflags⟩ := enterHandler_flags h h' (s.cpu.pc + 1) (pushedBySoftware s.cpu.p) true s
  obtain ⟨hu, hothers⟩ := withUnused_flags (peek (stackAddr (s.cpu.sp + 1)) s)
  refine ⟨⟨rfl, _, _, rfl, ?entry, hd, hi, hflags, ?high, ?low, ?status, fun b hhigh hlow hstatus => ?memory, _, rfl,
    ?roundTrip⟩, rfl, _, hu, hothers, ?rti⟩
  case entry =>
    simp only [enterHandler_eq _ _ true h h', State.charge]
    rfl
  case high => rw [peek_charge, peek_enterHandler_high h h']
  case low => rw [peek_charge, peek_enterHandler_low h h']
  case status => rw [peek_charge, peek_enterHandler_status h h', pushedBySoftware]
  case memory => rw [peek_charge, peek_enterHandler_other h h' _ _ _ s hhigh hlow hstatus]
  case roundTrip => rw [State.charge_cpu, returnFromInterrupt_enterHandler_cpu h h', withUnused_pushedBySoftware]
  case rti => exact congrArg (fun u => Host.Outcome.next (u.charge 6)) (returnFromInterrupt_eq_peek s)

/-- Settles O28: one pull, then `SetZN` for `A`, the forced Unused bit for `P`. -/
theorem pullInstructions : Obligations.PullInstructions := by
  rintro s v rfl
  obtain ⟨hu, hothers⟩ := withUnused_flags (peek (stackAddr (s.cpu.sp + 1)) s)
  refine ⟨⟨rfl, _, zNOf_setZN _ s.cpu.p, ?pla⟩, rfl, _, hu, hothers, ?plp⟩
  case pla =>
    rw [exec_pla, pull_eq_peek]
    rfl
  case plp =>
    rw [exec_plp, pull_eq_peek]
    rfl

/-- Settles O27: both are one push, of `A` and of the status byte. -/
theorem pushInstructions : Obligations.PushInstructions := fun s =>
  ⟨⟨rfl, _, rfl, push_charge_effect s.cpu.a 3 s⟩, rfl, _, rfl, push_charge_effect (pushedBySoftware s.cpu.p) 3 s⟩

/-- Settles O29: each flag instruction is one write of its flag. -/
theorem flagInstructionsAndNop : Obligations.FlagInstructionsAndNop := fun s =>
  ⟨⟨rfl, _, flagSetTo_putFlag .c false s.cpu.p, rfl⟩, ⟨rfl, _, flagSetTo_putFlag .c true s.cpu.p, rfl⟩,
    ⟨rfl, _, flagSetTo_putFlag .i false s.cpu.p, rfl⟩, ⟨rfl, _, flagSetTo_putFlag .i true s.cpu.p, rfl⟩,
    ⟨rfl, _, flagSetTo_putFlag .d false s.cpu.p, rfl⟩, ⟨rfl, _, flagSetTo_putFlag .d true s.cpu.p, rfl⟩,
    ⟨rfl, _, flagSetTo_putFlag .v false s.cpu.p, rfl⟩, rfl, rfl⟩

end Sys2Proof.Machine

/-! The PPU's register ports (spec 45): the fields each port write assembles, the data port's address and its step, and
the ports by their number. -/

namespace Sys2Proof.Machine

/-! ### The fields that a port access changes -/

/-- A field in the lowest bits replaced: the mask keeps the bits above it. -/
theorem and_or_setWidth_eq_append {k n : Nat} {m : BitVec (k + n)}
    (mask : ∀ i, (h : i < k + n) → m[i] = decide (n ≤ i)) (t : BitVec (k + n)) (f : BitVec n) :
    (t &&& m) ||| f.setWidth (k + n) = t.extractLsb' n k ++ f := by
  ext i h
  grind

/-- A control write takes bits 1:0 of the byte into `t[11:10]` (R231). -/
theorem writeControl_eq (d : Byte) (r : Ppu) : r.writeControl d =
    { r with ctrl := d, t := r.t.extractLsb' 12 3 ++ d.extractLsb' 0 2 ++ r.t.extractLsb' 0 10 } := by
  have ht : (r.t &&& 0x73FF#15) ||| ((d.extractLsb' 0 2).setWidth 15 <<< 10) =
      r.t.extractLsb' 12 3 ++ d.extractLsb' 0 2 ++ r.t.extractLsb' 0 10 := by
    ext i hi
    have mask : (0x73FF#15)[i] = decide (i < 10 ∨ 12 ≤ i) := by revert i; decide
    grind
  rw [Ppu.writeControl, ht]

/-- A first scroll write sets coarse X and fine X (R237). -/
theorem writeScroll_first {r : Ppu} (h : r.w = false) (d : Byte) : r.writeScroll d =
    { r with t := r.t.extractLsb' 5 10 ++ d.extractLsb' 3 5, fineX := d.extractLsb' 0 3, w := true } := by
  have ht : (r.t &&& 0x7FE0#15) ||| (d.extractLsb' 3 5).setWidth 15 = r.t.extractLsb' 5 10 ++ d.extractLsb' 3 5 :=
    and_or_setWidth_eq_append (k := 10) (m := 0x7FE0#15) (by decide) r.t (d.extractLsb' 3 5)
  rw [Ppu.writeScroll, h, ht]
  rfl

/-- A second scroll write sets fine Y and coarse Y (R237). -/
theorem writeScroll_second {r : Ppu} (h : r.w = true) (d : Byte) : r.writeScroll d =
    { r with
      t := d.extractLsb' 0 3 ++ r.t.extractLsb' 10 2 ++ d.extractLsb' 3 5 ++ r.t.extractLsb' 0 5
      w := false } := by
  have ht : (r.t &&& 0x0C1F#15) ||| ((d.extractLsb' 0 3).setWidth 15 <<< 12) ||| ((d.extractLsb' 3 5).setWidth 15 <<< 5) =
      d.extractLsb' 0 3 ++ r.t.extractLsb' 10 2 ++ d.extractLsb' 3 5 ++ r.t.extractLsb' 0 5 := by
    ext i hi
    have mask : (0x0C1F#15)[i] = decide (i < 5 ∨ 10 ≤ i ∧ i < 12) := by revert i; decide
    grind
  rw [Ppu.writeScroll, h, ht]
  rfl

/-- A first address write sets `t[13:8]` and clears `t[14]` (R238). -/
theorem writeAddress_first {r : Ppu} (h : r.w = false) (d : Byte) : r.writeAddress d =
    { r with t := 0#1 ++ d.extractLsb' 0 6 ++ r.t.extractLsb' 0 8, w := true } := by
  have ht : (r.t &&& 0x00FF#15) ||| ((d.extractLsb' 0 6).setWidth 15 <<< 8) =
      0#1 ++ d.extractLsb' 0 6 ++ r.t.extractLsb' 0 8 := by
    ext i hi
    have mask : (0x00FF#15)[i] = decide (i < 8) := by revert i; decide
    grind
  rw [Ppu.writeAddress, h, ht]
  rfl

/-- A second address write sets `t[7:0]` and copies `t` to `v` (R238). -/
theorem writeAddress_second {r : Ppu} (h : r.w = true) (d : Byte) : r.writeAddress d =
    { r with t := r.t.extractLsb' 8 7 ++ d, v := r.t.extractLsb' 8 7 ++ d, w := false } := by
  have ht : (r.t &&& 0x7F00#15) ||| d.setWidth 15 = r.t.extractLsb' 8 7 ++ d :=
    and_or_setWidth_eq_append (k := 7) (m := 0x7F00#15) (by decide) r.t d
  rw [Ppu.writeAddress, h, ht]
  rfl

/-- Clearing `vblank` is a mask (R233). -/
theorem putBit_7_false (v : Byte) : putBit 7 false v = v &&& 0x7F := rfl

/-- An OAM data write steps `oamAddr` modulo 256 (R235). -/
theorem writeOamData_eq (d : Byte) (r : Ppu) : r.writeOamData d =
    { r with
      oam := Memory.set 0 r.oam r.oamAddr.toNat d
      oamAddr := BitVec.ofNat 8 (r.oamAddr.toNat + 1) } := by
  have step : r.oamAddr + 1 = BitVec.ofNat 8 (r.oamAddr.toNat + 1) := by bv_omega
  rw [Ppu.writeOamData, step]

/-! ### The data port -/

/-- The bus address of the data port in natural numbers (R239, R240). -/
theorem dataAddress_eq {r : Ppu} {b : PAddr} (h : b.toNat = r.v.toNat % 0x4000) : r.dataAddress = b := by
  apply BitVec.eq_of_toNat_eq
  rw [h, Ppu.dataAddress, BitVec.toNat_setWidth]

/-- The step of `v` in natural numbers: by the increment bit of `ctrl`, modulo 0x8000 (R241). -/
theorem vramIncrement_v {r : Ppu} {v : VAddr}
    (h : v.toNat = (r.v.toNat + if r.ctrl.toNat / 4 % 2 = 1 then 32 else 1) % 0x8000) : v = r.vramIncrement.v := by
  have hinc : r.increment = decide (r.ctrl.toNat / 4 % 2 = 1) := by
    rw [Ppu.increment, BitVec.getLsbD, Nat.testBit_eq_decide_div_mod_eq]
  apply BitVec.eq_of_toNat_eq
  rw [h, Ppu.vramIncrement, hinc, BitVec.toNat_add]
  by_cases hc : r.ctrl.toNat / 4 % 2 = 1 <;> simp [hc]

/-- Below the palette a read of the data port is delayed by the buffer (R239). -/
theorem readData_buffered {s : State} (h : s.ppu.dataAddress.toNat < 0x3F00) : readData s =
    (s.ppu.readBuffer, { s with ppu := { s.ppu with
      readBuffer := ppuMemRead s.ppu.dataAddress s, v := s.ppu.vramIncrement.v } }) := if_pos h

/-- In the palette a read of the data port answers at once (R239). -/
theorem readData_palette {s : State} (h : 0x3F00 ≤ s.ppu.dataAddress.toNat) : readData s =
    (ppuMemRead s.ppu.dataAddress s, { s with ppu := { s.ppu with
      readBuffer := ppuMemRead (s.ppu.dataAddress - 0x1000) s, v := s.ppu.vramIncrement.v } }) :=
  if_neg (Nat.not_lt.2 h)

/-- A write on the PPU bus changes no register of the PPU, only the palette (R81). -/
theorem ppuMemWrite_ppu (a : PAddr) (d : Byte) (s : State) :
    (ppuMemWrite a d s).ppu = { s.ppu with palette := (ppuMemWrite a d s).ppu.palette } := by
  rcases ppuRegion_cases a with h | ⟨h, h'⟩ | h
  · rw [ppuMemWrite_pattern h]
    split <;> rfl
  · rw [ppuMemWrite_nametable h h']
    split <;> rfl
  · rw [ppuMemWrite_palette h]

/-- A write of the data port is the bus write and the step of the `v` that stood before it (R240). -/
theorem writeData_eq (d : Byte) (s : State) : writeData d s =
    { ppuMemWrite s.ppu.dataAddress d s with
      ppu := { (ppuMemWrite s.ppu.dataAddress d s).ppu with v := s.ppu.vramIncrement.v } } := by
  have hv : (ppuMemWrite s.ppu.dataAddress d s).ppu.vramIncrement.v = s.ppu.vramIncrement.v := by
    rw [ppuMemWrite_ppu]
    rfl
  rw [← hv]
  rfl

/-! ### The ports by their number -/

/-- The ports that are only written read as 0 (R242). -/
theorem ppuPortRead_writeOnly {p : Nat} (h2 : p ≠ 2) (h4 : p ≠ 4) (h7 : p ≠ 7) (s : State) :
    ppuPortRead p s = (0, s) := by
  rw [ppuPortRead, if_neg h2, if_neg h4, if_neg h7]

/-! ### The statements -/

/-- Settles O46: the address and the step of `v` in natural numbers, then the two regions of a read and the write. -/
theorem dataPort : Obligations.DataPort := by
  intro a d s b v hlo hhi hp hb hv
  obtain rfl := dataAddress_eq hb
  obtain rfl := vramIncrement_v hv
  rw [memRead_port hlo hhi, memWrite_port hlo hhi, hp]
  exact ⟨readData_buffered, readData_palette, writeData_eq d s, by rw [ppuMemWrite_ppu]⟩

/-- Settles O47, from the four port writes in fields. -/
theorem scrollAndAddressPorts : Obligations.ScrollAndAddressPorts := by
  intro a d s hlo hhi
  rw [memWrite_port hlo hhi]
  refine ⟨fun hp hw => ?scrollFirst, fun hp hw => ?scrollSecond, fun hp hw => ?addressFirst, fun hp hw => ?addressSecond⟩
    <;> rw [hp]
  case scrollFirst => exact congrArg (fun r => { s with ppu := r }) (writeScroll_first hw d)
  case scrollSecond => exact congrArg (fun r => { s with ppu := r }) (writeScroll_second hw d)
  case addressFirst => exact congrArg (fun r => { s with ppu := r }) (writeAddress_first hw d)
  case addressSecond => exact congrArg (fun r => { s with ppu := r }) (writeAddress_second hw d)

/-- Settles O48, port by port; the OAM data write is one write of the sparse table. -/
theorem controlMaskAndOamPorts : Obligations.ControlMaskAndOamPorts := by
  intro a d s hlo hhi
  rw [memRead_port hlo hhi, memWrite_port hlo hhi]
  refine ⟨fun hp => ?control, fun hp => ?mask, fun hp => ?status, fun hp => ?oamAddr, fun hp => ?oamData,
    fun hp => ppuPortRead_writeOnly (by omega) (by omega) (by omega) s⟩
    <;> rw [hp]
  case control => exact congrArg (fun r => { s with ppu := r }) (writeControl_eq d s.ppu)
  case mask => rfl
  case status => rfl
  case oamAddr => rfl
  case oamData =>
    refine ⟨rfl, congrArg (fun r => { s with ppu := r }) (writeOamData_eq d s.ppu), fun n => ?_⟩
    exact Memory.get_set

/-- Settles O45: the two masks of the status port. -/
theorem statusPortRead : Obligations.StatusPortRead := by
  intro a s hlo hhi hp
  rw [memRead_port hlo hhi, hp]
  refine ⟨rfl, ?_⟩
  rw [← putBit_7_false]
  rfl

end Sys2Proof.Machine

/-! The PPU's scanline engine (spec 46): what each event of the position table leaves, the drained buffer, the
background row and its tiles, the scroll fields, and the sprites of a row with the entries they take. -/

namespace Sys2Proof.Machine

/-! ### The position (R261, R283) -/

/-- Where the advance leads: the end of a scanline, the end of a frame, or the next cycle. -/
theorem advance_position (r : Ppu) :
    r.advance.cycle = (if r.cycle = 340 then 0 else r.cycle + 1) ∧
    r.advance.scanline = (if r.cycle = 340 then (if r.scanline = 260 then -1 else r.scanline + 1) else r.scanline) ∧
    r.advance.frame = (if r.cycle = 340 ∧ r.scanline = 260 then r.frame + 1 else r.frame) := by
  unfold Ppu.advance Config.cyclesPerScanline
  by_cases hc : r.cycle = 340
  · by_cases hs : r.scanline = 260
    · simp [hc, hs]
    · simp [hc, hs]
  · simp [hc]

/-! ### The events by their position (R262) -/

theorem ppuEvents_startVblank {s : State} (h : s.ppu.scanline = 240) (hc : s.ppu.cycle = 1) :
    ppuEvents s = drain (startVblank s) := by
  simp [ppuEvents, h, hc]

theorem ppuEvents_endVblank {s : State} (h : s.ppu.scanline = 260) (hc : s.ppu.cycle = 1) :
    ppuEvents s = endVblank s := by
  simp [ppuEvents, h, hc]

theorem ppuEvents_clearSpriteFlags {s : State} (h : s.ppu.scanline = -1) (hc : s.ppu.cycle = 1) :
    ppuEvents s = clearSpriteFlags s := by
  simp [ppuEvents, h, hc]

theorem ppuEvents_reloadScroll {s : State} (h : s.ppu.scanline = -1) (hc : s.ppu.cycle = 304) :
    ppuEvents s = reloadScroll s := by
  simp [ppuEvents, h, hc]

/-- What the events of a tick can be: those of a visible scanline, or one of the four of the table's other rows, or
none. -/
theorem ppuEvents_cases (s : State) :
    (∃ y : Nat, y < 240 ∧ s.ppu.scanline = y ∧ ppuEvents s = visibleEvents y s) ∨
    (s.ppu.scanline = 240 ∧ s.ppu.cycle = 1 ∧ ppuEvents s = drain (startVblank s)) ∨
    (s.ppu.scanline = 260 ∧ s.ppu.cycle = 1 ∧ ppuEvents s = endVblank s) ∨
    (s.ppu.scanline = -1 ∧ s.ppu.cycle = 1 ∧ ppuEvents s = clearSpriteFlags s) ∨
    (s.ppu.scanline = -1 ∧ s.ppu.cycle = 304 ∧ ppuEvents s = reloadScroll s) ∨
    ppuEvents s = s := by
  unfold ppuEvents
  split
  · exact .inl ⟨s.ppu.scanline.toNat, by omega, by omega, rfl⟩
  split
  · rename_i h; exact .inr (.inl ⟨h.1, h.2, rfl⟩)
  split
  · rename_i h; exact .inr (.inr (.inl ⟨h.1, h.2, rfl⟩))
  split
  · rename_i h; exact .inr (.inr (.inr (.inl ⟨h.1, h.2, rfl⟩)))
  split
  · rename_i h; exact .inr (.inr (.inr (.inr (.inl ⟨h.1, h.2, rfl⟩))))
  · exact .inr (.inr (.inr (.inr (.inr rfl))))

/-! ### A visible scanline (R263) -/

/-- The events of a visible scanline write the composition buffer and the status as the row event leaves them, if it is
due, and `v` by the scroll event, if that is due: the row event reads `v` before it. -/
theorem visibleEvents_eq {y : Nat} {s r : State}
    (hr : r = if s.ppu.cycle = s.params.renderCycle then renderRow y s else s) :
    visibleEvents y s = { s with ppu := { s.ppu with
      status := r.ppu.status
      comp := r.ppu.comp
      v := if s.ppu.cycle = s.params.vupdateCycle ∧ s.ppu.rendering = true
        then reloadHorizontal s.ppu.t (incFineY s.ppu.v) else s.ppu.v } } := by
  have hrow : r = { s with ppu := { s.ppu with status := r.ppu.status, comp := r.ppu.comp } } := by
    rw [hr]
    split
    · exact renderRow_eq y s
    · rfl
  have hkept : r.ppu.cycle = s.ppu.cycle ∧ r.params = s.params ∧ r.ppu.rendering = s.ppu.rendering := by
    rw [hrow]
    exact ⟨rfl, rfl, rfl⟩
  obtain ⟨hcycle, hparams, hrendering⟩ := hkept
  unfold visibleEvents
  simp only
  rw [← hr, hcycle, hparams, hrendering]
  split
  · rw [vUpdate, hrow]
  · exact hrow

/-- A tick of a visible scanline: its events and the advance of the position. -/
theorem ppuTick_visible {y : Nat} {s r : State} (hy : y < 240) (h : s.ppu.scanline = y)
    (hr : r = if s.ppu.cycle = s.params.renderCycle then renderRow y s else s) :
    ppuTick s = { s with ppu := { s.ppu with
      comp := r.ppu.comp
      status := r.ppu.status
      v := (ppuTick s).ppu.v
      cycle := (ppuTick s).ppu.cycle
      scanline := (ppuTick s).ppu.scanline
      frame := (ppuTick s).ppu.frame } } := by
  have htick := ppuTick_eq s
  rw [ppuEvents_visible hy h, visibleEvents_eq hr] at htick
  rw [congrArg (fun t : State => t.ppu.v) htick]
  exact htick

/-- The scroll event is the only one of a visible scanline that writes `v`. -/
theorem ppuTick_visible_v {y : Nat} {s : State} (hy : y < 240) (h : s.ppu.scanline = y) : (ppuTick s).ppu.v =
    if s.ppu.cycle = s.params.vupdateCycle ∧ s.ppu.rendering = true
    then reloadHorizontal s.ppu.t (incFineY s.ppu.v) else s.ppu.v := by
  rw [ppuTick_eq, ppuEvents_visible hy h, visibleEvents_eq rfl]

/-- The row event is the background row and, over it, the sprites, each if its show flag is set (R263, R286). -/
theorem renderRow_eq_layers {y : Nat} {s b f : State}
    (hb : b = if s.ppu.mask.getLsbD 3 then renderBackgroundRow y s else s)
    (hf : f = if s.ppu.mask.getLsbD 4 then evaluateSprites y b else b) : renderRow y s = f := by
  have hmask : b.ppu.mask = s.ppu.mask := by
    rw [hb]
    split <;> rfl
  rw [hf, ← hmask, hb]
  rfl

/-- Settles O60: the row event in its layers, read off the tick of a visible scanline. -/
theorem rowCompositing : Obligations.RowCompositing := by
  intro s b f y hy hs hb hf
  have hv := ppuTick_visible_v hy hs
  refine ⟨fun hc => ⟨?row, fun hne => ?scroll⟩, fun hc => ?other⟩
  case row => exact ppuTick_visible hy hs (by rw [if_pos hc, renderRow_eq_layers hb hf])
  case scroll => rw [hv, if_neg fun h => hne (hc.symm.trans h.1)]
  case other =>
    rw [ppuTick_visible hy hs (if_neg hc).symm]
    exact ⟨rfl, rfl⟩

/-! ### The ticks outside the visible scanlines (R278 to R284) -/

theorem putBit_7_true (v : Byte) : putBit 7 true v = v ||| 0x80 := rfl

theorem putBit_5_6_false (v : Byte) : putBit 5 false (putBit 6 false v) = v &&& 0x9F := BitVec.and_assoc v _ _

theorem requestInterrupt_line_of_line {s t : State} (kind : Line) (h : t.line = s.line) :
    (requestInterrupt kind t).line = (requestInterrupt kind s).line := by
  unfold requestInterrupt
  rw [h]
  split
  · rfl
  · exact h

theorem requestInterrupt_ppu (kind : Line) (s : State) : (requestInterrupt kind s).ppu = s.ppu := by
  unfold requestInterrupt
  split <;> rfl

/-- Suppressed, the start of vertical blanking only clears the suppression (R279). -/
theorem startVblank_suppressed {s : State} (h : s.ppu.suppressVbl = true) :
    startVblank s = { s with ppu := { s.ppu with suppressVbl := false } } := by
  simp [startVblank, h]

/-- The PPU's part of the start of vertical blanking (R278). -/
theorem startVblank_ppu {s : State} (h : s.ppu.suppressVbl = false) :
    (startVblank s).ppu = { s.ppu with status := s.ppu.status ||| 0x80, suppressVbl := false } := by
  simp only [startVblank, h, Bool.false_eq_true, if_false, putBit_7_true]
  split
  · rw [requestInterrupt_ppu]
  · rfl

/-- The request of the start of vertical blanking (R278). -/
theorem startVblank_line {s : State} (h : s.ppu.suppressVbl = false) : (startVblank s).line =
    if s.ppu.ctrl.getLsbD 7 then (requestInterrupt .nmi s).line else s.line := by
  simp only [startVblank, h, Bool.false_eq_true, if_false, Ppu.nmiEnable]
  split
  · exact requestInterrupt_line_of_line .nmi rfl
  · rfl

/-- Starting vertical blanking draws nothing. -/
theorem startVblank_drain_input (s : State) :
    (startVblank s).ppu.comp = s.ppu.comp ∧ (startVblank s).params = s.params := by
  refine ⟨?_, (startVblank_kept s).params⟩
  cases h : s.ppu.suppressVbl
  · rw [startVblank_ppu h]
  · rw [startVblank_suppressed h]

/-! ### The status after the sprites (R270, R272) -/

/-- Compositing sprites writes no status bit but sprite-0 hit. -/
theorem foldl_compositeSprite_status (y h : Nat) (l : List (Fin 64)) (s : State) {k : Nat} (hk : k ≠ 6) :
    (l.foldl (fun u i => compositeSprite i y h u) s).ppu.status.getLsbD k = s.ppu.status.getLsbD k := by
  induction l generalizing s with
  | nil => rfl
  | cons i l ih => rw [List.foldl_cons, ih, compositeSprite_status i y h s hk]

/-- The sprites that a scanline draws: under the limit the first eight that cover it (R270, R272). -/
def drawnSprites (covering : List (Fin 64)) (s : State) : List (Fin 64) :=
  if s.params.spriteLimitEnabled = true then covering.take 8 else covering

/-- Sprite evaluation is compositing the drawn sprites in OAM order, and the overflow flag. -/
theorem evaluateSprites_eq (y : Nat) (s : State) {covering : List (Fin 64)}
    (hl : covering = (List.finRange 64).filter fun i => inRange i y (spriteHeight s) s) {t : State}
    (ht : t = (drawnSprites covering s).foldl (fun u i => compositeSprite i y (spriteHeight s) u) s) :
    evaluateSprites y s = if s.params.spriteLimitEnabled = true ∧ 9 ≤ covering.length
      then { t with ppu := { t.ppu with status := t.ppu.status ||| 0x20 } } else t := by
  have h := evaluateFrom_eq y (spriteHeight s) (List.finRange 64) (count := 0) s (by omega) hl ht
  rw [Nat.zero_add] at h
  exact h

/-- Of the bits other than sprite-0 hit evaluation sets at most overflow, and that one when the limit leaves a covering
sprite out. -/
theorem evaluateSprites_status (y : Nat) (s : State) {covering : List (Fin 64)}
    (hl : covering = (List.finRange 64).filter fun i => inRange i y (spriteHeight s) s) {k : Nat} (hk : k ≠ 6) :
    (evaluateSprites y s).ppu.status.getLsbD k =
      (s.ppu.status.getLsbD k || decide (k = 5 ∧ s.params.spriteLimitEnabled = true ∧ 9 ≤ covering.length)) := by
  rw [evaluateSprites_eq y s hl rfl]
  have hfold := foldl_compositeSprite_status y (spriteHeight s) (drawnSprites covering s) s hk
  have hbit : (0x20#8).getLsbD k = decide (k = 5) := by
    have low : ∀ j < 8, (0x20#8).getLsbD j = decide (j = 5) := by decide
    by_cases h8 : k < 8
    · exact low k h8
    · rw [BitVec.getLsbD_of_ge _ _ (by omega), decide_eq_false (by omega)]
  split
  · rename_i hover
    simp [BitVec.getLsbD_or, hfold, hbit, hover]
  · rename_i hover
    simp [hfold, hover]

/-- The row event leaves `vblank` alone. -/
theorem renderRow_status_7 (y : Nat) (s : State) :
    (renderRow y s).ppu.status.getLsbD 7 = s.ppu.status.getLsbD 7 := by
  have hsprites (t : State) : (evaluateSprites y t).ppu.status.getLsbD 7 = t.ppu.status.getLsbD 7 := by
    rw [evaluateSprites_status y t rfl (by omega), decide_eq_false (by omega), Bool.or_false]
  rw [renderRow_eq_layers rfl rfl]
  split <;> split
  · rw [hsprites]; rfl
  · rw [hsprites]
  · rfl
  · rfl

/-- Only the start of vertical blanking requests an interrupt, sets `vblank` or writes `out`. -/
theorem ppuEvents_of_not_startVblank {s : State} (h : ¬ (s.ppu.scanline = 240 ∧ s.ppu.cycle = 1)) :
    (ppuEvents s).line = s.line ∧
    ((ppuEvents s).ppu.status.getLsbD 7 = true → s.ppu.status.getLsbD 7 = true) ∧
    (ppuEvents s).ppu.out = s.ppu.out := by
  rcases ppuEvents_cases s with ⟨y, hy, hs, e⟩ | ⟨h1, h2, -⟩ | ⟨-, -, e⟩ | ⟨-, -, e⟩ | ⟨-, -, e⟩ | e
  · rw [e, visibleEvents_eq rfl]
    refine ⟨rfl, ?_, rfl⟩
    split
    · rw [renderRow_status_7]; exact id
    · exact id
  · exact absurd ⟨h1, h2⟩ h
  · rw [e]
    refine ⟨rfl, fun hv => ?_, rfl⟩
    rw [endVblank, getLsbD_putBit _ _ (by omega) (by omega), if_pos rfl] at hv
    exact absurd hv Bool.false_ne_true
  · rw [e]
    refine ⟨rfl, fun hv => ?_, rfl⟩
    rw [clearSpriteFlags, getLsbD_putBit _ _ (by omega) (by omega), if_neg (by omega),
      getLsbD_putBit _ _ (by omega) (by omega), if_neg (by omega)] at hv
    exact hv
  · rw [e, reloadScroll]
    split <;> exact ⟨rfl, id, rfl⟩
  · rw [e]
    exact ⟨rfl, id, rfl⟩

/-! ### The position and vertical blanking as stated -/

/-- Settles O51: the advance field by field; a position without an event runs none. -/
theorem tickAdvancesThePosition : Obligations.TickAdvancesThePosition := by
  intro s
  have hkept := ppuEvents_kept s
  obtain ⟨hcycle, hscanline, hframe⟩ := advance_position (ppuEvents s).ppu
  rw [hkept.cycle] at hcycle hscanline hframe
  rw [hkept.scanline] at hscanline hframe
  rw [hkept.frame] at hframe
  refine ⟨hcycle, hscanline, hframe, fun hvis h240 h260 h1 h304 => ?_⟩
  have hnone : ppuEvents s = s := by
    rcases ppuEvents_cases s with ⟨y, hy, hs, e⟩ | ⟨h, h', -⟩ | ⟨h, h', -⟩ | ⟨h, h', -⟩ | ⟨h, h', -⟩ | e
    · have hr : s.ppu.cycle ≠ s.params.renderCycle := fun hc => hvis ⟨by omega, by omega, .inl hc⟩
      have hv : s.ppu.cycle ≠ s.params.vupdateCycle := fun hc => hvis ⟨by omega, by omega, .inr hc⟩
      rw [e, visibleEvents_eq rfl, if_neg hr, if_neg fun hc => hv hc.1]
    · exact absurd ⟨h, h'⟩ h240
    · exact absurd ⟨h, h'⟩ h260
    · exact absurd ⟨h, h'⟩ h1
    · exact absurd ⟨h, h'⟩ h304
    · exact e
  have htick := ppuTick_eq s
  rw [hnone] at htick
  exact htick

/-- Settles O52, tick by tick; that no other tick requests or sets `vblank` is `ppuEvents_of_not_startVblank`. -/
theorem vblankAndPreRenderTicks : Obligations.VblankAndPreRenderTicks := by
  intro s
  rw [ppuTick_eq]
  refine ⟨fun hs hc => ?start, fun hs hc => ?finish, fun hs hc => ?flags, fun hs hc => ?scroll, fun h => ?other⟩
  case start =>
    rw [ppuEvents_startVblank hs hc]
    cases h : s.ppu.suppressVbl
    · rw [drain, startVblank_ppu h, startVblank_line h]
      exact ⟨rfl, fun _ => ⟨rfl, rfl⟩, nofun⟩
    · rw [startVblank_suppressed h]
      exact ⟨rfl, nofun, fun _ => ⟨rfl, rfl⟩⟩
  case finish =>
    rw [ppuEvents_endVblank hs hc]
    exact putBit_7_false s.ppu.status
  case flags =>
    rw [ppuEvents_clearSpriteFlags hs hc]
    exact putBit_5_6_false s.ppu.status
  case scroll =>
    rw [ppuEvents_reloadScroll hs hc]
    exact apply_ite (fun t : State => t.ppu.v) _ _ _
  case other =>
    obtain ⟨hline, hvblank, -⟩ := ppuEvents_of_not_startVblank h
    exact ⟨hline, hvblank⟩

/-! ### The drained buffer (R280, R281) -/

/-- Where a drain puts entry `p` of the composition buffer; `none` if it is cropped away. -/
def outIndex (crop : Bool) (p : Nat) : Option Nat := if crop then cropIndex p else some p

theorem cropIndex_of_inside {x y : Nat} (hx : 8 ≤ x) (hx' : x ≤ 247) (hy : 8 ≤ y) (hy' : y ≤ 231) :
    cropIndex (y * 256 + x) = some ((y - 8) * 240 + (x - 8)) := by
  have hmod : (y * 256 + x) % 256 = x := by omega
  have hdiv : (y * 256 + x) / 256 = y := by omega
  rw [cropIndex, hmod, hdiv, if_pos ⟨hx, hx', hy, hy'⟩]

/-- No two entries go to the same place. -/
theorem outIndex_inj {crop : Bool} {p p' q : Nat} (h : outIndex crop p = some q) (h' : outIndex crop p' = some q) :
    p = p' := by
  cases crop
  · exact Option.some.inj (h.trans h'.symm)
  · rcases lt_trichotomy p p' with hlt | rfl | hlt
    · exact absurd (cropIndex_strictMono hlt h h') (lt_irrefl q)
    · rfl
    · exact absurd (cropIndex_strictMono hlt h' h) (lt_irrefl q)

theorem mem_drainedOut {crop : Bool} {comp : Sparse Pixel} {q : Nat} {color : BitVec 6} :
    (q, color) ∈ drainedOut crop comp ↔
      ∃ p e, (p, e) ∈ comp ∧ outIndex crop p = some q ∧ e.color = color ∧ color ≠ 0 := by
  unfold drainedOut
  rw [List.mem_filterMap]
  constructor
  · rintro ⟨⟨p, e⟩, hm, h⟩
    refine ⟨p, e, hm, ?_⟩
    split at h
    · nomatch h
    · rename_i hne
      cases crop
      · obtain ⟨rfl, rfl⟩ := Prod.mk.inj (Option.some.inj h)
        exact ⟨rfl, rfl, hne⟩
      · obtain ⟨q', hq, he⟩ := Option.map_eq_some_iff.1 h
        obtain ⟨rfl, rfl⟩ := Prod.mk.inj he
        exact ⟨hq, rfl, hne⟩
  · rintro ⟨p, e, hm, hq, rfl, hne⟩
    refine ⟨(p, e), hm, ?_⟩
    cases crop
    · obtain rfl := Option.some.inj hq
      exact if_neg hne
    · exact (if_neg hne).trans (congrArg (Option.map fun q => (q, e.color)) hq)

/-- The colour of an entry stands where the drain puts the entry. -/
theorem get_drainedOut {crop : Bool} {comp : Sparse Pixel} (hwf : Memory.wf Pixel.clear 61440 comp) {p q : Nat}
    (h : outIndex crop p = some q) :
    Memory.get 0 (drainedOut crop comp) q = (Memory.get Pixel.clear comp p).color := by
  by_cases hcolor : (Memory.get Pixel.clear comp p).color = 0
  · by_contra hne
    rw [hcolor] at hne
    obtain ⟨p', e, hm, hq, he, -⟩ := mem_drainedOut.1 (Memory.mem_of_get hne)
    obtain rfl := outIndex_inj h hq
    rw [Memory.get_of_mem hwf hm] at hcolor
    exact hne (he.symm.trans hcolor)
  · have hlisted : Memory.get Pixel.clear comp p ≠ Pixel.clear := fun e => hcolor (by rw [e]; rfl)
    have hm := mem_drainedOut.2 ⟨p, _, Memory.mem_of_get hlisted, h, rfl, hcolor⟩
    exact Memory.get_of_mem (wf_drainedOut crop hwf) hm

/-- Settles O53: the drained buffer entry by entry, cropped or not. -/
theorem drainHandsOffTheFrame : Obligations.DrainHandsOffTheFrame := by
  intro s hwf
  rw [ppuTick_eq]
  refine ⟨fun hs hc => ?_, fun h => (ppuEvents_of_not_startVblank h).2.2⟩
  obtain ⟨hcomp, hparams⟩ := startVblank_drain_input s
  rw [ppuEvents_startVblank hs hc, drain, hcomp, hparams]
  refine ⟨fun p => rfl, fun hcrop p _ => ?whole, fun hcrop x y hx hx' hy hy' => ?cropped⟩
  case whole => exact get_drainedOut hwf (by rw [hcrop]; rfl)
  case cropped => exact get_drainedOut hwf (by rw [hcrop]; exact cropIndex_of_inside hx hx' hy hy')

/-! ### The background row (R265, R267) -/

theorem paletteColor_eq (n : Nat) (s : State) :
    paletteColor n s = BitVec.ofNat 6 ((Memory.get 0 s.ppu.palette n).toNat % 64) := by
  apply BitVec.eq_of_toNat_eq
  simp [paletteColor]

/-- The pattern value as the sum of its two bits. -/
theorem patternValue_eq (lo hi : Byte) (bit : Nat) : patternValue lo hi bit =
    BitVec.ofNat 2 ((if lo.getLsbD bit then 1 else 0) + (if hi.getLsbD bit then 2 else 0)) := by
  unfold patternValue bitNat
  cases hi.getLsbD bit <;> rfl

/-- Tile `k` of a row is fetched `k` steps of `IncCoarseX` on. -/
theorem fetchTiles_getD {s : State} {addr : Nat → VAddr} (hstep : ∀ k, addr (k + 1) = incCoarseX (addr k))
    {n k : Nat} (hk : k < n) (m : Nat) (d : TileRow) :
    (fetchTiles s n (addr m)).getD k d = fetchTile (addr (m + k)) s := by
  induction n generalizing m k with
  | zero => omega
  | succ n ih =>
    rw [fetchTiles, ← hstep]
    cases k with
    | zero => rfl
    | succ k => rw [List.getD_cons_succ, ih (by omega), Nat.add_right_comm, Nat.add_assoc]

/-- An entry of the background row, from the tile it shows. -/
theorem bgPixel_eq {tiles : List TileRow} {x : Nat} {s : State} {t : TileRow} {px : BitVec 2}
    (ht : tiles.getD ((x + s.ppu.fineX.toNat) / 8) ⟨0, 0, 0⟩ = t)
    (hpx : px = if x < 8 ∧ s.ppu.showBgLeft = false then 0
      else patternValue t.lo t.hi (7 - (x + s.ppu.fineX.toNat) % 8)) :
    bgPixel tiles x s =
      { color := BitVec.ofNat 6 ((Memory.get 0 s.ppu.palette
          (if px = 0 then 0 else 4 * t.group.toNat + px.toNat)).toNat % 64)
        opacity := px
        owner := none } := by
  have hcolor : bgColor t.group px s = BitVec.ofNat 6 ((Memory.get 0 s.ppu.palette
      (if px = 0 then 0 else 4 * t.group.toNat + px.toNat)).toNat % 64) := by
    unfold bgColor
    split <;> exact paletteColor_eq _ s
  unfold bgPixel bgPattern
  simp only
  rw [ht, ← hpx, hcolor]

/-- Settles O54: a row is one splice of the buffer, its entries those of `bgPixel`; the tick's part is O60's. -/
theorem backgroundRow : Obligations.BackgroundRow := by
  intro s y x addr tile px hy hx h0 hstep htile hpx
  have hfine := s.ppu.fineX.isLt
  have hget (p : Nat) : Memory.get Pixel.clear (renderBackgroundRow y s).ppu.comp p =
      if y * 256 ≤ p ∧ p < y * 256 + 256 then bgPixel (fetchTiles s 33 s.ppu.v) (p - y * 256) s
      else Memory.get Pixel.clear s.ppu.comp p := Memory.get_splice
  refine ⟨?entry, fun p hp => ?others, rfl, fun hs hc hbg hsp => ?tick⟩
  case entry =>
    have ht := fetchTiles_getD (s := s) hstep (n := 33) (k := (x + s.ppu.fineX.toNat) / 8) (by omega) 0 ⟨0, 0, 0⟩
    rw [h0, Nat.zero_add, ← htile] at ht
    rw [hget, if_pos (by omega), Nat.add_sub_cancel_left]
    exact bgPixel_eq ht (by rw [hpx, patternValue_eq]; rfl)
  case others => rw [hget, if_neg (by omega)]
  case tick =>
    obtain ⟨hrow, hv⟩ := (rowCompositing s _ (renderBackgroundRow y s) y hy hs (if_pos hbg).symm
      (if_neg (Bool.eq_false_iff.1 hsp)).symm).1 hc
    have hcomp := congrArg (fun t : State => t.ppu.comp) hrow
    exact ⟨hcomp, hv⟩

/-! ### Bit fields in natural numbers -/

theorem toNat_append_eq_add {m n : Nat} (x : BitVec m) (y : BitVec n) :
    (x ++ y).toNat = x.toNat * 2 ^ n + y.toNat := by
  rw [BitVec.toNat_append, ← Nat.shiftLeft_add_eq_or_of_lt y.isLt, Nat.shiftLeft_eq]

theorem extractLsb'_toNat_div {w : Nat} (a : BitVec w) (i n : Nat) :
    (a.extractLsb' i n).toNat = a.toNat / 2 ^ i % 2 ^ n := by
  rw [BitVec.extractLsb'_toNat, Nat.shiftRight_eq_div_pow]

/-- The two bits that a quadrant shift selects from a byte. -/
theorem ushiftRight_extractLsb'_two (b : Byte) (k : Nat) :
    (b >>> k).extractLsb' 0 2 = BitVec.ofNat 2 (b.toNat / 2 ^ k) := by
  apply BitVec.eq_of_toNat_eq
  rw [extractLsb'_toNat_div, BitVec.toNat_ushiftRight, Nat.shiftRight_eq_div_pow, BitVec.toNat_ofNat, pow_zero,
    Nat.div_one]

/-! ### The addresses of a tile fetch (R264, R266) -/

theorem fineY_toNat (a : VAddr) : (fineY a).toNat = a.toNat / 0x1000 := by
  have := a.isLt
  rw [fineY, extractLsb'_toNat_div]
  omega

theorem nametableAddr_toNat (a : VAddr) :
    (0x2000#14 ||| (a.setWidth 14 &&& 0x0FFF#14)).toNat = 0x2000 + a.toNat % 0x1000 := by
  have fields : 0x2000#14 ||| (a.setWidth 14 &&& 0x0FFF#14) = 2#2 ++ a.extractLsb' 0 12 := by
    ext i hi
    have base : (0x2000#14)[i] = decide (i = 13) := by revert i; decide
    have mask : (0xFFF#14)[i] = decide (i < 12) := by revert i; decide
    have top : ∀ j, (h : j < 2) → (2#2)[j] = decide (j = 1) := by decide
    grind
  calc (0x2000#14 ||| (a.setWidth 14 &&& 0x0FFF#14)).toNat
    _ = (2#2 ++ a.extractLsb' 0 12).toNat := congrArg BitVec.toNat fields
    _ = 0x2000 + a.toNat % 0x1000 := by
      simp only [toNat_append_eq_add, extractLsb'_toNat_div, BitVec.toNat_ofNat]
      omega

/-- The byte of a tile's area: `0x3C0` into the nametable, then a row and a column of areas of 4 by 4 tiles. -/
theorem attrAddr_toNat (a : VAddr) : (attrAddr a).toNat =
    0x2000 + a.toNat / 0x400 % 4 * 0x400 + 0x3C0 + a.toNat / 32 % 32 / 4 * 8 + a.toNat % 32 / 4 := by
  have fields : attrAddr a = 2#2 ++ a.extractLsb' 10 2 ++ 15#4 ++ a.extractLsb' 7 3 ++ a.extractLsb' 2 3 := by
    ext i hi
    have base : (0x23C0#14)[i] = decide (i = 13 ∨ 6 ≤ i ∧ i < 10) := by revert i; decide
    have nametable : (0x0C00#14)[i] = decide (10 ≤ i ∧ i < 12) := by revert i; decide
    have row : (0x38#14)[i] = decide (3 ≤ i ∧ i < 6) := by revert i; decide
    have column : (0x07#14)[i] = decide (i < 3) := by revert i; decide
    have top : ∀ j, (h : j < 2) → (2#2)[j] = decide (j = 1) := by decide
    have ones : ∀ j, (h : j < 4) → (15#4)[j] = true := by decide
    unfold attrAddr
    grind
  calc (attrAddr a).toNat
    _ = (2#2 ++ a.extractLsb' 10 2 ++ 15#4 ++ a.extractLsb' 7 3 ++ a.extractLsb' 2 3).toNat :=
      congrArg BitVec.toNat fields
    _ = _ := by
      simp only [toNat_append_eq_add, extractLsb'_toNat_div, BitVec.toNat_ofNat]
      omega

/-- The quadrant: coarse Y bit 1 above coarse X bit 1. -/
theorem attrShift_eq (a : VAddr) : attrShift a = a.toNat / 32 % 32 / 2 % 2 * 4 + a.toNat % 32 / 2 % 2 * 2 := by
  have fields : ((a >>> 4) &&& 4) ||| (a &&& 2) = 0#12 ++ a.extractLsb' 6 1 ++ a.extractLsb' 1 1 ++ 0#1 := by
    ext i hi
    have four : (4#15)[i] = decide (i = 2) := by revert i; decide
    have two : (2#15)[i] = decide (i = 1) := by revert i; decide
    grind
  have row : a.toNat / 32 % 32 / 2 % 2 = a.toNat / 64 % 2 := by omega
  have column : a.toNat % 32 / 2 % 2 = a.toNat / 2 % 2 := by omega
  rw [row, column]
  calc attrShift a
    _ = (0#12 ++ a.extractLsb' 6 1 ++ a.extractLsb' 1 1 ++ 0#1).toNat := congrArg BitVec.toNat fields
    _ = _ := by
      simp only [toNat_append_eq_add, extractLsb'_toNat_div, BitVec.toNat_ofNat]
      omega

theorem bgPatternAddr_toNat (tile : Byte) (table : Bool) (fine : BitVec 3) : (bgPatternAddr tile table fine).toNat =
    tile.toNat * 16 + (if table then 4096 else 0) + fine.toNat := by
  have fields : bgPatternAddr tile table fine = 0#1 ++ BitVec.ofBool table ++ tile ++ 0#1 ++ fine := by
    unfold bgPatternAddr
    ext i hi
    grind
  calc (bgPatternAddr tile table fine).toNat
    _ = (0#1 ++ BitVec.ofBool table ++ tile ++ 0#1 ++ fine).toNat := congrArg BitVec.toNat fields
    _ = _ := by
      simp only [toNat_append_eq_add, BitVec.toNat_ofBool, BitVec.toNat_ofNat]
      cases table <;> simp only [Bool.toNat_true, Bool.toNat_false, if_true, Bool.false_eq_true, if_false] <;> omega

/-- Settles O55: each address of the fetch in natural numbers, then the quadrant in the byte of the tile's area. -/
theorem tileFetch : Obligations.TileFetch := by
  intro a s cx cy slot tile attr pa hcx hcy hslot htile hattr hpa
  have hname : 0x2000#14 ||| (a.setWidth 14 &&& 0x0FFF#14) = BitVec.ofNat 14 (0x2000 + a.toNat % 0x1000) := by
    rw [← nametableAddr_toNat, BitVec.ofNat_toNat, BitVec.setWidth_eq]
  have hattrAddr : attrAddr a = BitVec.ofNat 14 (0x2000 + slot * 0x400 + 0x3C0 + cy / 4 * 8 + cx / 4) := by
    rw [hslot, hcy, hcx, ← attrAddr_toNat, BitVec.ofNat_toNat, BitVec.setWidth_eq]
  have hpattern : bgPatternAddr tile s.ppu.bgTable (fineY a) = pa := by
    apply BitVec.eq_of_toNat_eq
    rw [bgPatternAddr_toNat, fineY_toNat, hpa]
    rfl
  have hgroup : attrGroup a s = BitVec.ofNat 2 (attr.toNat / 2 ^ (cy / 2 % 2 * 4 + cx / 2 % 2 * 2)) := by
    rw [attrGroup, ushiftRight_extractLsb'_two, attrShift_eq, hattrAddr, ← hattr, hcx, hcy]
  rw [fetchTile, hname, ← htile, hpattern, hgroup]

/-! ### The scroll fields (R31, R276, R277) -/

theorem getLsbD_withFineY (y : BitVec 3) (a : VAddr) {i : Nat} (hi : i < 15) :
    (withFineY y a).getLsbD i = if i < 12 then a.getLsbD i else y.getLsbD (i - 12) := by
  have mask : (0x0FFF#15).getLsbD i = decide (i < 12) := by revert i; decide
  unfold withFineY
  grind

theorem getLsbD_withCoarseY (y : BitVec 5) (a : VAddr) {i : Nat} (hi : i < 15) :
    (withCoarseY y a).getLsbD i = if 5 ≤ i ∧ i < 10 then y.getLsbD (i - 5) else a.getLsbD i := by
  have mask : (0x7C1F#15).getLsbD i = decide (i < 5 ∨ 10 ≤ i) := by revert i; decide
  unfold withCoarseY
  grind

theorem getLsbD_reloadHorizontal (t v : VAddr) {i : Nat} (hi : i < 15) :
    (reloadHorizontal t v).getLsbD i = if i < 5 ∨ i = 10 then t.getLsbD i else v.getLsbD i := by
  have keep : (0x7BE0#15).getLsbD i = decide (¬ (i < 5 ∨ i = 10)) := by revert i; decide
  have load : (0x041F#15).getLsbD i = decide (i < 5 ∨ i = 10) := by revert i; decide
  unfold reloadHorizontal
  grind

/-- The switch to the vertically other nametable. -/
theorem getLsbD_xor_0800 (a : VAddr) {i : Nat} (hi : i < 15) :
    (a ^^^ 0x0800#15).getLsbD i = if i = 11 then !a.getLsbD 11 else a.getLsbD i := by
  have mask : (0x0800#15).getLsbD i = decide (i = 11) := by revert i; decide
  grind

/-- Bits that agree on a field make the field agree. -/
theorem extractLsb'_congr {w n lo : Nat} {a b : BitVec w} (h : ∀ j < n, a.getLsbD (lo + j) = b.getLsbD (lo + j)) :
    a.extractLsb' lo n = b.extractLsb' lo n := by
  refine BitVec.eq_of_getLsbD_eq fun j hj => ?_
  simp only [BitVec.getLsbD_extractLsb', h j hj]

/-- A field holds the bits that stand in it. -/
theorem extractLsb'_eq_of_getLsbD {w n lo : Nat} {a : BitVec w} {f : BitVec n}
    (h : ∀ j < n, a.getLsbD (lo + j) = f.getLsbD j) : a.extractLsb' lo n = f := by
  refine BitVec.eq_of_getLsbD_eq fun j hj => ?_
  simp only [BitVec.getLsbD_extractLsb', hj, decide_true, Bool.true_and, h j hj]

@[simp] theorem fineY_withFineY (y : BitVec 3) (a : VAddr) : fineY (withFineY y a) = y :=
  extractLsb'_eq_of_getLsbD fun j hj => by
    rw [getLsbD_withFineY y a (by omega), if_neg (by omega), Nat.add_sub_cancel_left]

@[simp] theorem coarseY_withFineY (y : BitVec 3) (a : VAddr) : coarseY (withFineY y a) = coarseY a :=
  extractLsb'_congr fun j hj => by rw [getLsbD_withFineY y a (by omega), if_pos (by omega)]

@[simp] theorem fineY_withCoarseY (y : BitVec 5) (a : VAddr) : fineY (withCoarseY y a) = fineY a :=
  extractLsb'_congr fun j hj => by rw [getLsbD_withCoarseY y a (by omega), if_neg (by omega)]

@[simp] theorem coarseY_withCoarseY (y : BitVec 5) (a : VAddr) : coarseY (withCoarseY y a) = y :=
  extractLsb'_eq_of_getLsbD fun j hj => by
    rw [getLsbD_withCoarseY y a (by omega), if_pos (by omega), Nat.add_sub_cancel_left]

@[simp] theorem fineY_xor_0800 (a : VAddr) : fineY (a ^^^ 0x0800#15) = fineY a :=
  extractLsb'_congr fun j hj => by rw [getLsbD_xor_0800 a (by omega), if_neg (by omega)]

theorem withFineY_getLsbD_11 (y : BitVec 3) (a : VAddr) : (withFineY y a).getLsbD 11 = a.getLsbD 11 := by
  rw [getLsbD_withFineY y a (by omega), if_pos (by omega)]

theorem withCoarseY_getLsbD_11 (y : BitVec 5) (a : VAddr) : (withCoarseY y a).getLsbD 11 = a.getLsbD 11 := by
  rw [getLsbD_withCoarseY y a (by omega), if_neg (by omega)]

theorem xor_0800_getLsbD_11 (a : VAddr) : (a ^^^ 0x0800#15).getLsbD 11 = !a.getLsbD 11 := by
  rw [getLsbD_xor_0800 a (by omega), if_pos rfl]

/-- The step to the next pixel row: row 31 wraps by the width of the field, row 29 by the rule. -/
theorem incFineY_eq (v : VAddr) : incFineY v = if fineY v ≠ 7 then withFineY (fineY v + 1) v
    else if coarseY v = 29 then withCoarseY 0 (withFineY (fineY v + 1) v ^^^ 0x0800#15)
    else withCoarseY (coarseY v + 1) (withFineY (fineY v + 1) v) := by
  unfold incFineY
  by_cases h7 : fineY v = 7
  · have wrap : (0 : BitVec 3) = fineY v + 1 := by rw [h7]; rfl
    rw [if_neg (not_not.2 h7), if_neg (not_not.2 h7), wrap]
    simp only [coarseY_withFineY]
    by_cases h31 : coarseY v = 31
    · rw [h31]; rfl
    · rw [if_neg h31]
  · rw [if_pos h7, if_pos h7]

/-- The step to the next pixel row, in its three fields. -/
theorem incFineY_fields (v : VAddr) :
    fineY (incFineY v) = fineY v + 1 ∧
    coarseY (incFineY v) = (if fineY v ≠ 7 then coarseY v else if coarseY v = 29 then 0 else coarseY v + 1) ∧
    (incFineY v).getLsbD 11 = (if fineY v = 7 ∧ coarseY v = 29 then !v.getLsbD 11 else v.getLsbD 11) := by
  rw [incFineY_eq]
  by_cases h7 : fineY v = 7
  · rw [if_neg (not_not.2 h7), if_neg (not_not.2 h7)]
    by_cases h29 : coarseY v = 29
    · simp only [if_pos h29, if_pos (And.intro h7 h29), fineY_withCoarseY, fineY_xor_0800, fineY_withFineY,
        coarseY_withCoarseY, withCoarseY_getLsbD_11, xor_0800_getLsbD_11, withFineY_getLsbD_11, and_self]
    · simp only [if_neg h29, if_neg fun h : _ ∧ _ => h29 h.2, fineY_withCoarseY, fineY_withFineY,
        coarseY_withCoarseY, withCoarseY_getLsbD_11, withFineY_getLsbD_11, and_self]
  · simp only [if_pos (show fineY v ≠ 7 from h7), if_neg fun h : _ ∧ _ => h7 h.1, fineY_withFineY, coarseY_withFineY,
      withFineY_getLsbD_11, and_self]

theorem vAddr_add_one_toNat (a : VAddr) : (a + 1).toNat = (a.toNat + 1) % 2 ^ 15 := BitVec.toNat_add a 1

/-- The step to the next tile, in the field of coarse X. -/
theorem coarseX_incCoarseX (a : VAddr) : coarseX (incCoarseX a) = coarseX a + 1 := by
  unfold incCoarseX
  by_cases h : coarseX a = 0x1F
  · rw [if_pos h, h]
    have hx : coarseX (a ^^^ 0x041F#15) = coarseX a ^^^ 0x1F#5 := BitVec.extractLsb'_xor
    rw [hx, h]
    rfl
  · rw [if_neg h]
    apply BitVec.eq_of_toNat_eq
    have hfield : (coarseX a + 1).toNat = ((coarseX a).toNat + 1) % 2 ^ 5 := BitVec.toNat_add _ 1
    rw [hfield, coarseX, coarseX, extractLsb'_toNat_div, extractLsb'_toNat_div, vAddr_add_one_toNat]
    omega

/-- The step to the next tile, in the bits above coarse X: after 31 the horizontal nametable is switched. -/
theorem getLsbD_incCoarseX (a : VAddr) {i : Nat} (h5 : 5 ≤ i) (hi : i < 15) : (incCoarseX a).getLsbD i =
    if i = 10 ∧ coarseX a = 0x1F then !a.getLsbD 10 else a.getLsbD i := by
  unfold incCoarseX
  by_cases h : coarseX a = 0x1F
  · have mask : (0x041F#15).getLsbD i = decide (i < 5 ∨ i = 10) := by revert i; decide
    rw [if_pos h]
    grind
  · have hlt : a.toNat % 32 ≠ 31 := fun e => h (BitVec.eq_of_toNat_eq (by
      rw [coarseX, extractLsb'_toNat_div, pow_zero, Nat.div_one]
      exact e))
    have hdiv : (a + 1).toNat / 2 ^ 5 = a.toNat / 2 ^ 5 := by
      rw [vAddr_add_one_toNat]
      omega
    have hbit := congrArg (fun n => n.testBit (i - 5)) hdiv
    simp only [Nat.testBit_div_two_pow, Nat.sub_add_cancel h5] at hbit
    rw [if_neg h, if_neg fun e => h e.2]
    exact hbit

/-- With rendering off no event writes `v` (R286). -/
theorem ppuEvents_v_of_not_rendering {s : State} (h : s.ppu.rendering = false) : (ppuEvents s).ppu.v = s.ppu.v := by
  have hoff : ¬ s.ppu.rendering = true := Bool.eq_false_iff.1 h
  rcases ppuEvents_cases s with ⟨y, hy, hs, e⟩ | ⟨-, -, e⟩ | ⟨-, -, e⟩ | ⟨-, -, e⟩ | ⟨-, -, e⟩ | e <;> rw [e]
  case inl => exact (congrArg (fun t : State => t.ppu.v) (visibleEvents_eq rfl)).trans (if_neg fun hc => hoff hc.2)
  case inr.inl =>
    cases hsup : s.ppu.suppressVbl
    · rw [drain, startVblank_ppu hsup]
    · rw [startVblank_suppressed hsup]; rfl
  case inr.inr.inl => rfl
  case inr.inr.inr.inl => rfl
  case inr.inr.inr.inr.inl => rw [reloadScroll, if_neg hoff]

/-- Settles O56: the scroll event of the tick, its two halves field by field, and when `v` is left alone. -/
theorem scrollUpdate : Obligations.ScrollUpdate := by
  refine ⟨?event, fun a => ?tile, fun s => ⟨fun hbg hsp => ?off, fun h0 h239 hc => ?otherCycle⟩⟩
  case event =>
    intro s v' h0 h239 hc _ hrender hv'
    rw [ppuTick_visible_v (y := s.ppu.scanline.toNat) (by omega) (by omega), if_pos ⟨hc, hrender⟩] at hv'
    obtain ⟨hfine, hcoarse, h11⟩ := incFineY_fields s.ppu.v
    have kept {i : Nat} (hi : i < 15) (hne : ¬ (i < 5 ∨ i = 10)) : v'.getLsbD i = (incFineY s.ppu.v).getLsbD i := by
      rw [hv', getLsbD_reloadHorizontal _ _ hi, if_neg hne]
    have loaded {i : Nat} (hi : i < 5 ∨ i = 10) : v'.getLsbD i = s.ppu.t.getLsbD i := by
      rw [hv', getLsbD_reloadHorizontal _ _ (by omega), if_pos hi]
    exact ⟨(extractLsb'_congr fun j hj => kept (by omega) (by omega)).trans hfine,
      (extractLsb'_congr fun j hj => kept (by omega) (by omega)).trans hcoarse,
      (kept (by omega) (by omega)).trans h11, loaded (.inr rfl), extractLsb'_congr fun j hj => loaded (by omega)⟩
  case tile =>
    have kept {i : Nat} (h5 : 5 ≤ i) (hi : i < 15) (hne : i ≠ 10) : (incCoarseX a).getLsbD i = a.getLsbD i := by
      rw [getLsbD_incCoarseX a h5 hi, if_neg fun h => hne h.1]
    refine ⟨extractLsb'_congr fun j hj => kept (by omega) (by omega) (by omega), ?_,
      extractLsb'_congr fun j hj => kept (by omega) (by omega) (by omega), coarseX_incCoarseX a⟩
    rw [getLsbD_incCoarseX a (by omega) (by omega)]
    exact if_congr (and_iff_right rfl) rfl rfl
  case off =>
    rw [ppuTick_eq]
    exact ppuEvents_v_of_not_rendering (by rw [Ppu.rendering, Ppu.showBg, Ppu.showSprites, hbg, hsp]; rfl)
  case otherCycle =>
    rw [ppuTick_visible_v (y := s.ppu.scanline.toNat) (by omega) (by omega), if_neg fun h => hc h.1]

/-! ### What sprites may change (R274, R275) -/

/-- What composing sprites of the set `covers` on row `y` may change: an entry that no sprite owns, which then shows an
opaque pixel of one of them, in front of what was opaque; and sprite-0 hit, over an opaque background entry. -/
structure SpritesOver (covers : Fin 64 → Prop) (y : Nat) (s t : State) : Prop where
  oam : t.ppu.oam = s.ppu.oam
  kept : ∀ p, (Memory.get Pixel.clear s.ppu.comp p).owner ≠ none ∨ p < y * 256 ∨ y * 256 + 256 ≤ p →
    Memory.get Pixel.clear t.ppu.comp p = Memory.get Pixel.clear s.ppu.comp p
  changed : ∀ p, Memory.get Pixel.clear t.ppu.comp p ≠ Memory.get Pixel.clear s.ppu.comp p →
    ∃ i, covers i ∧ (Memory.get Pixel.clear t.ppu.comp p).owner = some i ∧
      (Memory.get Pixel.clear t.ppu.comp p).opacity ≠ 0 ∧
      ((Memory.get Pixel.clear s.ppu.comp p).opacity ≠ 0 → (oamField i 2 s).getLsbD 5 = false)
  hit : t.ppu.status.getLsbD 6 = true → s.ppu.status.getLsbD 6 = true ∨
    covers 0 ∧ ∃ x < 256, (Memory.get Pixel.clear s.ppu.comp (y * 256 + x)).owner = none ∧
      (Memory.get Pixel.clear s.ppu.comp (y * 256 + x)).opacity ≠ 0

section
variable {covers : Fin 64 → Prop} {y : Nat} {s t u : State}

theorem SpritesOver.refl (s : State) : SpritesOver covers y s s :=
  ⟨rfl, fun _ _ => rfl, fun _ h => absurd rfl h, .inl⟩

theorem SpritesOver.trans (h : SpritesOver covers y s t) (k : SpritesOver covers y t u) : SpritesOver covers y s u := by
  have firstWins {p : Nat} (hp : Memory.get Pixel.clear t.ppu.comp p ≠ Memory.get Pixel.clear s.ppu.comp p) :
      Memory.get Pixel.clear u.ppu.comp p = Memory.get Pixel.clear t.ppu.comp p := by
    obtain ⟨i, -, howner, -⟩ := h.changed p hp
    exact k.kept p (.inl (by rw [howner]; exact Option.some_ne_none i))
  refine ⟨k.oam.trans h.oam, fun p hp => ?kept, fun p hp => ?changed, fun hhit => ?hit⟩
  case kept =>
    have hst := h.kept p hp
    rw [← hst] at hp
    exact (k.kept p hp).trans hst
  case changed =>
    by_cases hst : Memory.get Pixel.clear t.ppu.comp p = Memory.get Pixel.clear s.ppu.comp p
    · rw [← hst] at hp
      obtain ⟨i, hi, howner, hopaque, hfront⟩ := k.changed p hp
      refine ⟨i, hi, howner, hopaque, fun ho => ?_⟩
      rw [← hst] at ho
      rw [oamField, ← h.oam]
      exact hfront ho
    · rw [firstWins hst]
      exact h.changed p hst
  case hit =>
    rcases k.hit hhit with hs | ⟨h0, x, hx, howner, hopaque⟩
    · exact h.hit hs
    · have hst : Memory.get Pixel.clear t.ppu.comp (y * 256 + x) = Memory.get Pixel.clear s.ppu.comp (y * 256 + x) := by
        by_contra hne
        obtain ⟨i, -, hi, -⟩ := h.changed _ hne
        exact Option.some_ne_none i (hi.symm.trans howner)
      rw [hst] at howner hopaque
      exact .inr ⟨h0, x, hx, howner, hopaque⟩

/-- The overflow flag is none of it. -/
theorem SpritesOver.overflow (s : State) :
    SpritesOver covers y s { s with ppu := { s.ppu with status := s.ppu.status ||| 0x20 } } := by
  refine ⟨rfl, fun _ _ => rfl, fun _ h => absurd rfl h, fun h => .inl ?_⟩
  rw [BitVec.getLsbD_or] at h
  exact (Bool.or_eq_true_iff.1 h).resolve_right (by decide)

theorem spritePixel_over {i : Fin 64} (hi : covers i) (lo hi' : Byte) {attr : Byte} (hattr : attr = oamField i 2 s)
    (x0 : Byte) (c : Nat) : SpritesOver covers y s (spritePixel i y lo hi' attr x0 c s) := by
  obtain ⟨px, hpx⟩ : ∃ px, px = patternValue lo hi' (if attr.getLsbD 6 then c else 7 - c) := ⟨_, rfl⟩
  rw [spritePixel_eq i y lo hi' attr x0 c s hpx rfl Iff.rfl]
  refine ⟨rfl, fun p hp => ?kept, fun p hp => ?changed, fun hhit => ?hit⟩
  case kept =>
    simp only
    split
    · rename_i hdraw
      refine Memory.get_set_other fun e => ?_
      rcases hp with howned | hout
      · exact howned (by rw [e]; exact hdraw.2.1)
      · have := hdraw.1.1
        omega
    · rfl
  case changed =>
    simp only at hp ⊢
    split at hp
    · rename_i hdraw
      by_cases e : p = y * 256 + (x0.toNat + c)
      · rw [if_pos hdraw, e, Memory.get_set_same]
        obtain ⟨⟨-, hopaque, -⟩, -, hfront⟩ := hdraw
        refine ⟨i, hi, rfl, hopaque, fun ho => ?_⟩
        rw [← hattr]
        exact Bool.eq_false_iff.2 fun hb => hfront ⟨ho, hb⟩
      · exact absurd (Memory.get_set_other e) hp
    · exact absurd rfl hp
  case hit =>
    simp only at hhit
    split at hhit
    · rename_i hdraw
      obtain ⟨⟨hx, -⟩, rfl, howner, hopaque⟩ := hdraw
      exact .inr ⟨hi, x0.toNat + c, by omega, howner, hopaque⟩
    · exact .inl hhit

theorem spriteColumns_over {i : Fin 64} (hi : covers i) (lo hi' : Byte) {attr : Byte} (hattr : attr = oamField i 2 s)
    (x0 : Byte) (k : Nat) : SpritesOver covers y s (spriteColumns i y lo hi' attr x0 k s) := by
  induction k with
  | zero => exact .refl s
  | succ k ih =>
    have hlater : attr = oamField i 2 (spriteColumns i y lo hi' attr x0 k s) := by
      rw [oamField, ih.oam]
      exact hattr
    exact ih.trans (spritePixel_over hi lo hi' hlater x0 k)

theorem compositeSprite_over {i : Fin 64} (hi : covers i) (h : Nat) :
    SpritesOver covers y s (compositeSprite i y h s) :=
  spriteColumns_over hi _ _ rfl _ 8

theorem foldl_compositeSprite_over {l : List (Fin 64)} (hl : ∀ i ∈ l, covers i) (h : Nat) :
    SpritesOver covers y s (l.foldl (fun u i => compositeSprite i y h u) s) := by
  induction l generalizing s with
  | nil => exact .refl s
  | cons i l ih =>
    exact (compositeSprite_over (hl i (by simp)) h).trans (ih fun j hj => hl j (by simp [hj]))

end

theorem mem_of_mem_drawnSprites {covering : List (Fin 64)} {s : State} {i : Fin 64}
    (h : i ∈ drawnSprites covering s) : i ∈ covering := by
  unfold drawnSprites at h
  split at h
  · exact List.mem_of_mem_take h
  · exact h

/-- Evaluating a scanline composes sprites that cover it. -/
theorem evaluateSprites_over (y : Nat) (s : State) :
    SpritesOver (fun i => inRange i y (spriteHeight s) s = true) y s (evaluateSprites y s) := by
  have hfold := foldl_compositeSprite_over (y := y) (s := s)
    (l := drawnSprites ((List.finRange 64).filter fun i => inRange i y (spriteHeight s) s) s)
    (fun i hi => (List.mem_filter.1 (mem_of_mem_drawnSprites hi)).2) (spriteHeight s)
  rw [evaluateSprites_eq y s rfl rfl]
  split
  · exact hfold.trans (.overflow _)
  · exact hfold

/-- Settles O57: the overflow bit after evaluation; the covering sprites counted by their numbers. -/
theorem spriteOverflow : Obligations.SpriteOverflow := by
  intro s y h covering _ hh hcov
  have hlen : covering = ((List.finRange 64).filter fun i => inRange i y (spriteHeight s) s).length := by
    rw [hcov, hh, ← List.map_coe_finRange_eq_range, List.filter_map, List.length_map]
    rfl
  rw [evaluateSprites_status y s rfl (by omega), ← hlen]
  simp

/-- Settles O58: evaluation as a fold, and `SpritesOver` of it. -/
theorem spriteCompositing : Obligations.SpriteCompositing := by
  intro s y h covers covering drawn t _ hh hcovers hcovering hdrawn ht
  have hrange : covers = fun i => inRange i y (spriteHeight s) s := by
    funext i
    rw [hcovers, hh]
    rfl
  subst hrange hh
  have hover := evaluateSprites_over y s
  refine ⟨evaluateSprites_eq y s hcovering ?_, hover.kept, hover.changed, hover.hit⟩
  rw [ht, hdrawn]
  rfl

/-! ### One sprite on a row (R273 to R275) -/

/-- The pattern address of a sprite row in natural numbers; `r'` is the row after the vertical flip. -/
theorem spriteRowAddr_eq {h r r' : Nat} {tile attr : Byte} {table : Bool} {pa : PAddr}
    (hr' : r' = if attr.getLsbD 7 then h - 1 - r else r)
    (hpa : pa.toNat = if h = 8 then (if table then 4096 else 0) + tile.toNat * 16 + r'
      else tile.toNat % 2 * 4096 + (tile.toNat / 2 * 2 + (if 8 ≤ r' then 1 else 0)) * 16 + r' % 8) :
    spriteRowAddr h r table tile attr = pa := by
  have htable : bitNat table * 0x1000 = if table then 4096 else 0 := by cases table <;> rfl
  unfold spriteRowAddr
  simp only
  rw [← hr', htable]
  rw [← apply_ite (BitVec.ofNat 14), ← hpa, BitVec.ofNat_toNat, BitVec.setWidth_eq]

section
variable {s : State} {i : Fin 64} {y : Nat} {lo hi attr x0 : Byte} {px : Nat → BitVec 2} {shown : Nat → Bool}

/-- One more column of a sprite, in the terms of the row: `px` and `shown` tell the sprite's pattern on the screen. -/
theorem spritePixel_row {c : Nat} {e : Pixel} (u : State)
    (hpx : px (x0.toNat + c) = patternValue lo hi (if attr.getLsbD 6 then c else 7 - c))
    (hshown : shown (x0.toNat + c) = decide (px (x0.toNat + c) ≠ 0 ∧
      ¬ (x0.toNat + c < 8 ∧ u.ppu.showSpritesLeft = false)))
    (he : e = Memory.get Pixel.clear u.ppu.comp (y * 256 + (x0.toNat + c))) :
    spritePixel i y lo hi attr x0 c u = { u with ppu := { u.ppu with
      status := if (x0.toNat + c < 256 ∧ shown (x0.toNat + c) = true) ∧ i = 0 ∧ e.owner = none ∧ e.opacity ≠ 0
        then putBit 6 true u.ppu.status else u.ppu.status
      comp := if (x0.toNat + c < 256 ∧ shown (x0.toNat + c) = true) ∧ e.owner = none ∧
            ¬ (e.opacity ≠ 0 ∧ attr.getLsbD 5 = true)
        then Memory.set Pixel.clear u.ppu.comp (y * 256 + (x0.toNat + c))
          ⟨paletteColor (0x10 + 4 * (attr.extractLsb' 0 2).toNat + (px (x0.toNat + c)).toNat) u, px (x0.toNat + c),
            some i⟩
        else u.ppu.comp } } :=
  spritePixel_eq i y lo hi attr x0 c u hpx he (by
    rw [hshown, decide_eq_true_iff]
    exact and_congr_left' (by omega))

/-- The hit flag after one column. -/
theorem ite_putBit_6 (q : Prop) [Decidable q] (p : Byte) :
    (if q then putBit 6 true p else p).getLsbD 6 = true ↔ p.getLsbD 6 = true ∨ q := by
  by_cases hq : q
  · rw [if_pos hq, getLsbD_putBit _ _ (by omega) (by omega)]
    exact iff_of_true rfl (.inr hq)
  · rw [if_neg hq]
    exact (or_iff_left hq).symm

/-- What the columns of a sprite read beside the composition buffer, no column writes. -/
theorem spriteColumns_reads (i : Fin 64) (y : Nat) (lo hi attr x0 : Byte) (k : Nat) (s : State) :
    (spriteColumns i y lo hi attr x0 k s).ppu.showSpritesLeft = s.ppu.showSpritesLeft ∧
    ∀ n, paletteColor n (spriteColumns i y lo hi attr x0 k s) = paletteColor n s := by
  obtain ⟨st, c, e, -⟩ := spriteColumns_writes i y lo hi attr x0 k s
  rw [e]
  exact ⟨rfl, fun _ => rfl⟩

variable (hpx : ∀ c < 8, px (x0.toNat + c) = patternValue lo hi (if attr.getLsbD 6 then c else 7 - c))
  (hshown : ∀ x, shown x = decide (px x ≠ 0 ∧ ¬ (x < 8 ∧ s.ppu.showSpritesLeft = false)))
include hpx hshown

/-- The entries of the row after the first `k` columns of a sprite. -/
theorem get_spriteColumns {k : Nat} (hk : k ≤ 8) {x : Nat} (hx : x < 256) {e : Pixel}
    (he : e = Memory.get Pixel.clear s.ppu.comp (y * 256 + x)) :
    Memory.get Pixel.clear (spriteColumns i y lo hi attr x0 k s).ppu.comp (y * 256 + x) =
      if (x0.toNat ≤ x ∧ x < x0.toNat + k) ∧ shown x = true ∧ e.owner = none ∧
          ¬ (e.opacity ≠ 0 ∧ attr.getLsbD 5 = true)
      then ⟨paletteColor (0x10 + 4 * (attr.extractLsb' 0 2).toNat + (px x).toNat) s, px x, some i⟩ else e := by
  induction k with
  | zero => rw [if_neg (by omega)]; exact he.symm
  | succ k ih =>
    have ih := ih (by omega)
    obtain ⟨hleft, hpalette⟩ := spriteColumns_reads i y lo hi attr x0 k s
    rw [spriteColumns]
    generalize spriteColumns i y lo hi attr x0 k s = u at ih hleft hpalette ⊢
    rw [spritePixel_row (shown := shown) u (hpx k (by omega)) (by rw [hleft, hshown]) rfl]
    by_cases hlast : x = x0.toNat + k
    · subst hlast
      rw [if_neg (by omega)] at ih
      simp only
      rw [ih, hpalette]
      by_cases htakes : shown (x0.toNat + k) = true ∧ e.owner = none ∧ ¬ (e.opacity ≠ 0 ∧ attr.getLsbD 5 = true)
      · rw [if_pos ⟨⟨hx, htakes.1⟩, htakes.2⟩, if_pos ⟨by omega, htakes⟩, Memory.get_set_same]
      · rw [if_neg fun h => htakes ⟨h.1.2, h.2⟩, if_neg fun h => htakes h.2, ih]
    · have hcond : x0.toNat ≤ x ∧ x < x0.toNat + (k + 1) ↔ x0.toNat ≤ x ∧ x < x0.toNat + k := by omega
      refine Eq.trans ?_ (ih.trans (if_congr (and_congr_left' hcond.symm) rfl rfl))
      simp only
      split
      · exact Memory.get_set_other (by omega)
      · rfl

/-- Sprite-0 hit after the first `k` columns of a sprite. -/
theorem spriteColumns_hit {k : Nat} (hk : k ≤ 8) :
    (spriteColumns i y lo hi attr x0 k s).ppu.status.getLsbD 6 = true ↔ s.ppu.status.getLsbD 6 = true ∨
      i = 0 ∧ ∃ x < 256, (x0.toNat ≤ x ∧ x < x0.toNat + k) ∧ shown x = true ∧
        (Memory.get Pixel.clear s.ppu.comp (y * 256 + x)).owner = none ∧
        (Memory.get Pixel.clear s.ppu.comp (y * 256 + x)).opacity ≠ 0 := by
  induction k with
  | zero =>
    exact ⟨.inl, fun h => h.resolve_right fun ⟨_, x, _, hx, _⟩ => by omega⟩
  | succ k ih =>
    have hfresh (hx : x0.toNat + k < 256) := get_spriteColumns (i := i) (y := y) hpx hshown (k := k) (by omega) hx rfl
    have ih := ih (by omega)
    obtain ⟨hleft, -⟩ := spriteColumns_reads i y lo hi attr x0 k s
    rw [spriteColumns]
    generalize spriteColumns i y lo hi attr x0 k s = u at ih hfresh hleft ⊢
    rw [spritePixel_row (shown := shown) u (hpx k (by omega)) (by rw [hleft, hshown]) rfl]
    have hentry : (x0.toNat + k < 256 ∧ shown (x0.toNat + k) = true) ∧ i = 0 ∧
          (Memory.get Pixel.clear u.ppu.comp (y * 256 + (x0.toNat + k))).owner = none ∧
          (Memory.get Pixel.clear u.ppu.comp (y * 256 + (x0.toNat + k))).opacity ≠ 0 ↔
        (x0.toNat + k < 256 ∧ shown (x0.toNat + k) = true) ∧ i = 0 ∧
          (Memory.get Pixel.clear s.ppu.comp (y * 256 + (x0.toNat + k))).owner = none ∧
          (Memory.get Pixel.clear s.ppu.comp (y * 256 + (x0.toNat + k))).opacity ≠ 0 :=
      and_congr_right fun ⟨hx, _⟩ => by rw [hfresh hx, if_neg (by omega)]
    rw [ite_putBit_6, hentry]
    constructor
    · rintro (h | ⟨⟨hx, hs⟩, h0, hfree⟩)
      · exact (ih.1 h).imp_right fun ⟨h0, x, hx, hr, hrest⟩ => ⟨h0, x, hx, by omega, hrest⟩
      · exact .inr ⟨h0, _, hx, by omega, hs, hfree⟩
    · rintro (h | ⟨h0, x, hx, hr, hs, hfree⟩)
      · exact .inl (ih.2 (.inl h))
      · by_cases hlast : x = x0.toNat + k
        · subst hlast
          exact .inr ⟨⟨hx, hs⟩, h0, hfree⟩
        · exact .inl (ih.2 (.inr ⟨h0, x, hx, by omega, hs, hfree⟩))

end

theorem attr_palette_toNat (attr : Byte) : (attr.extractLsb' 0 2).toNat = attr.toNat % 4 := by
  rw [extractLsb'_toNat_div, pow_zero, Nat.div_one]
  rfl

/-- Settles O59: the eight columns of a sprite over its row, and the frame of compositing. -/
theorem spriteRow : Obligations.SpriteRow := by
  intro s i y h r x0 tile attr pa px shown _ _ _ _ htile hattr hx0 hr hpa hpx hshown
  have haddr : spriteRowAddr h (y - ((oamField i 0 s).toNat + 1)) s.ppu.spriteTable tile attr = pa :=
    spriteRowAddr_eq hr hpa
  have hsprite : compositeSprite i y h s =
      spriteColumns i y (ppuMemRead pa s) (ppuMemRead (pa + 8) s) attr (oamField i 3 s) 8 s := by
    rw [← haddr, htile, hattr]
    rfl
  obtain rfl : x0 = (oamField i 3 s).toNat := hx0
  have hcolumn : ∀ c < 8, px ((oamField i 3 s).toNat + c) =
      patternValue (ppuMemRead pa s) (ppuMemRead (pa + 8) s) (if attr.getLsbD 6 then c else 7 - c) := fun c hc => by
    rw [hpx, if_pos (by omega), patternValue_eq, Nat.add_sub_cancel_left]
  have hinside {x : Nat} (h : shown x = true) : (oamField i 3 s).toNat ≤ x ∧ x < (oamField i 3 s).toNat + 8 := by
    by_contra hout
    rw [hshown, hpx, if_neg hout, decide_eq_true_iff] at h
    exact h.1 rfl
  refine ⟨fun x hx => ?entries, ?hit, fun p hp => ?otherRows, fun k hk => ?otherBits, ?frame⟩
  case entries =>
    rw [hsprite, get_spriteColumns hcolumn hshown le_rfl hx rfl, attr_palette_toNat, paletteColor_eq]
    exact if_congr ⟨And.right, fun h => ⟨hinside h.1, h⟩⟩ rfl rfl
  case hit =>
    rw [hsprite, spriteColumns_hit hcolumn hshown le_rfl]
    exact or_congr_right (and_congr_right fun _ => exists_congr fun x => and_congr_right fun _ =>
      ⟨And.right, fun h => ⟨hinside h.1, h⟩⟩)
  case otherRows => exact (compositeSprite_over (covers := fun _ => True) trivial h).kept p (.inr hp)
  case otherBits => exact compositeSprite_status i y h s hk
  case frame => exact compositeSprite_eq i y h s

end Sys2Proof.Machine

/-! The cartridge and its mapper (spec 48): cartridge RAM by read after write, the PRG windows by the number of banks,
and the configuration through the parts of a step. -/

namespace Sys2Proof.Machine

/-! ### Cartridge RAM -/

/-- A byte stored in cartridge RAM is read back at its own address and nowhere else there: the region has no images
(R68). -/
theorem memRead_memWrite_prgRam {a b : Word} (ha : 0x6000 ≤ a.toNat) (ha' : a.toNat < 0x8000) (hb : 0x6000 ≤ b.toNat)
    (hb' : b.toNat < 0x8000) (v : Byte) (s : State) :
    (memRead b (memWrite a v s)).1 = if a = b then v else (memRead b s).1 := by
  have hkey : b.toNat - 0x6000 = a.toNat - 0x6000 ↔ a = b := by
    rw [← BitVec.toNat_inj]
    omega
  simp only [memWrite_prgRam ha ha', memRead_prgRam hb hb', Memory.get_set, hkey]

/-! ### The PRG windows -/

/-- The single bank shows in both 16 KB windows (R312). -/
theorem prgOffset_one_add_window {a : Word} (h : 0x8000 ≤ a.toNat) (h' : a.toNat < 0xC000) :
    0x8000 ≤ (a + 0x4000).toNat ∧ prgOffset 1 (a + 0x4000) = prgOffset 1 a := by
  have hadd : (a + 0x4000).toNat = a.toNat + 0x4000 := by bv_omega
  refine ⟨by omega, ?_⟩
  rw [prgOffset, prgOffset, hadd]
  omega

/-- Two banks fill the two windows one after the other (R312). -/
theorem prgOffset_two (a : Word) : prgOffset 2 a = a.toNat - 0x8000 :=
  Nat.mod_eq_of_lt (by omega)

/-! ### The configuration through the parts of a step -/

/-- `t` has the configuration of `s`: the cartridge, the parameters and the mirroring mode (R7, R318, R320). -/
structure ConfigKept (s t : State) : Prop where
  cart : t.cart = s.cart
  params : t.params = s.params
  mirroring : t.mirroring = s.mirroring

theorem ConfigKept.trans {s t u : State} (h : ConfigKept s t) (k : ConfigKept t u) : ConfigKept s u :=
  ⟨k.cart.trans h.cart, k.params.trans h.params, k.mirroring.trans h.mirroring⟩

theorem InstrKept.config {s t : State} (h : InstrKept s t) : ConfigKept s t :=
  ⟨h.outside.cart, h.outside.params, h.outside.mirroring⟩

theorem latchFault_config (pc : Word) (op : Byte) (s : State) : ConfigKept s (latchFault pc op s) :=
  ⟨rfl, rfl, rfl⟩

/-- Neither the ticks nor the dispatch check of an instruction touches the configuration (R331). -/
theorem afterInstruction_config (s : State) : ConfigKept s (afterInstruction s) :=
  have ticks : ConfigKept s (spendCycles s) :=
    ⟨(spendCycles_kept s).cart, (spendCycles_kept s).params, (spendCycles_kept s).mirroring⟩
  have dispatch := dispatchCheck_kept (spendCycles s)
  ticks.trans ⟨dispatch.cart, dispatch.params, dispatch.mirroring⟩

/-- A step keeps the configuration: the fetch does, and so do the latched fault and the instruction that may follow. -/
theorem step_config {s t : State} (h : step s = .next t) : ConfigKept s t := by
  have hfetch : ConfigKept s (fetch s).2 := (fetch_kept s).1.config
  obtain ⟨-, ⟨op, -, rfl⟩ | ⟨i, u, -, hu, rfl⟩⟩ := step_next h
  · exact hfetch.trans (latchFault_config s.cpu.pc op _)
  · obtain ⟨u', hu', hk⟩ := exec_kept i (fetch s).2
    obtain rfl : u' = u := Host.Outcome.next.inj (hu'.symm.trans hu)
    exact (hfetch.trans hk.config).trans (afterInstruction_config u')

/-! ### The statements -/

/-- Settles O7: cartridge RAM by its read after write, the PRG windows by the offset of R312. -/
theorem cartridgeMemory : Obligations.CartridgeMemory := by
  intro a b v s
  refine ⟨fun ha ha' hb hb' => ⟨?read, ?write, memRead_memWrite_prgRam ha ha' hb hb' v s⟩,
    fun ha => ⟨memRead_prg ha s, memWrite_prg ha v s⟩, fun hone ha ha' => ?oneBank, fun htwo ha => ?twoBanks⟩
  case read => rw [memRead_prgRam ha ha']
  case write => rw [memWrite_prgRam ha ha']
  case oneBank =>
    obtain ⟨hhigh, hoffset⟩ := prgOffset_one_add_window ha ha'
    rw [memRead_prg hhigh, memRead_prg ha, hone, hoffset]
  case twoBanks => rw [memRead_prg ha, htwo, prgOffset_two]

/-- Settles O43: a byte of PRG depends on the cartridge alone, and the step keeps the cartridge. -/
theorem stepKeepsConfiguration : Obligations.StepKeepsConfiguration := by
  intro s t h
  obtain ⟨cart, params, mirroring⟩ := step_config h
  exact ⟨cart, params, mirroring, fun _ ha => peek_prg ha cart⟩

end Sys2Proof.Machine

/-! The cycle synchronizer, the interrupts and the reset (spec 49, 60, 70): the InterruptLine and the handler entry, what
a step spends in cycles and ticks, OAM DMA byte by byte, the latched fault, and construction. -/

namespace Sys2Proof.Machine

/-! ### The InterruptLine (R356) -/

theorem requestInterrupt_line (kind : Line) (s : State) :
    (requestInterrupt kind s).line = if s.line.priority < kind.priority then kind else s.line :=
  apply_ite State.line _ _ _

theorem requestInterrupt_eq (kind : Line) (s : State) :
    requestInterrupt kind s = { s with line := (requestInterrupt kind s).line } := by
  unfold requestInterrupt
  split <;> rfl

/-! ### Taking an interrupt (R334, R359) -/

/-- A masked IRQ is not entered. -/
theorem enterIrq_masked {s : State} (h : getFlag .i s.cpu.p = true) : enterIrq s = s := if_pos h

theorem enterIrq_unmasked {s : State} (h : getFlag .i s.cpu.p = false) :
    enterIrq s = enterHandler s.cpu.pc (pushedByHardware s.cpu.p) true irqVector s :=
  if_neg (ne_true_of_eq_false h)

@[simp] theorem push_stall (v : Byte) (s : State) : (push v s).stall = s.stall := by rw [push_eq]

@[simp] theorem enterHandler_stall (ret : Word) (status : Byte) (setI : Bool) (vector : Word) (s : State) :
    (enterHandler ret status setI vector s).stall = s.stall := by
  have hpush : (push status (pushWord ret s)).stall = s.stall := by simp only [pushWord, push_stall]
  cases setI <;> exact (read16_kept vector _).stall.trans hpush

@[simp] theorem enterHandler_params (ret : Word) (status : Byte) (setI : Bool) (vector : Word) (s : State) :
    (enterHandler ret status setI vector s).params = s.params :=
  (enterHandler_kept ret status setI vector s).outside.params

theorem dispatchCheck_none {s : State} (h : s.line = .none) : dispatchCheck s = s := by
  simp only [dispatchCheck, h]

theorem dispatchCheck_reset {s : State} (h : s.line = .reset) :
    dispatchCheck s = { cpuReset s with line := .none } := by
  simp only [dispatchCheck, h]

theorem dispatchCheck_nmi {s : State} (h : s.line = .nmi) : dispatchCheck s =
    { enterNmi s with line := .none, stall := s.stall + s.params.interruptCycles } := by
  simp only [dispatchCheck, h, enterNmi, enterHandler_stall, enterHandler_params]

theorem dispatchCheck_irq_masked {s : State} (h : s.line = .irq) (hi : getFlag .i s.cpu.p = true) :
    dispatchCheck s = s := by
  simp only [dispatchCheck, h, State.flag, hi, if_true]

theorem dispatchCheck_irq_unmasked {s : State} (h : s.line = .irq) (hi : getFlag .i s.cpu.p = false) :
    dispatchCheck s = { enterIrq s with line := .none, stall := s.stall + s.params.interruptCycles } := by
  simp only [dispatchCheck, h, State.flag, hi, Bool.false_eq_true, if_false, enterIrq_unmasked hi, enterHandler_stall,
    enterHandler_params]

/-- The dispatch check adds `INTERRUPT_CYCLES` to the stall, or nothing (R335). -/
theorem dispatchCheck_stall (s : State) : (dispatchCheck s).stall = s.stall ∨
    (dispatchCheck s).stall = s.stall + s.params.interruptCycles := by
  cases h : s.line with
  | none => exact .inl (by rw [dispatchCheck_none h])
  | reset => exact .inl (by rw [dispatchCheck_reset h, cpuReset_eq])
  | nmi => exact .inr (by rw [dispatchCheck_nmi h])
  | irq =>
    cases hi : getFlag .i s.cpu.p
    · exact .inr (by rw [dispatchCheck_irq_unmasked h hi])
    · exact .inl (by rw [dispatchCheck_irq_masked h hi])

/-! ### One step in ticks and cycles (R331, R333) -/

/-- What a step that answers a next state did: it latched a fault after the fetch, or it ran an instruction and what
follows one. -/
theorem step_latched_or_executed {s t : State} (h : step s = .next t) :
    (∃ op, t = latchFault s.cpu.pc op (fetch s).2) ∨
      ∃ i u, exec i (fetch s).2 = .next u ∧ InstrKept s u ∧ t = afterInstruction u := by
  obtain ⟨-, ⟨op, -, ht⟩ | ⟨i, u, -, hu, ht⟩⟩ := step_next h
  · exact .inl ⟨op, ht⟩
  · obtain ⟨u', hu', hk⟩ := exec_kept i (fetch s).2
    obtain rfl : u' = u := Host.Outcome.next.inj (hu'.symm.trans hu)
    exact .inr ⟨i, u', hu, (fetch_kept s).1.trans hk, ht⟩

/-- Neither an instruction nor a bus access moves the position. -/
theorem OutsideKept.tickNumber {s t : State} (h : OutsideKept s t) : tickNumber t = tickNumber s := by
  simp only [Machine.tickNumber, framePosition, h.scanline, h.cycle, h.frame]

theorem afterInstruction_cpuCycles (s : State) :
    (afterInstruction s).cpuCycles = s.cpuCycles + (s.cost + s.stall) :=
  (dispatchCheck_kept _).cpuCycles.trans (spendCycles_kept s).cpuCycles

/-- The dispatch check runs no tick, so the ticks of a step are those of the cycles it spends. -/
theorem afterInstruction_tickNumber (s : State) :
    tickNumber (afterInstruction s) = tickNumber s + 3 * ((s.cost + s.stall : Nat) : Int) := by
  rw [← spendCycles_tickNumber, afterInstruction, tickNumber, (dispatchCheck_kept _).ppu, tickNumber]

/-- The cycles spent leave no stall, so that a step ends with the stall of its dispatch check alone (R333, R335). -/
theorem afterInstruction_stall (s : State) :
    (afterInstruction s).stall = 0 ∨ (afterInstruction s).stall = s.params.interruptCycles := by
  have hk := spendCycles_kept s
  have h := dispatchCheck_stall (spendCycles s)
  rw [hk.stall, hk.params, Nat.zero_add] at h
  exact h

/-! ### The stall through fetch and instruction (R338) -/

theorem fetchBytes_stall (k : Nat) (s : State) : (fetchBytes k s).2.stall = s.stall := by
  induction k generalizing s with
  | zero => rfl
  | succ k ih => exact (ih _).trans (memRead_stall _ s)

theorem fetch_stall (s : State) : (fetch s).2.stall = s.stall := by
  unfold fetch
  dsimp only
  split
  · exact memRead_stall _ s
  split
  · exact (fetchBytes_stall _ _).trans (memRead_stall _ s)
  · exact memRead_stall _ s

theorem readEffect_stall {m : Mnemonic} {op : Byte → State → State} (h : readEffect m = some op) (b : Byte)
    (t : State) : (op b t).stall = t.stall := by
  unfold readEffect at h
  split at h <;> cases h <;> rfl

theorem modifyClass_stall_le (op : Byte → Byte → Byte × Byte) (o : Operand) (base : Nat) (s : State) :
    (modifyClass op o base s).stall ≤ s.stall + 514 := by
  have mem : ∀ (o : Operand) (v p : Byte), (memWrite (resolve o s).addr v
      ((memRead (resolve o s).addr (resolve o s).after).2.setP p)).stall ≤ s.stall + 514 := fun o v p => by
    refine (memWrite_stall_le _ v _).trans ?_
    rw [State.setP_stall, memRead_stall, (resolve_kept o s).stall]
  cases o with
  | acc => exact Nat.le_add_right _ _
  | _ => exact mem _ _ _

/-- The instructions of no memory class of R124 write no port, so that none of them starts a DMA. -/
theorem exec_other_stall {i : Instr} (hr : readEffect i.mnemonic = none) (hs : storedRegister i.mnemonic = none)
    (hm : modifyEffect i.mnemonic = none) (s : State) : ∃ t, exec i s = .next t ∧ t.stall = s.stall := by
  have hbranch : ∀ taken d, (branch taken d s).stall = s.stall := fun taken d => by cases taken <;> rfl
  cases i with
  | tax | tay | txa | tya | tsx | txs | inx | iny | dex | dey | jmpAbs _ | clc | sec | cli | sei | cld | sed | clv
  | nop =>
    exact ⟨_, rfl, rfl⟩
  | bcc d | bcs d | beq d | bne d | bmi d | bpl d | bvc d | bvs d => exact ⟨_, rfl, hbranch _ d⟩
  | jmpInd a => exact ⟨_, rfl, (resolve_kept (.ind a) s).stall⟩
  | jsr a => exact ⟨_, rfl, by rw [call_eq]⟩
  | rts => exact ⟨_, rfl, by rw [returnFromCall_eq]⟩
  | pha | php => exact ⟨_, rfl, by rw [State.charge_stall, push_stall]⟩
  | pla => exact ⟨_, exec_pla s, by rw [State.charge_stall, loadA_eq, pull_eq]⟩
  | plp => exact ⟨_, exec_plp s, by rw [State.charge_stall, State.setP_stall, pull_eq]⟩
  | brk => exact ⟨_, rfl, by rw [State.charge_stall, enterHandler_stall]⟩
  | rti => exact ⟨_, rfl, by rw [State.charge_stall, returnFromInterrupt_eq]⟩
  | _ => contradiction

/-- An instruction makes one bus write that can start a DMA at most, so it adds the stall of one (R338). -/
theorem exec_stall_le (i : Instr) (s : State) : ∃ t, exec i s = .next t ∧ t.stall ≤ s.stall + 514 := by
  cases hr : readEffect i.mnemonic with
  | some op =>
    refine ⟨_, exec_read hr s, ?_⟩
    rw [readClass, State.charge_stall, readEffect_stall hr, (readOperand_kept _ s).stall]
    exact Nat.le_add_right _ _
  | none =>
    cases hs : storedRegister i.mnemonic with
    | some reg =>
      refine ⟨_, exec_store hs s, (memWrite_stall_le _ _ _).trans ?_⟩
      rw [(resolve_kept _ s).stall]
    | none =>
      cases hm : modifyEffect i.mnemonic with
      | some op => exact ⟨_, exec_modify hm s, modifyClass_stall_le op _ _ s⟩
      | none =>
        obtain ⟨t, ht, hstall⟩ := exec_other_stall hr hs hm s
        exact ⟨t, ht, hstall ▸ Nat.le_add_right _ _⟩

/-- What an instruction costs, with the stall it adds, lies between 2 and 7 + 514 cycles (R118, R338). -/
theorem exec_cycles {i : Instr} {s t : State} (h : exec i s = .next t) :
    2 ≤ t.cost ∧ t.cost ≤ 7 ∧ t.stall ≤ s.stall + 514 := by
  obtain ⟨u, hu, low, high, -⟩ := instructionCycles i s
  obtain ⟨v, hv, hstall⟩ := exec_stall_le i s
  obtain rfl : u = t := Host.Outcome.next.inj (hu.symm.trans h)
  obtain rfl : v = u := Host.Outcome.next.inj (hv.symm.trans hu)
  exact ⟨low, high, hstall⟩

/-! ### OAM DMA (R336 to R338) -/

theorem memWrite_dma (d : Byte) (s : State) : memWrite 0x4014 d s = oamDma d s := rfl

/-- The address of byte `i` of page `d` as a number (R337). -/
theorem wordOf_ofNat {i : Nat} (h : i < 256) (d : Byte) :
    wordOf (BitVec.ofNat 8 i) d = BitVec.ofNat 16 (d.toNat * 256 + i) := by
  apply BitVec.eq_of_toNat_eq
  have := d.isLt
  rw [wordOf_toNat, BitVec.toNat_ofNat, BitVec.toNat_ofNat]
  omega

/-- One byte of the copy goes to the OAM address, and to no other place (R337). -/
theorem get_dmaByte_oam (d : Byte) (i : Nat) (s : State) (n : Nat) :
    Memory.get 0 (dmaByte d i s).ppu.oam n =
      if n = s.ppu.oamAddr.toNat then (memRead (wordOf (BitVec.ofNat 8 i) d) s).1 else Memory.get 0 s.ppu.oam n := by
  have hk := memRead_kept (wordOf (BitVec.ofNat 8 i) d) s
  rw [← hk.oamAddr, ← hk.oam]
  exact Memory.get_set

/-- One byte of the copy steps the OAM address (R337). -/
theorem dmaByte_oamAddr (d : Byte) (i : Nat) (s : State) : (dmaByte d i s).ppu.oamAddr = s.ppu.oamAddr + 1 :=
  congrArg (· + 1) (memRead_kept _ s).oamAddr

/-- The copy steps the OAM address once a byte, modulo 256 (R337). -/
theorem dmaCopy_oamAddr (d : Byte) (k : Nat) (s : State) :
    (dmaCopy d k s).ppu.oamAddr.toNat = (s.ppu.oamAddr.toNat + k) % 256 := by
  induction k with
  | zero => exact (Nat.mod_eq_of_lt s.ppu.oamAddr.isLt).symm
  | succ k ih =>
    rw [dmaCopy, dmaByte_oamAddr, BitVec.toNat_add, ih]
    exact Nat.mod_add_mod _ _ _

/-- Byte `i` of a copy of at most 256 bytes lies `i` places after the OAM address, as it was read after the bytes before
it: no later byte of the copy goes there (R337). -/
theorem get_dmaCopy_oam (d : Byte) {k : Nat} (hk : k ≤ 256) {i : Nat} (hi : i < k) (s : State) :
    Memory.get 0 (dmaCopy d k s).ppu.oam ((s.ppu.oamAddr.toNat + i) % 256) =
      (memRead (wordOf (BitVec.ofNat 8 i) d) (dmaCopy d i s)).1 := by
  induction k with
  | zero => omega
  | succ k ih =>
    rw [dmaCopy, get_dmaByte_oam, dmaCopy_oamAddr]
    rcases Nat.lt_succ_iff_lt_or_eq.1 hi with hlt | rfl
    · rw [if_neg (by omega), ih (by omega) hlt]
    · rw [if_pos rfl]

/-- A DMA adds 513 cycles to the stall, or 514 where `cpuCycles` is odd (R338). -/
theorem oamDma_stall (d : Byte) (s : State) : (oamDma d s).stall = s.stall + (513 + s.cpuCycles % 2) := by
  have hcycles : (dmaCopy d 256 s).cpuCycles = s.cpuCycles := (dmaCopy_kept d 256 s).outside.cpuCycles
  simp only [oamDma, dmaCopy_stall, dmaStall, hcycles]

/-- Outside the pages of the ports a read has no side effect and sees the CPU memory alone (R63, R70). -/
theorem memRead_outside_ports {a : Word} (h : a.toNat < 0x2000 ∨ 0x4100 ≤ a.toNat) {s t : State}
    (hk : MemoryKept s t) : memRead a t = ((memRead a s).1, t) := by
  by_cases hn : storageCell a s = none
  · obtain ⟨hlo, hhi⟩ := storageCell_eq_none_iff.1 hn
    rw [memRead_unmapped (by omega) hhi (by omega) (by omega), memRead_unmapped (by omega) hhi (by omega) (by omega)]
  · have hn' : storageCell a t ≠ none := fun h => hn (storageCell_eq_none_iff.2 (storageCell_eq_none_iff.1 h))
    rw [memRead_of_storageCell hn, memRead_of_storageCell hn', hk]

section
variable {d : Byte} (hd : d.toNat < 0x20 ∨ 0x41 ≤ d.toNat)
include hd

/-- A byte of a page without ports. -/
theorem memRead_dma_outside_ports (i : Nat) {s t : State} (hk : MemoryKept s t) :
    memRead (wordOf (BitVec.ofNat 8 i) d) t = ((memRead (wordOf (BitVec.ofNat 8 i) d) s).1, t) := by
  refine memRead_outside_ports ?_ hk
  have := (BitVec.ofNat 8 i).isLt
  rw [wordOf_toNat]
  omega

/-- The copy of a page without ports changes OAM and the OAM address alone (R337). -/
theorem dmaCopy_outside_ports (k : Nat) (s : State) :
    ∃ oam oamAddr, dmaCopy d k s = { s with ppu := { s.ppu with oam := oam, oamAddr := oamAddr } } := by
  induction k with
  | zero => exact ⟨_, _, rfl⟩
  | succ k ih =>
    obtain ⟨oam, oamAddr, h⟩ := ih
    rw [dmaCopy, h, dmaByte, memRead_dma_outside_ports hd k (.refl _)]
    exact ⟨_, _, rfl⟩

end

/-! ### The latched fault (R351) -/

theorem fetch_of_no_row {s : State} (h : opRow (memRead s.cpu.pc s).1 = none) :
    fetch s = (.error (memRead s.cpu.pc s).1, (memRead s.cpu.pc s).2) := by
  simp only [fetch, h]

theorem step_of_fetch_error {s t : State} {op : Byte} (hf : s.fault = none) (h : fetch s = (.error op, t)) :
    step s = .next (latchFault s.cpu.pc op t) := by
  simp only [step, hf, h]

theorem step_of_fault {s : State} {f : Fault} (h : s.fault = some f) : step s = .fault f := by
  simp only [step, h]

/-! ### Construction (R380) -/

/-- The CPU reset writes no memory. -/
theorem peek_cpuReset (a : Word) (s : State) : peek a (cpuReset s) = peek a s := by
  rw [cpuReset_eq]
  exact peek_congr rfl rfl rfl a

/-- Only the pattern memory depends on the CHR bank (R316). -/
theorem loadChr_eq (s : State) :
    loadChr s = { s with chr := if s.cart.chrBanks = 1 then s.cart.chr else s.chr } := by
  unfold loadChr
  split <;> rfl

/-- The covered configurations (R311, R305). -/
theorem cartridge_wellFormed_iff (c : Cartridge) : c.wellFormed = true ↔
    c.mapperId = 0 ∧ (c.prgBanks = 1 ∨ c.prgBanks = 2) ∧ (c.chrBanks = 0 ∨ c.chrBanks = 1) ∧
      c.fourScreen = false := by
  simp [Cartridge.wellFormed, Cartridge.mapperRegistered, Cartridge.prgBanksLegal, Cartridge.chrBanksLegal, and_assoc]

/-! ### The statements -/

/-- Settles O41: before the ticks nothing moves the position or counts a cycle; the ticks are three for each cycle
counted; after them nothing does. -/
theorem threeTicksPerCycle : Obligations.ThreeTicksPerCycle := by
  refine ⟨fun s t _ h => ?_, rfl, rfl⟩
  obtain ⟨op, rfl⟩ | ⟨i, u, -, hk, rfl⟩ := step_latched_or_executed h
  · have hfetch := (fetch_kept s).1.outside
    have htick : tickNumber (latchFault s.cpu.pc op (fetch s).2) = tickNumber s := hfetch.tickNumber
    have hcycles : (latchFault s.cpu.pc op (fetch s).2).cpuCycles = s.cpuCycles := hfetch.cpuCycles
    rw [ThreePerCycle, htick, hcycles]
    omega
  · rw [ThreePerCycle, afterInstruction_tickNumber, afterInstruction_cpuCycles, hk.outside.tickNumber,
      hk.outside.cpuCycles]
    omega

/-- Settles O42: the cycles a step charges are the cost of its instruction and the stall, of which the instruction adds
at most one DMA's; the dispatch check alone leaves a stall. -/
theorem stepCycleBounds : Obligations.StepCycleBounds := by
  intro s t _ hparam hentry h hfault
  obtain ⟨op, rfl⟩ | ⟨i, u, hu, hk, rfl⟩ := step_latched_or_executed h
  · cases hfault
  · obtain ⟨low, high, hstall⟩ := exec_cycles hu
    have hleft := afterInstruction_stall u
    rw [hk.outside.params, hparam] at hleft
    rw [fetch_stall] at hstall
    rw [afterInstruction_cpuCycles, hk.outside.cpuCycles]
    exact ⟨by omega, by omega, hleft⟩

/-- Settles O50: the copy byte by byte, its reads on a page without ports being those of the state before. -/
theorem oamDmaCopiesAPage : Obligations.OamDmaCopiesAPage := by
  intro d s t ht
  rw [memWrite_dma] at ht
  have hbyte : ∀ i < 256, Memory.get 0 t.ppu.oam ((s.ppu.oamAddr.toNat + i) % 256) =
      (memRead (wordOf (BitVec.ofNat 8 i) d) (dmaCopy d i s)).1 := fun i hi => by
    rw [ht]
    exact get_dmaCopy_oam d (Nat.le_refl _) hi s
  have hoamAddr : (dmaCopy d 256 s).ppu.oamAddr = s.ppu.oamAddr := by
    apply BitVec.eq_of_toNat_eq
    have := s.ppu.oamAddr.isLt
    rw [dmaCopy_oamAddr]
    omega
  have hkept : BusKept s t := ht ▸ oamDma_kept d s
  refine ⟨fun i hi => ?bytes, fun hd i hi => ?pageBytes, ?oamAddr, ?stall, hkept.cpu, hkept.outside.line,
    ht ▸ (oamDma_cpuMemory d s).memory, fun hd => ?frame⟩
  case bytes => rw [hbyte i hi, wordOf_ofNat hi]
  case pageBytes =>
    rw [hbyte i hi, memRead_dma_outside_ports hd i (dmaCopy_cpuMemory d i s).memory, wordOf_ofNat hi]
  case oamAddr =>
    rw [ht]
    exact hoamAddr
  case stall =>
    rw [ht, oamDma_stall]
    split <;> omega
  case frame =>
    obtain ⟨oam, oamAddr, hcopy⟩ := dmaCopy_outside_ports hd 256 s
    rw [hcopy] at hoamAddr
    obtain rfl : oamAddr = s.ppu.oamAddr := hoamAddr
    rw [ht, oamDma, hcopy]

/-- Settles O34: the listed bytes are those with no row, and the fetch ends at one after its opcode read. -/
theorem undefinedOpcodeLatches : Obligations.UndefinedOpcodeLatches := by
  refine fun s => ⟨fun hf hop => ⟨?latch, memRead_cpu _ s, fun hc => ?storage⟩, fun f hf => step_of_fault hf⟩
  case latch => exact step_of_fetch_error hf (fetch_of_no_row ((opRow_eq_none_iff _).2 hop))
  case storage => rw [memRead_of_storageCell hc]

/-- Settles O36: both kinds are the entry of a handler, with InterruptDisable set for IRQ only. -/
theorem interruptEntry : Obligations.InterruptEntry := by
  intro s nmi vector t hvector ht
  refine ⟨fun hnmi hi => ?masked, fun htaken => ?taken⟩
  case masked =>
    subst hnmi
    exact ht.trans (enterIrq_masked hi)
  case taken =>
    have h : 0x8000 ≤ vector.toNat ∧ vector.toNat < 0xFFFF := by
      rw [hvector]
      cases nmi <;> decide
    obtain ⟨hlo, hhi⟩ := h
    have hentry : t = enterHandler s.cpu.pc (pushedByHardware s.cpu.p) (!nmi) vector s := by
      rw [ht, hvector]
      cases nmi with
      | true => rfl
      | false => exact enterIrq_unmasked (htaken.resolve_left Bool.false_ne_true)
    rw [hentry]
    obtain ⟨hd, hi, hflags⟩ := enterHandler_flags hlo hhi s.cpu.pc (pushedByHardware s.cpu.p) (!nmi) s
    refine ⟨_, ?frame, hd, hi, hflags, peek_enterHandler_high hlo hhi _ _ _ s, peek_enterHandler_low hlo hhi _ _ _ s,
      peek_enterHandler_status hlo hhi _ _ _ s, fun b => peek_enterHandler_other hlo hhi _ _ _ s⟩
    case frame => simp only [enterHandler_eq _ _ (!nmi) hlo hhi]

/-- Settles O44: what `PowerOn` builds is the CPU reset of the constructed state with the CHR bank copied in. -/
theorem powerOnBuildsTheMachine : Obligations.PowerOnBuildsTheMachine := by
  intro params c m
  rw [← cartridge_wellFormed_iff]
  refine ⟨fun h => ⟨cpuReset (loadChr (constructed params c m)), if_pos h, ?_⟩, fun h => if_neg h⟩
  simp only [peek_cpuReset]
  rw [cpuReset_eq, loadChr_eq]
  exact ⟨rfl, rfl, rfl, rfl, rfl, rfl, rfl, rfl, rfl, rfl, rfl, rfl, rfl, rfl⟩

/-- Settles O35, case by case of the InterruptLine. -/
theorem dispatchTakesOneRequest : Obligations.DispatchTakesOneRequest := fun _ =>
  ⟨dispatchCheck_reset, dispatchCheck_nmi, dispatchCheck_irq_unmasked, dispatchCheck_irq_masked, dispatchCheck_none⟩

/-- Settles O37, from the priorities of the four values of the slot. -/
theorem requestByPriority : Obligations.RequestByPriority := by
  intro kind s
  refine ⟨requestInterrupt_eq kind s, fun h => ?reset, fun h => ?nmi, fun h => ?irq, fun h => ?none⟩
    <;> rw [requestInterrupt_line, h]
  case reset => cases s.line <;> rfl
  case nmi => cases s.line <;> rfl
  case irq => cases s.line <;> rfl
  case none => exact if_neg (Nat.not_lt_zero _)

/-- Settles O38: the closed form of the CPU reset. -/
theorem cpuResetWritesRegistersOnly : Obligations.CpuResetWritesRegistersOnly := cpuReset_eq

end Sys2Proof.Machine
